-- ==== Sys2Proof/Word.lean ====
section
/-! DEFINITION. Word.lean: the words of the block. A byte is 8 bits, a byte string is a finite sequence of
bytes with offset 0 first on the wire (spec 00_scope.md section 5), and every field of a frame is an unsigned
number of 8, 16 or 32 bits (spec 20_memory.md R29). -/

namespace Sys2Proof

/-- A byte: 8 bits (00_scope.md section 5). -/
abbrev Byte := BitVec 8

/-- A 16-bit field: `magic`, `length`, the single-packet `checksum` (R29, R117). -/
abbrev Half := BitVec 16

/-- A 32-bit field: `sequence`, `checksum`, `fileChecksum`, and the CRC register (R29, R60). -/
abbrev Word := BitVec 32

/-- A byte string: a finite sequence of bytes, offset 0 first on the wire (00_scope.md section 5). -/
abbrev Bytes := List Byte

end Sys2Proof
end

