-- ==== Sys2Proof/Config.lean ====
section
/-! DEFINITION. Config.lean: the parameters the document leaves to the implementation (spec 00_scope.md R7).
They are fixed when the block is built (10_state.md R19); State carries them as one field that no step changes
(log entry 3), so that every setting the spec allows is a state of this model and a statement about every state
covers all of them. The hardwired constants of R6 stand in Machine/Constants.lean. -/

namespace Sys2Proof

/-- `VARIANT` (R7): which of the two protocol configurations an arriving datagram is read in. -/
inductive Variant where
  | chunked
  | singlePacket
  deriving DecidableEq, Repr

/-- `TX_BAD_REPLY` (R113): what the sender does with a reply that is not a well-formed ACK. -/
inductive BadReplyPolicy where
  | proceed
  | keepWaitingUntilTimeout
  deriving DecidableEq, Repr

/-- The open parameters of R7, R109 and R113. -/
structure Cfg where
  /-- `PEER_KEYED` (R14): one shared reassembly buffer (`false`) or one per peer (`true`). -/
  peerKeyed : Bool
  /-- `RB_CAPACITY` (R81): how many entries a reassembly buffer holds; `none` is `unbounded`. -/
  rbCapacity : Option Nat
  /-- `VARIANT` (R7): how an arriving datagram is read. -/
  variant : Variant
  /-- `SP_RESERVED_CHECK` (R123): whether `SP_DECODE` checks the reserved byte. -/
  spReservedCheck : Bool
  /-- `EMPTY_PAYLOAD_CHUNKS` (R109): a sender makes one chunk of the empty payload (`true`) or none. -/
  emptyPayloadOneChunk : Bool
  /-- `TX_BAD_REPLY` (R113). -/
  badReply : BadReplyPolicy
  deriving DecidableEq, Repr

/-- The spec's defaults (R7): unbounded capacity, the chunked configuration, the reserved byte not checked. The three
parameters the spec leaves open without a default (`PEER_KEYED`, `EMPTY_PAYLOAD_CHUNKS`, `TX_BAD_REPLY`) have a value
here by log entry 4 (DESIGN CHOICE); for the first it is the document's reference behaviour (R14). -/
def Cfg.default : Cfg where
  peerKeyed := false
  rbCapacity := none
  variant := .chunked
  spReservedCheck := false
  emptyPayloadOneChunk := true
  badReply := .proceed

end Sys2Proof
end

