-- ==== Sys2Proof/Machine/Constants.lean ====
section
/-! DEFINITION. Machine/Constants.lean: the hardwired constants of the chunked configuration (spec 00_scope.md R6),
of the single-packet configuration (43_single_packet_variant.md R116, R117), the selector numbers (30_encoding.md
R56) and the parameters of the CRC-32 (40_codec.md R60). No operation writes them. -/

namespace Sys2Proof.Machine

/-- `MAGIC` (R6, R43). -/
def magic : Half := 0xC0DE#16

/-- `VERSION` (R6, R43). -/
def version : Byte := 0x01#8

/-- `TYPE_DATA` (R6, R44). -/
def typeData : Byte := 0#8

/-- `TYPE_ACK` (R6, R44). -/
def typeAck : Byte := 1#8

/-- `TYPE_ERROR` (R6, R44). -/
def typeError : Byte := 2#8

/-- `MAX_PAYLOAD`: the largest payload one frame of the chunked configuration carries (R6). -/
def maxPayload : Nat := 1000

/-- `HDR_NORMAL` (R6). -/
def hdrNormal : Nat := 14

/-- `HDR_TERMINAL` (R6). -/
def hdrTerminal : Nat := 18

/-- `MIN_FRAME`: "the minimal header" (R6). -/
def minFrame : Nat := hdrNormal

/-- `MAX_FRAME` (R6). -/
def maxFrame : Nat := hdrTerminal + maxPayload

/-- `SP_MAX_PAYLOAD` (R116). -/
def spMaxPayload : Nat := 4096

/-- `SP_HDR` (R117, conflict C1: the field list wins over "8-byte"). -/
def spHdr : Nat := 9

/-- `ACK_TIMEOUT`, in the document's unit, which is not stated; nothing reads it (R104, decision D18). -/
def ackTimeout : Nat := 1

/-- The bit-reversed generator polynomial of the CRC-32 (R60). -/
def crcPoly : Word := 0xEDB88320#32

/-- The initial register of the CRC-32 (R60). -/
def crcInit : Word := 0xFFFFFFFF#32

/-- The final exclusive-or of the CRC-32 (R60). -/
def crcFinal : Word := 0xFFFFFFFF#32

/-- The largest number of chunks 32-bit sequence numbers can number (R110). -/
def maxChunks : Nat := 2 ^ 32

/-- The three assigned type codes (R44); 3 to 255 are unassigned (R53). -/
def assignedType (t : Byte) : Bool := t == typeData || t == typeAck || t == typeError

end Sys2Proof.Machine
end

