-- ==== Sys2Proof/Syntax.lean ====
section
/-! DEFINITION. Syntax.lean: the operations of the block (spec 00_scope.md R2, 30_encoding.md R56) and the frame
kinds of its protocols (30_encoding.md R55, 43_single_packet_variant.md R117): one constructor for each row of
spec/opcode_table.json. An operation's constructor carries its operands; a frame kind's constructor carries the
fields of one received frame of that kind and stands for its arrival at the receiver (R111; log entry 5). -/

namespace Sys2Proof

/-- A peer identity: "opaque; only equality is used" (R7, decision D12, N8: no format and no width). The number is
only a name; nothing the block does depends on its value beyond equality (log entry 6). -/
structure Peer where
  id : Nat
  deriving DecidableEq, Repr

/-- The two header forms as the sum type the document directs (00_scope.md section 5; R50). -/
inductive Form where
  | normal
  | terminal (fc : Word)
  deriving DecidableEq, Repr

/-- One constructor per row of spec/opcode_table.json. -/
inductive Instr where
  /-- `CRC32 B` (R63). -/
  | crc32 (b : Bytes)
  /-- `ENCODE seq payload type fc?` (R64); the type is the raw code so that a request for an unassigned one can be
  written and refused (R66). -/
  | encode (seq : Word) (ty : Byte) (fc : Option Word) (payload : Bytes)
  /-- `DECODE D` (R68). -/
  | decode (d : Bytes)
  /-- `RB_STORE seq payload` (R80); the peer is the extra operand of R95 and is ignored when `PEER_KEYED = false`. -/
  | rbStore (peer : Peer) (seq : Word) (payload : Bytes)
  /-- `RB_CONCAT` (R82; peer as in R95). -/
  | rbConcat (peer : Peer)
  /-- `RB_CLEAR` (R83; peer as in R95). -/
  | rbClear (peer : Peer)
  /-- `RB_FINALIZE fc` (R84; peer as in R95). -/
  | rbFinalize (peer : Peer) (fc : Word)
  /-- `RECV D src` (R88). -/
  | recv (src : Peer) (d : Bytes)
  /-- `SP_ENCODE payload type` (R119). -/
  | spEncode (ty : Byte) (payload : Bytes)
  /-- `SP_DECODE D` (R120). -/
  | spDecode (d : Bytes)
  /-- `SP_SERVE D src` (R122). -/
  | spServe (src : Peer) (d : Bytes)
  /-- A DATA frame in the normal form arrives (row FRAME.DATA; R91, layout R41). -/
  | frameData (src : Peer) (seq : Word) (checksum : Word) (payload : Bytes)
  /-- A DATA frame in the terminal form arrives (row FRAME.DATA.TERMINAL; R93, layout R42). -/
  | frameDataTerminal (src : Peer) (seq : Word) (checksum : Word) (fc : Word) (payload : Bytes)
  /-- An ACK frame arrives, in either form (row FRAME.ACK; R90, R92, R54). -/
  | frameAck (src : Peer) (seq : Word) (checksum : Word) (form : Form) (payload : Bytes)
  /-- An ERROR frame arrives, in either form (row FRAME.ERROR; R44, R90, R54). -/
  | frameError (src : Peer) (seq : Word) (checksum : Word) (form : Form) (payload : Bytes)
  /-- A frame with an unassigned type code 3 to 255 arrives, in either form (row FRAME.UNASSIGNED; R53, R90). -/
  | frameUnassigned (src : Peer) (ty : Byte) (seq : Word) (checksum : Word) (form : Form) (payload : Bytes)
  /-- A single-packet DATA frame arrives (row SPFRAME.DATA; R117, R122). -/
  | spFrameData (src : Peer) (reserved : Byte) (checksum : Half) (payload : Bytes)
  /-- A single-packet ACK frame arrives (row SPFRAME.ACK; R117, R122). -/
  | spFrameAck (src : Peer) (reserved : Byte) (checksum : Half) (payload : Bytes)
  /-- A single-packet ERROR frame arrives (row SPFRAME.ERROR; R117, R122). -/
  | spFrameError (src : Peer) (reserved : Byte) (checksum : Half) (payload : Bytes)
  deriving DecidableEq, Repr

/-- What carries an instruction to the block: a command of the host (a selector byte of R56 and operand bytes, with
the peer it concerns; log entry 2) or a datagram from the transport with its source (R9, R111). -/
inductive Transaction where
  | command (peer : Peer) (bytes : Bytes)
  | datagram (src : Peer) (bytes : Bytes)
  deriving DecidableEq, Repr

/-- Why the decoder reads no operation from a command. -/
inductive DecodeError where
  /-- A command of no bytes names no operation. -/
  | emptyCommand
  /-- "Every other selector value names no operation; a model refuses it" (R56, U9). -/
  | unknownSelector
  /-- The command ends before its fixed operands do (the model's own operand layout, log entry 2). -/
  | truncatedOperands
  /-- Bytes follow the operands of an operation that takes no byte string (log entry 2). -/
  | trailingOperands
  /-- The byte that says whether `fc` is present is neither 0 nor 1 (log entry 2). -/
  | badPresenceFlag
  deriving DecidableEq, Repr

end Sys2Proof
end

