-- ==== Sys2Proof/Machine/Operands.lean ====
section
/-! DEFINITION. Machine/Operands.lean: how operands and fields are read from byte strings and written into them.
Every multi-byte integer is big-endian (spec 20_memory.md R26, R27), fields lie at fixed byte offsets with no
alignment (R28), and MemRead, MemWrite, be16, be32, zeros and half-open slices are the primitives of 00_scope.md
section 5. The three frame headers of 30_encoding.md R41, R42 and 43_single_packet_variant.md R117 are laid out
here, once, for the encoder, the codec and the arrival of frames. -/

namespace Sys2Proof.Machine

/-- The unsigned number whose big-endian bytes are `B` (R26). -/
def beNat (B : Bytes) : Nat := B.foldl (fun acc b => acc * 256 + b.toNat) 0

/-- The `n` big-endian bytes of `v` (R26): byte `k` is `(v >> 8*(n-1-k)) and 0xFF`. -/
def beBytes : Nat → Nat → Bytes
  | 0, _ => []
  | n + 1, v => BitVec.ofNat 8 (v >>> (8 * n)) :: beBytes n v

/-- `be16(v)` (00_scope.md section 5). -/
def be16 (v : Nat) : Bytes := beBytes 2 v

/-- `be32(v)` (00_scope.md section 5). -/
def be32 (v : Word) : Bytes := beBytes 4 v.toNat

/-- `B[i..j)`: the bytes of offsets `i` to `j - 1` (00_scope.md section 5). -/
def slice (B : Bytes) (i j : Nat) : Bytes := (B.drop i).take (j - i)

/-- `MemRead(B, off, n)`: the unsigned number whose big-endian bytes are `B[off..off+n)`. Every use stands where the
bounds `off + n ≤ len(B)` have been established (R31). -/
def memRead (B : Bytes) (off n : Nat) : Nat := beNat (slice B off (off + n))

/-- `MemWrite(B, off, n, v)`: `B` with bytes `off..off+n-1` replaced by the big-endian bytes of `v`. -/
def memWrite (B : Bytes) (off n v : Nat) : Bytes := B.take off ++ beBytes n v ++ B.drop (off + n)

/-- `zeros(n)`. -/
def zeros (n : Nat) : Bytes := List.replicate n 0#8

/-- A 1-byte field (R29). -/
def read8 (B : Bytes) (off : Nat) : Byte := BitVec.ofNat 8 (memRead B off 1)

/-- A 2-byte field (R29). -/
def read16 (B : Bytes) (off : Nat) : Half := BitVec.ofNat 16 (memRead B off 2)

/-- A 4-byte field (R29). -/
def read32 (B : Bytes) (off : Nat) : Word := BitVec.ofNat 32 (memRead B off 4)

/-- The four bytes `a b c d` as a 32-bit big-endian word (R26): a fixed operand of a command. -/
def word4 (a b c d : Byte) : Word := BitVec.ofNat 32 (beNat [a, b, c, d])

/-- The `fileChecksum` bytes of a form: none, or four (R48). -/
def formBytes : Form → Bytes
  | .normal => []
  | .terminal fc => be32 fc

/-- The form an optional `fc` operand of ENCODE asks for: "the presence of the `fc` operand" (R48). -/
def formOf : Option Word → Form
  | none => .normal
  | some fc => .terminal fc

/-- The header of the chunked configuration: R41 for the normal form, R42 for the terminal one. `len` is the payload
byte count, `ck` what stands in the checksum field. -/
def header (ty : Byte) (seq : Word) (len : Nat) (ck : Word) (form : Form) : Bytes :=
  be16 magic.toNat ++ [version, ty] ++ be32 seq ++ be16 len ++ be32 ck ++ formBytes form

/-- A whole frame of the chunked configuration laid out from its fields (R40 to R42). -/
def layFrame (ty : Byte) (seq ck : Word) (form : Form) (payload : Bytes) : Bytes :=
  header ty seq payload.length ck form ++ payload

/-- The header of the single-packet configuration (R117). -/
def spHeader (ty reserved : Byte) (len : Nat) (ck : Half) : Bytes :=
  be16 magic.toNat ++ [version, ty, reserved] ++ be16 len ++ be16 ck.toNat

/-- A whole single-packet frame laid out from its fields (R117). -/
def laySpFrame (ty reserved : Byte) (ck : Half) (payload : Bytes) : Bytes :=
  spHeader ty reserved payload.length ck ++ payload

/-- How long the payload of a datagram of `n` bytes is and which form it has, when its `length` field is `len`: R50.
The two conditions differ by 4 for the same `len`, so at most one holds. -/
def formAt (D : Bytes) (len : Nat) : Option (Form × Bytes) :=
  if D.length = hdrNormal + len then some (.normal, D.drop hdrNormal)
  else if D.length = hdrTerminal + len then some (.terminal (read32 D 14), D.drop hdrTerminal)
  else none

end Sys2Proof.Machine
end

