-- ==== Sys2Proof/WellFormed.lean ====
section
/-! DEFINITION. WellFormed.lean: which instructions lie in the domains the spec gives their operands. Sequence
numbers, file checksums and byte strings range over everything their types hold (spec 10_state.md R17, 40_codec.md
R66); what is checked here is what the spec restricts: the assigned types of ENCODE and SP_ENCODE (R66), the 1000
bytes of RB_STORE (R80), and for an arriving frame the `length` range of its layout (R41, R42, R117) and, for an
unassigned type code, that it is one (R53). -/

namespace Sys2Proof

/-- The operands of `i` lie in the domains the spec gives them. `ENCODE` and `SP_ENCODE` of an over-long payload are
inside the domain: they answer `PayloadTooLarge` (R65, R119). -/
def Instr.wf : Instr → Bool
  | .crc32 _ => true
  | .encode _ ty _ _ => Machine.assignedType ty
  | .decode _ => true
  | .rbStore _ _ payload => decide (payload.length ≤ Machine.maxPayload)
  | .rbConcat _ => true
  | .rbClear _ => true
  | .rbFinalize _ _ => true
  | .recv _ _ => true
  | .spEncode ty _ => Machine.assignedType ty
  | .spDecode _ => true
  | .spServe _ _ => true
  | .frameData _ _ _ payload => decide (payload.length ≤ Machine.maxPayload)
  | .frameDataTerminal _ _ _ _ payload => decide (payload.length ≤ Machine.maxPayload)
  | .frameAck _ _ _ _ payload => decide (payload.length ≤ Machine.maxPayload)
  | .frameError _ _ _ _ payload => decide (payload.length ≤ Machine.maxPayload)
  | .frameUnassigned _ ty _ _ _ payload =>
    !Machine.assignedType ty && decide (payload.length ≤ Machine.maxPayload)
  | .spFrameData _ _ _ payload => decide (payload.length ≤ Machine.spMaxPayload)
  | .spFrameAck _ _ _ payload => decide (payload.length ≤ Machine.spMaxPayload)
  | .spFrameError _ _ _ payload => decide (payload.length ≤ Machine.spMaxPayload)

/-- The configuration whose arriving datagrams `i` stands for: a frame kind belongs to one of the two (R7, R55,
R117); an operation may be started by the host in either. -/
def Instr.fitsVariant : Instr → Variant → Bool
  | .frameData .., v => v == .chunked
  | .frameDataTerminal .., v => v == .chunked
  | .frameAck .., v => v == .chunked
  | .frameError .., v => v == .chunked
  | .frameUnassigned .., v => v == .chunked
  | .spFrameData .., v => v == .singlePacket
  | .spFrameAck .., v => v == .singlePacket
  | .spFrameError .., v => v == .singlePacket
  | .crc32 .., _ => true
  | .encode .., _ => true
  | .decode .., _ => true
  | .rbStore .., _ => true
  | .rbConcat .., _ => true
  | .rbClear .., _ => true
  | .rbFinalize .., _ => true
  | .recv .., _ => true
  | .spEncode .., _ => true
  | .spDecode .., _ => true
  | .spServe .., _ => true

end Sys2Proof
end

