-- ==== Sys2Proof/Decode.lean ====
section
/-! DEFINITION. Decode.lean: from bytes to an instruction, and back. A host's command is a selector byte of spec
30_encoding.md R56 followed by operand bytes (the spec gives the operations no binary encoding; the operand layout is
the model's, log entry 2). A datagram is matched by its first word and its total length (R50, R55, R117); one that is
no frame kind of the configuration is still handled as the receive loop handles every datagram (R111): it is the
operand of RECV, or of SP_SERVE in the single-packet configuration. -/

namespace Sys2Proof

open Machine

/-- The operand bytes of ENCODE: `seq`, the type code, whether `fc` is present, `fc` if it is, then the payload
(operands of R64; layout of log entry 2). -/
def decodeEncodeOperands : Bytes → Except DecodeError Instr
  | a :: b :: c :: d :: ty :: flag :: rest =>
    if flag = 0#8 then .ok (.encode (word4 a b c d) ty none rest)
    else if flag = 1#8 then
      match rest with
      | e :: f :: g :: h :: payload => .ok (.encode (word4 a b c d) ty (some (word4 e f g h)) payload)
      | _ => .error .truncatedOperands
    else .error .badPresenceFlag
  | _ => .error .truncatedOperands

/-- The operand bytes of RB_STORE: `seq`, then the payload (R80). -/
def decodeStoreOperands (peer : Peer) : Bytes → Except DecodeError Instr
  | a :: b :: c :: d :: payload => .ok (.rbStore peer (word4 a b c d) payload)
  | _ => .error .truncatedOperands

/-- The operand bytes of RB_FINALIZE: `fc` (R84). -/
def decodeFinalizeOperands (peer : Peer) : Bytes → Except DecodeError Instr
  | [a, b, c, d] => .ok (.rbFinalize peer (word4 a b c d))
  | _ :: _ :: _ :: _ :: _ :: _ => .error .trailingOperands
  | _ => .error .truncatedOperands

/-- An operation without operands (R82, R83). -/
def decodeNoOperands (i : Instr) : Bytes → Except DecodeError Instr
  | [] => .ok i
  | _ :: _ => .error .trailingOperands

/-- The operand bytes of SP_ENCODE: the type code, then the payload (R119). -/
def decodeSpEncodeOperands : Bytes → Except DecodeError Instr
  | ty :: payload => .ok (.spEncode ty payload)
  | [] => .error .truncatedOperands

/-- A host's command: the selector of R56, then the operands. "Every other selector value names no operation." -/
def decodeCommand (peer : Peer) : Bytes → Except DecodeError Instr
  | [] => .error .emptyCommand
  | op :: rest =>
    match op.toNat with
    | 0x01 => .ok (.crc32 rest)
    | 0x02 => decodeEncodeOperands rest
    | 0x03 => .ok (.decode rest)
    | 0x10 => decodeStoreOperands peer rest
    | 0x11 => decodeNoOperands (.rbConcat peer) rest
    | 0x12 => decodeNoOperands (.rbClear peer) rest
    | 0x13 => decodeFinalizeOperands peer rest
    | 0x20 => .ok (.recv peer rest)
    | 0x42 => decodeSpEncodeOperands rest
    | 0x43 => .ok (.spDecode rest)
    | 0x60 => .ok (.spServe peer rest)
    | _ => .error .unknownSelector

/-- The frame kind of R55 for a type code and a form: DATA in two forms, ACK, ERROR, unassigned. -/
def frameKind (src : Peer) (ty : Byte) (seq checksum : Word) (form : Form) (payload : Bytes) : Instr :=
  if ty = typeData then
    match form with
    | .normal => .frameData src seq checksum payload
    | .terminal fc => .frameDataTerminal src seq checksum fc payload
  else if ty = typeAck then .frameAck src seq checksum form payload
  else if ty = typeError then .frameError src seq checksum form payload
  else .frameUnassigned src ty seq checksum form payload

/-- A datagram of the chunked configuration: a frame kind when its first word (R55), its `length` field (R46) and its
total length (R50) say so, and otherwise the bare operand of RECV (R111). -/
def decodeChunkedDatagram (src : Peer) (D : Bytes) : Instr :=
  if D.length < minFrame then .recv src D
  else if memRead D 0 2 = magic.toNat ∧ memRead D 2 1 = version.toNat ∧ memRead D 8 2 ≤ maxPayload then
    match formAt D (memRead D 8 2) with
    | some (form, payload) => frameKind src (read8 D 3) (read32 D 4) (read32 D 10) form payload
    | none => .recv src D
  else .recv src D

/-- A datagram of the single-packet configuration: a frame kind of R117 with an assigned type, and otherwise the bare
operand of SP_SERVE. -/
def decodeSpDatagram (src : Peer) (D : Bytes) : Instr :=
  if D.length < spHdr then .spServe src D
  else if memRead D 0 2 = magic.toNat ∧ memRead D 2 1 = version.toNat ∧ memRead D 5 2 ≤ spMaxPayload ∧
      D.length = spHdr + memRead D 5 2 then
    if read8 D 3 = typeData then .spFrameData src (read8 D 4) (read16 D 7) (D.drop spHdr)
    else if read8 D 3 = typeAck then .spFrameAck src (read8 D 4) (read16 D 7) (D.drop spHdr)
    else if read8 D 3 = typeError then .spFrameError src (read8 D 4) (read16 D 7) (D.drop spHdr)
    else .spServe src D
  else .spServe src D

/-- The decoder: total on every transaction. A datagram always decodes; a command decodes or is rejected by name. -/
def decode (v : Variant) : Transaction → Except DecodeError Instr
  | .command peer bytes => decodeCommand peer bytes
  | .datagram src D =>
    match v with
    | .chunked => .ok (decodeChunkedDatagram src D)
    | .singlePacket => .ok (decodeSpDatagram src D)

/-- The bytes a transaction carries. -/
def transactionBytes : Transaction → Bytes
  | .command _ bytes => bytes
  | .datagram _ bytes => bytes

/-- The peer written into a command whose operation concerns none. -/
def noPeer : Peer := ⟨0⟩

/-- The bytes of an optional `fc` operand in a command: a presence byte, then `fc` (log entry 2). -/
def fcOperandBytes : Option Word → Bytes
  | none => [0#8]
  | some fc => 1#8 :: be32 fc

/-- The encoder, from the same tables: R56 for the operations, R41, R42 and R117 for the frame kinds. -/
def encode : Instr → Transaction
  | .crc32 b => .command noPeer (0x01#8 :: b)
  | .encode seq ty fc payload => .command noPeer (0x02#8 :: (be32 seq ++ [ty] ++ fcOperandBytes fc ++ payload))
  | .decode d => .command noPeer (0x03#8 :: d)
  | .rbStore peer seq payload => .command peer (0x10#8 :: (be32 seq ++ payload))
  | .rbConcat peer => .command peer [0x11#8]
  | .rbClear peer => .command peer [0x12#8]
  | .rbFinalize peer fc => .command peer (0x13#8 :: be32 fc)
  | .recv src d => .command src (0x20#8 :: d)
  | .spEncode ty payload => .command noPeer (0x42#8 :: ty :: payload)
  | .spDecode d => .command noPeer (0x43#8 :: d)
  | .spServe src d => .command src (0x60#8 :: d)
  | .frameData src seq ck payload => .datagram src (layFrame typeData seq ck .normal payload)
  | .frameDataTerminal src seq ck fc payload => .datagram src (layFrame typeData seq ck (.terminal fc) payload)
  | .frameAck src seq ck form payload => .datagram src (layFrame typeAck seq ck form payload)
  | .frameError src seq ck form payload => .datagram src (layFrame typeError seq ck form payload)
  | .frameUnassigned src ty seq ck form payload => .datagram src (layFrame ty seq ck form payload)
  | .spFrameData src reserved ck payload => .datagram src (laySpFrame typeData reserved ck payload)
  | .spFrameAck src reserved ck payload => .datagram src (laySpFrame typeAck reserved ck payload)
  | .spFrameError src reserved ck payload => .datagram src (laySpFrame typeError reserved ck payload)

/-- How many bytes of fixed operands follow a selector, all of them zero in a word of the opcode table. -/
def fixedOperandBytes (op : Nat) : Nat :=
  match op with
  | 0x02 => 6
  | 0x10 => 4
  | 0x13 => 4
  | 0x42 => 1
  | _ => 0

/-- The transaction a word of spec/opcode_table.json stands for: an 8-bit row is a selector with its fixed operands
zero and an empty byte string; a 32-bit row is the first big-endian word of a datagram (R55) whose remaining header
bytes are zero. Only the normal header is filled up, so a word two rows share is read as the earlier row. -/
def tableTransaction (nbits w : Nat) : Transaction :=
  if nbits ≤ 8 then .command noPeer (beBytes 1 w ++ zeros (fixedOperandBytes w))
  else .datagram noPeer (beBytes ((nbits + 7) / 8) w ++ zeros (hdrNormal - (nbits + 7) / 8))

/-- The instruction the decoder reads from a word of spec/opcode_table.json, in the chunked configuration. -/
def decodeTableWord (nbits w : Nat) : Option Instr :=
  match decode .chunked (tableTransaction nbits w) with
  | .ok i => some i
  | .error _ => none

end Sys2Proof
end

