-- ==== Sys2Proof/Machine/Crc.lean ====
section
/-! DEFINITION. Machine/Crc.lean: the checksum generator. The CRC-32 bit by bit (spec 40_codec.md R60), its table form
(R61), the frame checksum (30_encoding.md R47) and the truncated single-packet checksum (43_single_packet_variant.md
R118). The spec takes the parameters from general knowledge (93_implementation_defined.md G1; log entry 1). -/

namespace Sys2Proof.Machine

/-- One turn of the inner loop of R60. -/
def crcStep (c : Word) : Word := if c.getLsbD 0 then (c >>> 1) ^^^ crcPoly else c >>> 1

/-- `repeat n times` the inner loop of R60. -/
def crcSteps : Nat → Word → Word
  | 0, c => c
  | n + 1, c => crcSteps n (crcStep c)

/-- One byte enters the register (R60): "into the low 8 bits", then eight turns. -/
def crcByte (c : Word) (b : Byte) : Word := crcSteps 8 (c ^^^ b.setWidth 32)

/-- The register after the bytes of `B` in offset order, from the register `c`. -/
def crcFold (c : Word) (B : Bytes) : Word := B.foldl crcByte c

/-- `CRC32(B)` (R60). -/
def crc32 (B : Bytes) : Word := crcFold crcInit B ^^^ crcFinal

/-- `TAB[k]` (R61): the inner 8-step loop on the word `k`. -/
def crcTab (k : Byte) : Word := crcSteps 8 (k.setWidth 32)

/-- The byte-at-a-time step of R61: `TAB[(c xor b) and 0xFF] xor (c >> 8)`. -/
def crcTabByte (c : Word) (b : Byte) : Word := crcTab ((c ^^^ b.setWidth 32).setWidth 8) ^^^ (c >>> 8)

/-- `CRC32(B)` in the table form of R61. -/
def crc32Tab (B : Bytes) : Word := B.foldl crcTabByte crcInit ^^^ crcFinal

/-- A frame with its four checksum bytes taken as zero: `D[0..10) || zeros(4) || D[14..)` (R47, R68). -/
def zeroedChecksum (D : Bytes) : Bytes := D.take 10 ++ zeros 4 ++ D.drop 14

/-- `checksum(F)` (R47): the CRC-32 of the whole frame with the four checksum bytes taken as zero. -/
def frameChecksum (F : Bytes) : Word := crc32 (zeroedChecksum F)

/-- A single-packet frame with its two checksum bytes taken as zero (R118). -/
def spZeroedChecksum (D : Bytes) : Bytes := D.take 7 ++ zeros 2 ++ D.drop 9

/-- `sp_checksum(F)` (R118): the low 16 bits of the CRC-32. -/
def spChecksum (F : Bytes) : Half := (crc32 (spZeroedChecksum F)).setWidth 16

end Sys2Proof.Machine
end

