-- ==== Sys2Proof/Machine/State.lean ====
section
/-! DEFINITION. Machine/State.lean: the state as plain data. The block's one piece of state is the reassembly buffer
(spec 10_state.md R10 to R14), here `mem`; the parameters of R7 stand beside it in `cfg`; `sender` is the state the
surrounding SEND procedure keeps (R23, R112); `inbox` and `outbox` are the transaction interface of R8: what the host
and the transport have handed over, and what the operations returned. -/

namespace Sys2Proof.Machine

/-- The error kinds of 60_exceptions.md R130. -/
inductive ErrorKind where
  | frameTooShort
  | badMagic
  | badVersion
  | lengthOutOfRange
  | lengthMismatch
  | checksumMismatch
  | payloadTooLarge
  | fileChecksumMismatch
  | timeout
  | bufferFull
  /-- The rejection of a non-zero reserved byte when `SP_RESERVED_CHECK` is set: "an error of the document's class
  `MalformedFrame`; this spec gives that error no name of its own" (R123), so the name is the model's (log entry 9). -/
  | reservedNotZero
  deriving DecidableEq, Repr

/-- The document's taxonomy (R132). -/
inductive ErrorClass where
  | malformedFrame
  | checksumMismatch
  | payloadTooLarge
  | timeout
  deriving DecidableEq, Repr

/-- What DECODE returns (R68): the raw type code, the sequence number, the payload and the form. -/
structure DecodedFrame where
  ty : Byte
  seq : Word
  payload : Bytes
  form : Form
  deriving DecidableEq, Repr

/-- The outcomes of RECV (R88). -/
inductive RecvOutcome where
  | discarded (kind : ErrorKind)
  | ignored (ty : Byte)
  | stored (seq : Word)
  | completed (payload : Bytes)
  | failed
  deriving DecidableEq, Repr

/-- The outcomes of SP_SERVE (R122). -/
inductive ServeOutcome where
  | rejected (kind : ErrorKind)
  | accepted (ty : Byte) (payload : Bytes)
  deriving DecidableEq, Repr

/-- How one wait of the sender ended without expiring (R104, R105, R113). The name `badReply`, for a reply that is not a
well-formed ACK, is the model's (log entry 28). -/
inductive WaitEnd where
  | acknowledged
  | mismatchedAck (got : Word)
  | badReply
  deriving DecidableEq, Repr

/-- What an operation returns: `Ok(value)`, `Err(Kind)` or a bare value (00_scope.md section 5, R17), the outcomes of
RECV and SP_SERVE, and what the sender's procedure answers to the host (R103 to R106). -/
inductive Result where
  | word (v : Word)
  | bytes (b : Bytes)
  | ok
  | okBytes (b : Bytes)
  | okFrame (f : DecodedFrame)
  | okSpFrame (ty : Byte) (payload : Bytes)
  | err (kind : ErrorKind)
  | received (o : RecvOutcome)
  | served (o : ServeOutcome)
  | transmitted (index : Nat)
  | waitEnded (e : WaitEnd)
  | sendStarted
  deriving DecidableEq, Repr

/-- The reported events: the three of R139, and the sender's log lines (R104 to R106), which are the host's. -/
inductive Report where
  | frameDiscarded (kind : ErrorKind)
  | fileChecksumFailure
  | transferVerified
  | ackTimeout (index : Nat)
  | ackMismatch (index : Nat) (got : Word)
  | transferDone (fc : Word)
  deriving DecidableEq, Repr

/-- The output actions of R8 and R9. -/
inductive Action where
  | transmit (peer : Peer) (datagram : Bytes)
  | sink (payload : Bytes)
  | report (event : Report)
  deriving DecidableEq, Repr

/-- One finished operation: its result, and its actions in order (R8, R94). -/
structure Response where
  result : Result
  actions : List Action
  deriving DecidableEq, Repr

/-- A reassembly buffer: a finite partial map from sequence numbers to chunk payloads (R11), as a list of key and value
pairs in one canonical form, keys strictly rising (`Memory.wf`, Machine/Ops.lean). An unlisted key is absent; a listed
empty payload is a present entry. -/
abbrev Buffer := List (Nat × Bytes)

/-- The reassembly state of R14 under both settings of `PEER_KEYED` (log entry 7). -/
structure Memory where
  /-- `RB`: the one shared buffer (`PEER_KEYED = false`). -/
  rb : Buffer
  /-- `RB[peer]`: one buffer per peer (`PEER_KEYED = true`), keyed by the peer's name; an unlisted peer's buffer is
  empty, and no empty buffer is listed. -/
  rbs : List (Nat × Buffer)
  deriving DecidableEq, Repr

/-- A transfer in the sender's hands: the ordered chunk list, the whole-payload checksum and the destination (R23,
R100, R103). -/
structure Transfer where
  chunks : List Bytes
  fc : Word
  dest : Peer
  deriving DecidableEq, Repr

/-- The sender's phases (R112): `Sending(i)` and `AwaitingAck(i)` with the transfer they belong to. -/
inductive Sender where
  | idle
  | sending (t : Transfer) (i : Nat)
  | awaitingAck (t : Transfer) (i : Nat)
  | done (fc : Word)
  deriving DecidableEq, Repr

/-- What the outside world hands to the machine, one at a time (R8, R34): a transaction to decode and perform, the reset
event of R151, and the inputs of the surrounding sender procedure (R103). Their order, and for the sender the loss of a
reply and the expiry of a wait, are free inputs (R24, R39). -/
inductive Event where
  | transaction (t : Transaction)
  /-- "Reset is an event between operations" (R151). -/
  | reset
  /-- The host starts SEND (R103). -/
  | send (payload : Bytes) (dest : Peer)
  /-- The sender performs its next transmission, from `Sending(i)` (R112). -/
  | sendNext
  /-- A reply datagram ends, or does not end, the sender's wait (R105, R113). -/
  | reply (d : Bytes)
  /-- The sender's bounded wait expires (R104). -/
  | waitExpired
  deriving DecidableEq, Repr

/-- The machine's state. -/
structure State where
  /-- The parameters of R7, fixed when the block is built; no step changes them. -/
  cfg : Cfg
  /-- The reassembly buffer or buffers: the block's one piece of state (R10, R14). -/
  mem : Memory
  /-- The surrounding sender procedure (R23, R112); not state of the block. -/
  sender : Sender
  /-- What the outside world has handed over and the machine has not yet taken, oldest first (R8, R34, R39; log
  entry 8). -/
  inbox : List Event
  /-- What the operations so far returned, oldest first (R8). -/
  outbox : List Response
  deriving DecidableEq, Repr

/-- Why the machine stops with a fault. -/
inductive Fault where
  /-- Raised by RB_STORE, RECV and the arrival of a DATA frame when a finite `RB_CAPACITY` is exhausted by a new key:
  "A model treats it as a fault" (R81, R149). Safe: no claim about later behaviour follows. -/
  | bufferFull
  /-- Raised by the sender procedure when ENCODE fails on a chunk: "treat as an internal invariant violation, fatal"
  (R107). Safe; no state that meets the model's invariant reaches it. -/
  | senderEncodeFailed
  deriving DecidableEq, Repr

/-- Why the machine gives a request no meaning. -/
inductive Refusal where
  /-- An instruction the model gives no meaning yet, by its mnemonic. Raised by no arm of this model. Safe. -/
  | notModelled (mnemonic : String)
  /-- Raised by the step on a command that names no operation or whose operands cannot be read (R56, U9). Safe. -/
  | undecodable (e : DecodeError)
  /-- Raised by ENCODE and SP_ENCODE on a type code outside 0 to 2: "a model refuses it" (R66). Safe. -/
  | unassignedType
  /-- Raised by RB_STORE on a payload over 1000 bytes: "outside the operation's domain [...] a model refuses it"
  (R80). Safe. -/
  | payloadOutsideDomain
  /-- Raised by SEND on a payload of more than 2^32 chunks: "a model refuses a longer payload" (R110). Safe. -/
  | transferTooLong
  /-- Raised by SEND while a transfer is in progress: transfers from one sender are sequential (R114; log entry 12).
  Safe. -/
  | senderBusy
  deriving DecidableEq, Repr

/-- Right after reset: every buffer empty (R12, R150), the sender idle, nothing handed over and nothing returned, under
the parameters `cfg`. -/
def State.resetWith (cfg : Cfg) : State where
  cfg := cfg
  mem := ⟨[], []⟩
  sender := .idle
  inbox := []
  outbox := []

/-- Right after reset, with the spec's default parameters (R7, R150). -/
def State.reset : State := State.resetWith Cfg.default

end Sys2Proof.Machine
end

