-- ==== Sys2Proof/Machine/Ops.lean ====
section
/-! DEFINITION. Machine/Ops.lean: the shared operations on the state. First the keyed stores in their canonical form
(spec 10_state.md R11, R14), then a peer's buffer under either setting of `PEER_KEYED` (41_reassembly.md R95), then how
an operation ends: with a result and its actions (00_scope.md R8), or with an error result, which is this block's whole
notion of an exception (60_exceptions.md R134: no cause register, no mode, no vector, no handler, and nothing to
return from, R135). -/

namespace Sys2Proof.Machine

/-- The value listed under key `k`, or absent. -/
def assocGet {α : Type} (k : Nat) : List (Nat × α) → Option α
  | [] => none
  | (k', v) :: rest => if k = k' then some v else assocGet k rest

/-- Write `v` at key `k`: creates the entry or replaces the one already there, keeping the keys rising. -/
def assocPut {α : Type} (k : Nat) (v : α) : List (Nat × α) → List (Nat × α)
  | [] => [(k, v)]
  | (k', v') :: rest =>
    if k < k' then (k, v) :: (k', v') :: rest
    else if k = k' then (k, v) :: rest
    else (k', v') :: assocPut k v rest

/-- Remove the entry at key `k`. -/
def assocErase {α : Type} (k : Nat) : List (Nat × α) → List (Nat × α)
  | [] => []
  | (k', v') :: rest => if k = k' then rest else (k', v') :: assocErase k rest

/-- Every key of the list is at least `lo` and the keys rise strictly. -/
def assocRising {α : Type} (lo : Nat) : List (Nat × α) → Bool
  | [] => true
  | (k, _) :: rest => decide (lo ≤ k) && assocRising (k + 1) rest

/-- A canonical buffer: keys strictly rising and below 2^32, every payload at most 1000 bytes (R11). -/
def bufferWf (b : Buffer) : Bool :=
  assocRising 0 b && b.all fun e => decide (e.1 < 2 ^ 32) && decide (e.2.length ≤ maxPayload)

/-- The canonical form of the whole store: the shared buffer canonical, the peers' names rising, and every listed buffer
canonical and not empty (an unlisted peer's buffer is empty, R14). -/
def Memory.wf (m : Memory) : Bool :=
  bufferWf m.rb && assocRising 0 m.rbs && m.rbs.all fun e => bufferWf e.2 && !e.2.isEmpty

/-- Every buffer empty: the reset value (R12, R150). -/
def emptyMemory : Memory := ⟨[], []⟩

/-- The buffer of a peer in the per-peer arrangement; every peer has one (R14). -/
def peerBuffer (rbs : List (Nat × Buffer)) (p : Peer) : Buffer := (assocGet p.id rbs).getD []

/-- Replace a peer's buffer, listing it only when it is not empty. -/
def setPeerBuffer (rbs : List (Nat × Buffer)) (p : Peer) (b : Buffer) : List (Nat × Buffer) :=
  if b.isEmpty then assocErase p.id rbs else assocPut p.id b rbs

/-- `RB` as an operation that concerns peer `p` sees it: `RB` itself, or `RB[p]` with `PEER_KEYED = true` (R95). -/
def State.buffer (s : State) (p : Peer) : Buffer :=
  if s.cfg.peerKeyed then peerBuffer s.mem.rbs p else s.mem.rb

/-- `RB <- b`, or `RB[p] <- b` with `PEER_KEYED = true` (R95). -/
def State.setBuffer (s : State) (p : Peer) (b : Buffer) : State :=
  if s.cfg.peerKeyed then { s with mem := { s.mem with rbs := setPeerBuffer s.mem.rbs p b } }
  else { s with mem := { s.mem with rb := b } }

/-- The entry of the buffer at sequence number `seq`, `RB[seq]` (R11). -/
def State.entry (s : State) (p : Peer) (seq : Word) : Option Bytes := assocGet seq.toNat (s.buffer p)

/-- Whether a store of `seq` needs room a bounded buffer does not have: a key that is absent while the buffer holds
`RB_CAPACITY` entries (R81; log entry 18). -/
def State.storeOverflows (s : State) (p : Peer) (seq : Word) : Bool :=
  match s.cfg.rbCapacity with
  | none => false
  | some c => decide (c ≤ (s.buffer p).length) && (s.entry p seq).isNone

/-- `RB[seq] <- payload` (R80): one entry is created or replaced, every other entry stays. -/
def State.putChunk (s : State) (p : Peer) (seq : Word) (payload : Bytes) : State :=
  s.setBuffer p (assocPut seq.toNat payload (s.buffer p))

/-- All present entries of a buffer concatenated in ascending key order (R82). -/
def concatBuffer (b : Buffer) : Bytes := b.flatMap fun e => e.2

/-- `RB <- empty` (R83). -/
def State.clearBuffer (s : State) (p : Peer) : State := s.setBuffer p []

/-- The reset event: "its effect equals RB_CLEAR on every buffer"; nothing is handed to the sink and nothing is reported
(R151). -/
def State.resetBuffers (s : State) : State := { s with mem := emptyMemory }

/-- An operation ends with a result and its output actions (R8). -/
def State.respond (s : State) (r : Result) (actions : List Action) : State :=
  { s with outbox := s.outbox ++ [⟨r, actions⟩] }

/-- `raise <Kind>`: the operation ends with the error result, "and nothing the operation would have written after that
point is written"; control returns to the host (00_scope.md section 5, R134). -/
def State.raise (s : State) (k : ErrorKind) : State := s.respond (.err k) []

/-- An operation ends with `Ok(value)` or `Err(Kind)` (00_scope.md section 5, Results). -/
def State.answer {α : Type} (s : State) (r : Except ErrorKind α) (ok : α → Result) : State :=
  match r with
  | .ok a => s.respond (ok a) []
  | .error k => s.raise k

/-- What an operation of the machine answers. -/
abbrev Answer := Host.Outcome State Fault Refusal

end Sys2Proof.Machine
end

