-- ==== Sys2Proof/Machine/Codec.lean ====
section
/-! DEFINITION. Machine/Codec.lean: the codec operations CRC32, ENCODE and DECODE (spec 40_codec.md). All three are pure:
they read and write no state of the block (R10). -/

namespace Sys2Proof.Machine

/-- The frame ENCODE builds (R64): the header with a zero checksum field, the CRC over `header || payload`, the header
rewritten with it, then the payload. -/
def buildFrame (seq : Word) (payload : Bytes) (ty : Byte) (fc : Option Word) : Bytes :=
  let h := header ty seq payload.length 0#32 (formOf fc)
  let c := crc32 (h ++ payload)
  memWrite h 10 4 c.toNat ++ payload

/-- `ENCODE(seq, payload, type, fc)` (R64, R65): the size is tested before anything is built. -/
def encodeFrame (seq : Word) (payload : Bytes) (ty : Byte) (fc : Option Word) : Except ErrorKind Bytes :=
  if payload.length > maxPayload then .error .payloadTooLarge
  else .ok (buildFrame seq payload ty fc)

/-- `DECODE(D)` (R68): the checks in the spec's order (log entry 14), the first that fails ending the operation. -/
def decodeFrame (D : Bytes) : Except ErrorKind DecodedFrame :=
  if D.length < minFrame then .error .frameTooShort
  else if memRead D 0 2 ≠ magic.toNat then .error .badMagic
  else if memRead D 2 1 ≠ version.toNat then .error .badVersion
  else if memRead D 8 2 > maxPayload then .error .lengthOutOfRange
  else match formAt D (memRead D 8 2) with
    | none => .error .lengthMismatch
    | some (form, payload) =>
      if frameChecksum D ≠ read32 D 10 then .error .checksumMismatch
      else .ok ⟨read8 D 3, read32 D 4, payload, form⟩

/-- The well-formedness predicate of R49, clause for clause. -/
def wellformed (D : Bytes) : Bool :=
  decide (minFrame ≤ D.length) && memRead D 0 2 == magic.toNat && memRead D 2 1 == version.toNat &&
    decide (memRead D 8 2 ≤ maxPayload) &&
    (D.length == hdrNormal + memRead D 8 2 || D.length == hdrTerminal + memRead D 8 2) &&
    frameChecksum D == read32 D 10

/-- The acknowledgement frame: `ENCODE(seq, "", ACK, absent)` (R92; log entry 13), whose payload is never too large. -/
def ackFrame (seq : Word) : Bytes := buildFrame seq [] typeAck none

/-- CRC32 (R63). -/
def execCrc32 (b : Bytes) (s : State) : Answer := .next (s.respond (.word (crc32 b)) [])

/-- ENCODE (R64 to R67). A type code outside the three assigned ones is outside the operation's domain and refused
(R66). -/
def execEncode (seq : Word) (ty : Byte) (fc : Option Word) (payload : Bytes) (s : State) : Answer :=
  if assignedType ty then .next (s.answer (encodeFrame seq payload ty fc) .okBytes)
  else .refused .unassignedType

/-- DECODE (R68 to R75). -/
def execDecode (d : Bytes) (s : State) : Answer := .next (s.answer (decodeFrame d) .okFrame)

end Sys2Proof.Machine
end

