-- ==== Sys2Proof/Machine/Reassembly.lean ====
section
/-! DEFINITION. Machine/Reassembly.lean: the reassembly buffer operations and the receive datapath (spec
41_reassembly.md). Every operation works on the buffer of the peer it concerns, which is the one shared buffer when
`PEER_KEYED = false` (R95). -/

namespace Sys2Proof.Machine

/-- `RB_FINALIZE(fc)` (R84): the concatenation, its checksum compared with `fc`, and in both outcomes the buffer
cleared. -/
def finalize (s : State) (p : Peer) (fc : Word) : State × Except ErrorKind Bytes :=
  let out := concatBuffer (s.buffer p)
  (s.clearBuffer p, if crc32 out = fc then .ok out else .error .fileChecksumMismatch)

/-- RB_STORE (R80, R81, R149). -/
def execRbStore (peer : Peer) (seq : Word) (payload : Bytes) (s : State) : Answer :=
  if payload.length > maxPayload then .refused .payloadOutsideDomain
  else if s.storeOverflows peer seq then .fault .bufferFull
  else .next ((s.putChunk peer seq payload).respond .ok [])

/-- RB_CONCAT (R82). -/
def execRbConcat (peer : Peer) (s : State) : Answer := .next (s.respond (.bytes (concatBuffer (s.buffer peer))) [])

/-- RB_CLEAR (R83). -/
def execRbClear (peer : Peer) (s : State) : Answer := .next ((s.clearBuffer peer).respond .ok [])

/-- RB_FINALIZE (R84 to R86): `Ok(out)` or the error `FileChecksumMismatch`, which carries no payload. -/
def execRbFinalize (peer : Peer) (fc : Word) (s : State) : Answer :=
  let (s', v) := finalize s peer fc
  .next (s'.answer v .okBytes)

/-- The end of RECV for a terminal DATA frame (R93, R94): finalize; on a match the payload goes to the sink. -/
def recvTerminal (src : Peer) (fc : Word) (ack : Action) (s : State) : State :=
  match finalize s src fc with
  | (s', .ok out) => s'.respond (.received (.completed out)) [ack, .sink out, .report .transferVerified]
  | (s', .error _) => s'.respond (.received .failed) [ack, .report .fileChecksumFailure]

/-- RECV of a valid DATA frame (R91 to R93): store, acknowledge, and for a terminal frame finalize. -/
def recvData (src : Peer) (f : DecodedFrame) (s : State) : Answer :=
  if s.storeOverflows src f.seq then .fault .bufferFull
  else
    let stored := s.putChunk src f.seq f.payload
    let ack := Action.transmit src (ackFrame f.seq)
    match f.form with
    | .normal => .next (stored.respond (.received (.stored f.seq)) [ack])
    | .terminal fc => .next (recvTerminal src fc ack stored)

/-- `RECV(D, src)` (R88): decode; a failure is discarded and reported, with no reply (R89); a frame that is not DATA is
ignored (R90; log entry 15). -/
def receive (src : Peer) (d : Bytes) (s : State) : Answer :=
  match decodeFrame d with
  | .error kind => .next (s.respond (.received (.discarded kind)) [.report (.frameDiscarded kind)])
  | .ok f => if f.ty = typeData then recvData src f s else .next (s.respond (.received (.ignored f.ty)) [])

/-- RECV (R88 to R95). -/
def execRecv (src : Peer) (d : Bytes) (s : State) : Answer := receive src d s

end Sys2Proof.Machine
end

