-- ==== Sys2Proof/Machine/SinglePacket.lean ====
section
/-! DEFINITION. Machine/SinglePacket.lean: the operations of the secondary single-packet configuration (spec
43_single_packet_variant.md). They read and write no state of the block (R115). -/

namespace Sys2Proof.Machine

/-- The frame SP_ENCODE builds (R119): the reserved byte is written as zero (R123). -/
def spBuildFrame (payload : Bytes) (ty : Byte) : Bytes :=
  let h := spHeader ty 0#8 payload.length 0#16
  let c : Half := (crc32 (h ++ payload)).setWidth 16
  memWrite h 7 2 c.toNat ++ payload

/-- `SP_ENCODE(payload, type)` (R119). -/
def spEncodeFrame (payload : Bytes) (ty : Byte) : Except ErrorKind Bytes :=
  if payload.length > spMaxPayload then .error .payloadTooLarge
  else .ok (spBuildFrame payload ty)

/-- `SP_DECODE(D)` (R120), the checks in the order of the chunked DECODE; with `SP_RESERVED_CHECK` set a non-zero
reserved byte is rejected "after the version test and before the length tests" (R123). -/
def spDecodeFrame (reservedCheck : Bool) (D : Bytes) : Except ErrorKind (Byte × Bytes) :=
  if D.length < spHdr then .error .frameTooShort
  else if memRead D 0 2 ≠ magic.toNat then .error .badMagic
  else if memRead D 2 1 ≠ version.toNat then .error .badVersion
  else if reservedCheck && read8 D 4 != 0#8 then .error .reservedNotZero
  else if memRead D 5 2 > spMaxPayload then .error .lengthOutOfRange
  else if D.length ≠ spHdr + memRead D 5 2 then .error .lengthMismatch
  else if spChecksum D ≠ read16 D 7 then .error .checksumMismatch
  else .ok (read8 D 3, D.drop spHdr)

/-- The reply to a malformed frame: `SP_ENCODE("", ERROR)` (R122). -/
def spErrorFrame : Bytes := spBuildFrame [] typeError

/-- `SP_SERVE(D, src)` (R122): a malformed frame is reported and answered with an ERROR frame; an accepted one is handed
to the host, and what the service then replies is in no source (log entry 10). -/
def serve (src : Peer) (d : Bytes) (s : State) : State :=
  match spDecodeFrame s.cfg.spReservedCheck d with
  | .error kind =>
    s.respond (.served (.rejected kind)) [.report (.frameDiscarded kind), .transmit src spErrorFrame]
  | .ok (ty, payload) => s.respond (.served (.accepted ty payload)) []

/-- SP_ENCODE (R119); a type code outside the three assigned ones is refused as for ENCODE (R66; log entry 21). -/
def execSpEncode (ty : Byte) (payload : Bytes) (s : State) : Answer :=
  if assignedType ty then .next (s.answer (spEncodeFrame payload ty) .okBytes)
  else .refused .unassignedType

/-- SP_DECODE (R120, R121, R123). -/
def execSpDecode (d : Bytes) (s : State) : Answer :=
  .next (s.answer (spDecodeFrame s.cfg.spReservedCheck d) fun f => .okSpFrame f.1 f.2)

/-- SP_SERVE (R122). -/
def execSpServe (src : Peer) (d : Bytes) (s : State) : Answer := .next (serve src d s)

end Sys2Proof.Machine
end

