-- ==== Sys2Proof/Machine/Frames.lean ====
section
/-! DEFINITION. Machine/Frames.lean: the arrival of a frame of each kind of spec/opcode_table.json. The receive loop
performs RECV on every datagram it takes (spec 42_transfer_procedures.md R111), and the single-packet service performs
SP_SERVE (43_single_packet_variant.md R122); a frame kind's meaning lays the frame out from its fields and does that.
Whether its checksum field is right is for DECODE to find (40_codec.md R73). -/

namespace Sys2Proof.Machine

/-- A DATA frame in the normal form arrives (R91). -/
def execFrameData (src : Peer) (seq checksum : Word) (payload : Bytes) (s : State) : Answer :=
  receive src (layFrame typeData seq checksum .normal payload) s

/-- A DATA frame in the terminal form arrives (R93). -/
def execFrameDataTerminal (src : Peer) (seq checksum fc : Word) (payload : Bytes) (s : State) : Answer :=
  receive src (layFrame typeData seq checksum (.terminal fc) payload) s

/-- An ACK frame arrives: a valid one is ignored (R90). -/
def execFrameAck (src : Peer) (seq checksum : Word) (form : Form) (payload : Bytes) (s : State) : Answer :=
  receive src (layFrame typeAck seq checksum form payload) s

/-- An ERROR frame arrives: a valid one is ignored (R90). -/
def execFrameError (src : Peer) (seq checksum : Word) (form : Form) (payload : Bytes) (s : State) : Answer :=
  receive src (layFrame typeError seq checksum form payload) s

/-- A frame with an unassigned type code arrives: a valid one is ignored (R53, R90). -/
def execFrameUnassigned (src : Peer) (ty : Byte) (seq checksum : Word) (form : Form) (payload : Bytes) (s : State) :
    Answer :=
  receive src (layFrame ty seq checksum form payload) s

/-- A single-packet DATA frame arrives (R117, R122). -/
def execSpFrameData (src : Peer) (reserved : Byte) (checksum : Half) (payload : Bytes) (s : State) : Answer :=
  .next (serve src (laySpFrame typeData reserved checksum payload) s)

/-- A single-packet ACK frame arrives (R117, R122). -/
def execSpFrameAck (src : Peer) (reserved : Byte) (checksum : Half) (payload : Bytes) (s : State) : Answer :=
  .next (serve src (laySpFrame typeAck reserved checksum payload) s)

/-- A single-packet ERROR frame arrives (R117, R122). -/
def execSpFrameError (src : Peer) (reserved : Byte) (checksum : Half) (payload : Bytes) (s : State) : Answer :=
  .next (serve src (laySpFrame typeError reserved checksum payload) s)

end Sys2Proof.Machine
end

