-- ==== Sys2Proof/Machine/Dispatch.lean ====
section
/-! DEFINITION. Machine/Dispatch.lean: one arm per constructor of Instr, each one direct call of its meaning. -/

namespace Sys2Proof.Machine

-- The arms stand in the order of spec/opcode_table.json.
def exec (i : Instr) (s : State) : Host.Outcome State Fault Refusal :=
  match i with
  | .crc32 b => Sys2Proof.Machine.execCrc32 b s
  | .encode seq ty fc payload => Sys2Proof.Machine.execEncode seq ty fc payload s
  | .decode d => Sys2Proof.Machine.execDecode d s
  | .rbStore peer seq payload => Sys2Proof.Machine.execRbStore peer seq payload s
  | .rbConcat peer => Sys2Proof.Machine.execRbConcat peer s
  | .rbClear peer => Sys2Proof.Machine.execRbClear peer s
  | .rbFinalize peer fc => Sys2Proof.Machine.execRbFinalize peer fc s
  | .recv src d => Sys2Proof.Machine.execRecv src d s
  | .spEncode ty payload => Sys2Proof.Machine.execSpEncode ty payload s
  | .spDecode d => Sys2Proof.Machine.execSpDecode d s
  | .spServe src d => Sys2Proof.Machine.execSpServe src d s
  | .frameData src seq ck payload => Sys2Proof.Machine.execFrameData src seq ck payload s
  | .frameDataTerminal src seq ck fc payload => Sys2Proof.Machine.execFrameDataTerminal src seq ck fc payload s
  | .frameAck src seq ck form payload => Sys2Proof.Machine.execFrameAck src seq ck form payload s
  | .frameError src seq ck form payload => Sys2Proof.Machine.execFrameError src seq ck form payload s
  | .frameUnassigned src ty seq ck form payload => Sys2Proof.Machine.execFrameUnassigned src ty seq ck form payload s
  | .spFrameData src reserved ck payload => Sys2Proof.Machine.execSpFrameData src reserved ck payload s
  | .spFrameAck src reserved ck payload => Sys2Proof.Machine.execSpFrameAck src reserved ck payload s
  | .spFrameError src reserved ck payload => Sys2Proof.Machine.execSpFrameError src reserved ck payload s

end Sys2Proof.Machine
end

