-- ==== Sys2Proof/Machine/Sender.lean ====
section
/-! DEFINITION. Machine/Sender.lean: the surrounding sender procedure SEND (spec 42_transfer_procedures.md R100 to R110,
R112, R113). It is the block's host, not the block (00_scope.md R4); it is modelled because the block's end-to-end
behaviour is stated over the frames it transmits. The model has no clock: the expiry of a wait and the arrival of a
reply are free inputs (R104, decision D18). -/

namespace Sys2Proof.Machine

/-- The number of chunks of a payload of `n ≥ 1` bytes: `ceil(n / 1000)` (R100). -/
def chunkCount (n : Nat) : Nat := (n + (maxPayload - 1)) / maxPayload

/-- Chunk `i` of a payload: `W[1000*i .. min(1000*(i+1), N))` (R100). -/
def chunkAt (W : Bytes) (i : Nat) : Bytes := (W.drop (maxPayload * i)).take maxPayload

/-- The chunks of a payload in order (R100); the empty payload has none, or one empty chunk (R109). -/
def chunksOf (cfg : Cfg) (W : Bytes) : List Bytes :=
  if W.isEmpty && cfg.emptyPayloadOneChunk then [[]]
  else (List.range (chunkCount W.length)).map (chunkAt W)

/-- The transfer of a payload to a destination: its chunks, and "CRC32 of the full payload" (R100, R102). -/
def transferOf (cfg : Cfg) (W : Bytes) (dest : Peer) : Transfer := ⟨chunksOf cfg W, crc32 W, dest⟩

/-- The `fc` operand of chunk `i`: present on the last chunk only (R102). -/
def Transfer.fcOperand (t : Transfer) (i : Nat) : Option Word := if i + 1 = t.chunks.length then some t.fc else none

/-- The encoding of chunk `i`: sequence number `i`, type DATA (R101, R102). -/
def Transfer.frame (t : Transfer) (i : Nat) : Except ErrorKind Bytes :=
  encodeFrame (BitVec.ofNat 32 i) (t.chunks.getD i []) typeData (t.fcOperand i)

/-- The phase after the wait for chunk `i`: the next chunk, or `Done` after the last (R112). -/
def Transfer.afterWait (t : Transfer) (i : Nat) : Sender :=
  if i + 1 < t.chunks.length then .sending t (i + 1) else .done t.fc

/-- "The sender reports completion along with the whole-payload checksum" when the phase it enters is `Done` (R106). -/
def completionReport : Sender → List Action
  | .done fc => [.report (.transferDone fc)]
  | .idle => []
  | .sending _ _ => []
  | .awaitingAck _ _ => []

/-- The wait for chunk `i` ends: whatever ended it, the sender proceeds (R104 to R106, R112). -/
def State.endWait (s : State) (t : Transfer) (i : Nat) (r : Result) (log : List Action) : State :=
  let next := t.afterWait i
  { s with sender := next }.respond r (log ++ completionReport next)

/-- SEND begins (R103). A transfer of no chunks is done at once (R109). -/
def startSend (W : Bytes) (dest : Peer) (s : State) : Answer :=
  let t := transferOf s.cfg W dest
  let first : Sender := if t.chunks.isEmpty then .done t.fc else .sending t 0
  let started : Answer :=
    if maxChunks < t.chunks.length then .refused .transferTooLong
    else .next ({ s with sender := first }.respond .sendStarted (completionReport first))
  match s.sender with
  | .idle => started
  | .done _ => started
  | .sending _ _ => .refused .senderBusy
  | .awaitingAck _ _ => .refused .senderBusy

/-- `Sending(i)`: encode chunk `i` and transmit it; an encode failure is fatal (R103, R107). In any other phase there is
nothing to transmit and the event has no effect. -/
def sendNext (s : State) : Answer :=
  match s.sender with
  | .sending t i =>
    match t.frame i with
    | .ok f => .next ({ s with sender := .awaitingAck t i }.respond (.transmitted i) [.transmit t.dest f])
    | .error _ => .fault .senderEncodeFailed
  | .idle => .next s
  | .awaitingAck _ _ => .next s
  | .done _ => .next s

/-- The wait expires: "logs the loss and proceeds to the next chunk without retransmission" (R104). Outside a wait the
event has no effect. -/
def waitExpired (s : State) : State :=
  match s.sender with
  | .awaitingAck t i => s.endWait t i (.err .timeout) [.report (.ackTimeout i)]
  | .idle => s
  | .sending _ _ => s
  | .done _ => s

/-- A reply that is not a well-formed ACK reaches the wait for chunk `i` (R113). DESIGN CHOICE (log entry 28): R113 does
not say whether such a reply is logged; the model reports nothing of it under either setting of `TX_BAD_REPLY`, answers
`badReply` when it ends the wait, and returns no response when the sender keeps waiting. -/
def badReply (s : State) (t : Transfer) (i : Nat) : State :=
  match s.cfg.badReply with
  | .proceed => s.endWait t i (.waitEnded .badReply) []
  | .keepWaitingUntilTimeout => s

/-- A reply datagram reaches the sender (R105): an ACK ends the wait whether or not its sequence number is the expected
one, a mismatch being logged. Outside a wait nobody reads it (log entry 12). -/
def replyArrives (d : Bytes) (s : State) : State :=
  match s.sender with
  | .awaitingAck t i =>
    match decodeFrame d with
    | .ok f =>
      if f.ty ≠ typeAck then badReply s t i
      else if f.seq = BitVec.ofNat 32 i then s.endWait t i (.waitEnded .acknowledged) []
      else s.endWait t i (.waitEnded (.mismatchedAck f.seq)) [.report (.ackMismatch i f.seq)]
    | .error _ => badReply s t i
  | .idle => s
  | .sending _ _ => s
  | .done _ => s

end Sys2Proof.Machine
end

