-- ==== Sys2Proof/Machine/Events.lean ====
section
/-! DEFINITION. Machine/Events.lean: how an event of the inbox is performed: a transaction is decoded and its
instruction executed (spec 00_scope.md R8; the receive loop of 42_transfer_procedures.md R111 for a datagram), and the
reset event empties every buffer (70_reset_and_hazards.md R151). -/

namespace Sys2Proof.Machine

/-- A transaction is decoded in the block's configuration and its instruction performed; a command that names no
operation is refused (R56, U9). Which operation a datagram starts is `VARIANT`'s choice (log entry 20). -/
def performTransaction (t : Transaction) (s : State) : Answer :=
  match decode s.cfg.variant t with
  | .ok i => exec i s
  | .error e => .refused (.undecodable e)

/-- The reset event (R151; log entry 17). -/
def performReset (s : State) : Answer := .next s.resetBuffers

end Sys2Proof.Machine
end

