-- ==== Sys2Proof/Machine/Step.lean ====
section
/-! DEFINITION. Machine/Step.lean: one step takes the oldest event of the inbox and performs it to its end before the
next is looked at (spec 20_memory.md R34). The block is passive (60_exceptions.md R137): with nothing handed over, a
step changes nothing. -/

namespace Sys2Proof.Machine

/-- One step of the machine. -/
def step (s : State) : Host.Outcome State Fault Refusal :=
  match s.inbox with
  | [] => .next s
  | .transaction t :: rest => performTransaction t { s with inbox := rest }
  | .reset :: rest => performReset { s with inbox := rest }
  | .send payload dest :: rest => startSend payload dest { s with inbox := rest }
  | .sendNext :: rest => sendNext { s with inbox := rest }
  | .reply d :: rest => .next (replyArrives d { s with inbox := rest })
  | .waitExpired :: rest => .next (waitExpired { s with inbox := rest })

/-- `s` with the instruction of a word of spec/opcode_table.json as the next event of its inbox, so that the next step
decodes and performs exactly it (log entry 11). -/
def State.withFetchWord (s : State) (nbits w : Nat) : State :=
  { s with inbox := .transaction (tableTransaction nbits w) :: s.inbox }

end Sys2Proof.Machine
end

