-- ==== Sys2Proof/Machine/Flags.lean ====
section
/-! DEFINITION. Machine/Flags.lean: the block has no flags, condition codes or status registers (spec 10_state.md R18,
R19), so no operation computes one. What a host can read off instead is here: the receiver's phase, which is a function
of the buffer and not state (R16, R99), and the code and class of an error kind (60_exceptions.md R130, R132). -/

namespace Sys2Proof.Machine

/-- The receiver's phases between operations (R16). `Verifying` "exists only inside a RECV of a terminal DATA frame or
inside RB_FINALIZE", so no state between operations has it. -/
inductive ReceiverPhase where
  | awaitingFirstChunk
  | accumulating
  deriving DecidableEq, Repr

/-- The phase: `AwaitingFirstChunk` when the buffer has no keys, `Accumulating` otherwise (R16). -/
def receiverPhase (s : State) (p : Peer) : ReceiverPhase :=
  if (s.buffer p).isEmpty then .awaitingFirstChunk else .accumulating

/-- The numeric code of an error kind: "the numeric codes are this spec's and no rule depends on them" (R130). The kind
the spec leaves unnamed has none. -/
def errorCode : ErrorKind → Option Nat
  | .frameTooShort => some 1
  | .badMagic => some 2
  | .badVersion => some 3
  | .lengthOutOfRange => some 4
  | .lengthMismatch => some 5
  | .checksumMismatch => some 6
  | .payloadTooLarge => some 7
  | .fileChecksumMismatch => some 8
  | .timeout => some 9
  | .bufferFull => some 10
  | .reservedNotZero => none

/-- The document's class of an error kind (R130, R132); `BufferFull` is in none. -/
def errorClass : ErrorKind → Option ErrorClass
  | .frameTooShort => some .malformedFrame
  | .badMagic => some .malformedFrame
  | .badVersion => some .malformedFrame
  | .lengthOutOfRange => some .malformedFrame
  | .lengthMismatch => some .malformedFrame
  | .checksumMismatch => some .checksumMismatch
  | .payloadTooLarge => some .payloadTooLarge
  | .fileChecksumMismatch => some .checksumMismatch
  | .timeout => some .timeout
  | .bufferFull => none
  | .reservedNotZero => some .malformedFrame

end Sys2Proof.Machine
end

