-- ==== Sys2Proof/Machine/Pseudo.lean ====
section
/-! DEFINITION. Machine/Pseudo.lean: the pseudo-operations of spec 30_encoding.md R58, each an abbreviation with its
expansion into operations. -/

namespace Sys2Proof.Machine

/-- `ACKFRAME seq` expands to `ENCODE seq type=ACK payload=""`. -/
def pseudoAckFrame (seq : Word) : Instr := .encode seq typeAck none []

/-- `DATAFRAME seq payload` expands to `ENCODE seq type=DATA payload`. -/
def pseudoDataFrame (seq : Word) (payload : Bytes) : Instr := .encode seq typeData none payload

/-- `LASTFRAME seq payload whole` expands to `ENCODE seq type=DATA fc=CRC32(whole) payload`. -/
def pseudoLastFrame (seq : Word) (payload whole : Bytes) : Instr := .encode seq typeData (some (crc32 whole)) payload

/-- `SEND payload` expands to one DATAFRAME or LASTFRAME per chunk (R103). -/
def pseudoSend (cfg : Cfg) (W : Bytes) : List Instr :=
  let chunks := chunksOf cfg W
  (List.range chunks.length).map fun i =>
    if i + 1 = chunks.length then pseudoLastFrame (BitVec.ofNat 32 i) (chunks.getD i []) W
    else pseudoDataFrame (BitVec.ofNat 32 i) (chunks.getD i [])

/-- `VERIFY D` is DECODE with its result reduced to whether it succeeded, which is `wellformed(D)` (R49). -/
def pseudoVerify (D : Bytes) : Bool :=
  match decodeFrame D with
  | .ok _ => true
  | .error _ => false

end Sys2Proof.Machine
end

