-- ==== Sys2Proof/Safety.lean ====
section
/-! DEFINITION. Safety.lean: what a safe state and a safe run are. A state is sound when its reassembly buffers are in
canonical form, hold only sequence numbers of 32 bits and payloads of at most 1000 bytes (spec 10_state.md R11), only
the arrangement `PEER_KEYED` selects is in use (R14), no buffer holds more entries than `RB_CAPACITY` (R81), and the
sender's transfer is one that SEND can have made (R100, R107, R110). -/

namespace Sys2Proof.Machine

/-- The chunks of a transfer fit a frame, so ENCODE never fails in SEND (R107), and sequence numbers can number them
(R110). -/
def Transfer.wf (t : Transfer) : Bool :=
  t.chunks.all (fun c => decide (c.length ≤ maxPayload)) && decide (t.chunks.length ≤ maxChunks)

/-- The sender's phase points at a chunk of a well-formed transfer (R112). -/
def Sender.wf : Sender → Bool
  | .idle => true
  | .sending t i => t.wf && decide (i < t.chunks.length)
  | .awaitingAck t i => t.wf && decide (i < t.chunks.length)
  | .done _ => true

/-- A buffer holds no more entries than `RB_CAPACITY` (R81). -/
def withinCapacity (cfg : Cfg) (b : Buffer) : Bool :=
  match cfg.rbCapacity with
  | none => true
  | some c => decide (b.length ≤ c)

/-- The buffers of the arrangement that `PEER_KEYED` does not select are empty (R14). -/
def oneArrangement (s : State) : Bool := if s.cfg.peerKeyed then s.mem.rb.isEmpty else s.mem.rbs.isEmpty

/-- The invariant every step keeps. -/
def State.Inv (s : State) : Prop :=
  s.mem.wf = true ∧ oneArrangement s = true ∧
    (withinCapacity s.cfg s.mem.rb = true ∧ s.mem.rbs.all (fun e => withinCapacity s.cfg e.2) = true) ∧
    s.sender.wf = true

/-- A run is safe when it does not stop with a fault. A refusal is not a fault: the request had no meaning. -/
def safeRun (k : Nat) (s : State) : Bool :=
  match Sys2Proof.core.run k s with
  | .next _ => true
  | .refused _ => true
  | .fault _ => false

/-- A store of `seq` for peer `p` has room: the buffer is unbounded, or the key is present, or fewer than `RB_CAPACITY`
entries are (R81). -/
def HasRoom (s : State) (p : Peer) (seq : Word) : Prop :=
  ∀ c, s.cfg.rbCapacity = some c → (s.entry p seq).isSome = true ∨ (s.buffer p).length < c

/-- The frame of an operation that concerns peer `p`, and its response: the parameters, the sender and the inbox are
unchanged, exactly the response `r` is returned, the buffers of the arrangement not in use are unchanged, and with
`PEER_KEYED = true` so is every other peer's buffer (R8, R95, R134). -/
structure RespondedWith (s t : State) (p : Peer) (r : Response) : Prop where
  cfg : t.cfg = s.cfg
  sender : t.sender = s.sender
  inbox : t.inbox = s.inbox
  outbox : t.outbox = s.outbox ++ [r]
  unselected : if s.cfg.peerKeyed then t.mem.rb = s.mem.rb else t.mem.rbs = s.mem.rbs
  others : s.cfg.peerKeyed = true → ∀ q, q ≠ p → t.buffer q = s.buffer q

/-- The received datagram and its source that an instruction hands to the receiver (R88, R111): RECV's operands, or the
frame laid out from its fields. -/
def receivedDatagram : Instr → Option (Peer × Bytes)
  | .recv src d => some (src, d)
  | .frameData src seq ck payload => some (src, layFrame typeData seq ck .normal payload)
  | .frameDataTerminal src seq ck fc payload => some (src, layFrame typeData seq ck (.terminal fc) payload)
  | .frameAck src seq ck form payload => some (src, layFrame typeAck seq ck form payload)
  | .frameError src seq ck form payload => some (src, layFrame typeError seq ck form payload)
  | .frameUnassigned src ty seq ck form payload => some (src, layFrame ty seq ck form payload)
  | .crc32 .. => none
  | .encode .. => none
  | .decode .. => none
  | .rbStore .. => none
  | .rbConcat .. => none
  | .rbClear .. => none
  | .rbFinalize .. => none
  | .spEncode .. => none
  | .spDecode .. => none
  | .spServe .. => none
  | .spFrameData .. => none
  | .spFrameAck .. => none
  | .spFrameError .. => none

/-- The peer whose buffer an instruction may write with `PEER_KEYED = true` (R95), if it writes any. -/
def concernedPeer : Instr → Option Peer
  | .rbStore peer _ _ => some peer
  | .rbClear peer => some peer
  | .rbFinalize peer _ => some peer
  | .recv src _ => some src
  | .frameData src _ _ _ => some src
  | .frameDataTerminal src _ _ _ _ => some src
  | .frameAck src _ _ _ _ => some src
  | .frameError src _ _ _ _ => some src
  | .frameUnassigned src _ _ _ _ _ => some src
  | .crc32 .. => none
  | .encode .. => none
  | .decode .. => none
  | .rbConcat .. => none
  | .spEncode .. => none
  | .spDecode .. => none
  | .spServe .. => none
  | .spFrameData .. => none
  | .spFrameAck .. => none
  | .spFrameError .. => none

/-- An event that concerns no peer but `p`: the arrivals of one sender (R14, "at most one peer ever sending"). -/
def eventFromOnly (p : Peer) : Event → Bool
  | .transaction (.command peer _) => peer == p
  | .transaction (.datagram src _) => src == p
  | .reset => true
  | .send _ _ => true
  | .sendNext => true
  | .reply _ => true
  | .waitExpired => true

/-- Two machines that a host of the one peer `p` cannot tell apart: the same buffer for `p`, the same returns so far, the
same inputs to come, the same sender. -/
def sameForPeer (p : Peer) (a b : State) : Prop :=
  a.buffer p = b.buffer p ∧ a.outbox = b.outbox ∧ a.inbox = b.inbox ∧ a.sender = b.sender

/-- The same for two runs: both go on in states that `p` cannot tell apart, or both stop for the same reason. -/
def sameAnswerForPeer (p : Peer) : Answer → Answer → Prop
  | .next a, .next b => sameForPeer p a b
  | .fault f, .fault g => f = g
  | .refused f, .refused g => f = g
  | _, _ => False

/-- A byte string with bit `k` flipped, counted from the most significant bit of byte 0 (95_test_vectors.md section
3.4): byte `i` holds bits `8i` to `8i+7`. -/
def flipBit (B : Bytes) (k : Nat) : Bytes := B.modify (k / 8) fun b => b ^^^ (0x80#8 >>> (k % 8))

/-- The datagrams transmitted by a list of responses, in order, with their destinations (R8). -/
def transmissions (rs : List Response) : List (Peer × Bytes) :=
  rs.flatMap fun r => r.actions.filterMap fun
    | .transmit p d => some (p, d)
    | .sink _ => none
    | .report _ => none

/-- The payloads handed to the sink by a list of responses, in order (R9). -/
def sinkDeliveries (rs : List Response) : List Bytes :=
  rs.flatMap fun r => r.actions.filterMap fun
    | .sink payload => some payload
    | .transmit _ _ => none
    | .report _ => none

/-- The whole-payload checksums with which a list of responses reports completed transfers, in order (R106). -/
def completions (rs : List Response) : List Word :=
  rs.flatMap fun r => r.actions.filterMap fun
    | .report (.transferDone fc) => some fc
    | .report (.frameDiscarded _) => none
    | .report .fileChecksumFailure => none
    | .report .transferVerified => none
    | .report (.ackTimeout _) => none
    | .report (.ackMismatch _ _) => none
    | .transmit _ _ => none
    | .sink _ => none

/-- A reply that is a well-formed ACK frame, whatever its sequence number (R105). -/
def isAckReply (d : Bytes) : Bool :=
  match decodeFrame d with
  | .ok f => f.ty == typeAck
  | .error _ => false

/-- An event that ends the sender's wait: the expiry, an ACK, or with `TX_BAD_REPLY = proceed` any other reply (R104,
R105, R113). -/
def endsWait (cfg : Cfg) : Event → Bool
  | .reply d => isAckReply d || cfg.badReply == .proceed
  | .waitExpired => true
  | .transaction _ => false
  | .reset => false
  | .send _ _ => false
  | .sendNext => false

/-- A reply that leaves the sender waiting (R113; that nothing is returned for it is log entry 28). -/
def keepsWaiting (cfg : Cfg) : Event → Bool
  | .reply d => !(isAckReply d || cfg.badReply == .proceed)
  | .waitExpired => false
  | .transaction _ => false
  | .reset => false
  | .send _ _ => false
  | .sendNext => false

end Sys2Proof.Machine
end

