-- ==== Sys2Proof/Certificates/Slice0/Obligations.lean ====
section
/-! DEFINITION. Certificates/Slice0/Obligations.lean: the statements about the model, for the provers. Each docstring
says which rule of the spec it formalises; a docstring that names a log entry says where the statement rests on the
model's own choice. -/

open Sys2Proof Sys2Proof.Machine

/-! ### The checksum generator -/

/-- R63: CRC32 answers `CRC32(B)` for every byte string, touches nothing else, and has the rule's three values. -/
def Obligations.Crc32AnswersChecksum : Prop :=
  (∀ (b : Bytes) (s : State),
    exec (.crc32 b) s = .next { s with outbox := s.outbox ++ [⟨.word (crc32 b), []⟩] }) ∧
  crc32 [] = 0#32 ∧ crc32 [0xFF#8, 0xFF#8, 0xFF#8, 0xFF#8] = 0xFFFFFFFF#32 ∧
  crc32 [0x41#8, 0x42#8, 0x43#8] = 0xA3830348#32

/-- R61: the table form and the bit-by-bit form give the same value for every byte string, and the table has the eleven
entries the rule lists. -/
def Obligations.Crc32TableFormAgrees : Prop :=
  (∀ B : Bytes, crc32Tab B = crc32 B) ∧
  crcTab 0#8 = 0x00000000#32 ∧ crcTab 1#8 = 0x77073096#32 ∧ crcTab 2#8 = 0xEE0E612C#32 ∧
  crcTab 3#8 = 0x990951BA#32 ∧ crcTab 4#8 = 0x076DC419#32 ∧ crcTab 8#8 = 0x0EDB8832#32 ∧
  crcTab 16#8 = 0x1DB71064#32 ∧ crcTab 32#8 = 0x3B6E20C8#32 ∧ crcTab 64#8 = 0x76DC4190#32 ∧
  crcTab 128#8 = 0xEDB88320#32 ∧ crcTab 255#8 = 0x2D02EF8D#32

/-- What the `ChecksumMismatch` rows of R78 rest on (93_implementation_defined.md G2), for a whole byte and not only one
bit of it: byte strings that differ in one byte have different CRC-32 values. -/
def Obligations.Crc32SeparatesOneChangedByte : Prop :=
  ∀ (A B : Bytes) (x y : Byte), x ≠ y → crc32 (A ++ x :: B) ≠ crc32 (A ++ y :: B)

/-- The residue remark of R63: a byte string followed by its own CRC in little-endian byte order has a constant CRC. -/
def Obligations.Crc32ResidueIsConstant : Prop :=
  ∀ B : Bytes, crc32 (B ++ (be32 (crc32 B)).reverse) = 0x2144DF1C#32

/-! ### ENCODE and DECODE -/

/-- R64, R67, R41, R42: for an assigned type and a payload of at most 1000 bytes ENCODE answers a well-formed frame with
every field in its place, 14 or 18 bytes longer than the payload, and touches nothing else. -/
def Obligations.EncodeAnswersWellformedFrame : Prop :=
  ∀ (seq : Word) (ty : Byte) (fc : Option Word) (payload : Bytes) (s : State),
    ty.toNat ≤ 2 → payload.length ≤ 1000 →
    ∃ F : Bytes,
      exec (.encode seq ty fc payload) s = .next { s with outbox := s.outbox ++ [⟨.okBytes F, []⟩] } ∧
      wellformed F = true ∧
      F.take 3 = [0xC0#8, 0xDE#8, 0x01#8] ∧ read8 F 3 = ty ∧ read32 F 4 = seq ∧ memRead F 8 2 = payload.length ∧
      read32 F 10 = frameChecksum F ∧
      match fc with
      | none => F.length = 14 + payload.length ∧ F.drop 14 = payload
      | some v => F.length = 18 + payload.length ∧ read32 F 14 = v ∧ F.drop 18 = payload

/-- R65: the size test is ENCODE's only error; 1000 bytes succeed and 1001 fail with `PayloadTooLarge`, whatever the
other operands, and no partial frame is returned; the `length` field never overflows its 16 bits. -/
def Obligations.EncodeSizeBoundary : Prop :=
  ∀ (seq : Word) (ty : Byte) (fc : Option Word) (payload : Bytes) (s : State), ty.toNat ≤ 2 →
    (payload.length ≤ 1000 → ∃ F : Bytes,
      exec (.encode seq ty fc payload) s = .next { s with outbox := s.outbox ++ [⟨.okBytes F, []⟩] } ∧
      memRead F 8 2 = payload.length) ∧
    (1000 < payload.length →
      exec (.encode seq ty fc payload) s =
        .next { s with outbox := s.outbox ++ [⟨.err .payloadTooLarge, []⟩] })

/-- R66: a request to encode an unassigned type code, 3 to 255, is refused, by ENCODE and by SP_ENCODE. -/
def Obligations.UnassignedTypeRefused : Prop :=
  ∀ (seq : Word) (ty : Byte) (fc : Option Word) (payload : Bytes) (s : State), 3 ≤ ty.toNat →
    exec (.encode seq ty fc payload) s = .refused .unassignedType ∧
    exec (.spEncode ty payload) s = .refused .unassignedType

/-- R76, R77: DECODE of what ENCODE answered gives back the type, the sequence number, the payload and the form, with
and without a file checksum, for every assigned type. -/
def Obligations.DecodeInvertsEncode : Prop :=
  ∀ (seq : Word) (ty : Byte) (payload : Bytes) (s s' : State), ty.toNat ≤ 2 → payload.length ≤ 1000 →
    (∃ F : Bytes, exec (.encode seq ty none payload) s = .next { s with outbox := s.outbox ++ [⟨.okBytes F, []⟩] } ∧
      exec (.decode F) s' =
        .next { s' with outbox := s'.outbox ++ [⟨.okFrame ⟨ty, seq, payload, .normal⟩, []⟩] }) ∧
    ∀ fc : Word, ∃ F : Bytes,
      exec (.encode seq ty (some fc) payload) s = .next { s with outbox := s.outbox ++ [⟨.okBytes F, []⟩] } ∧
      exec (.decode F) s' =
        .next { s' with outbox := s'.outbox ++ [⟨.okFrame ⟨ty, seq, payload, .terminal fc⟩, []⟩] }

/-- R49: DECODE succeeds on a datagram exactly when it is well-formed, clause for clause. -/
def Obligations.DecodeAcceptsExactlyWellformed : Prop :=
  ∀ (D : Bytes) (s : State),
    (∃ f, exec (.decode D) s = .next { s with outbox := s.outbox ++ [⟨.okFrame f, []⟩] }) ↔
    14 ≤ D.length ∧ memRead D 0 2 = 0xC0DE ∧ memRead D 2 1 = 0x01 ∧ memRead D 8 2 ≤ 1000 ∧
    (D.length = 14 + memRead D 8 2 ∨ D.length = 18 + memRead D 8 2) ∧
    (crc32 (D.take 10 ++ zeros 4 ++ D.drop 14)).toNat = memRead D 10 4

/-- R52: what DECODE answers for every datagram that is not a well-formed frame, the first matching row winning. -/
def Obligations.DecodeReportsFirstFailure : Prop :=
  ∀ D : Bytes,
    (∀ (kind : ErrorKind) (s : State), decodeFrame D = .error kind →
      exec (.decode D) s = .next { s with outbox := s.outbox ++ [⟨.err kind, []⟩] }) ∧
    (D.length < 14 → decodeFrame D = .error .frameTooShort) ∧
    (14 ≤ D.length →
      (memRead D 0 2 ≠ 0xC0DE → decodeFrame D = .error .badMagic) ∧
      (memRead D 0 2 = 0xC0DE →
        (memRead D 2 1 ≠ 0x01 → decodeFrame D = .error .badVersion) ∧
        (memRead D 2 1 = 0x01 →
          (1000 < memRead D 8 2 → decodeFrame D = .error .lengthOutOfRange) ∧
          (memRead D 8 2 ≤ 1000 →
            (D.length ≠ 14 + memRead D 8 2 ∧ D.length ≠ 18 + memRead D 8 2 →
              decodeFrame D = .error .lengthMismatch) ∧
            (D.length = 14 + memRead D 8 2 ∨ D.length = 18 + memRead D 8 2 →
              (crc32 (D.take 10 ++ zeros 4 ++ D.drop 14)).toNat ≠ memRead D 10 4 →
              decodeFrame D = .error .checksumMismatch)))))

/-- R75, R50, R51: DECODE answers every datagram, with a frame whose fields are those at their offsets and whose form is
the one its total length says, or with one of six error kinds, and touches nothing else. -/
def Obligations.DecodeAnswersEveryDatagram : Prop :=
  ∀ (D : Bytes) (s : State), ∃ r : Result,
    exec (.decode D) s = .next { s with outbox := s.outbox ++ [⟨r, []⟩] } ∧
    ((∃ f : DecodedFrame, r = .okFrame f ∧ wellformed D = true ∧ f.ty = read8 D 3 ∧ f.seq = read32 D 4 ∧
        f.payload.length = memRead D 8 2 ∧
        ((D.length = 14 + memRead D 8 2 ∧ f.form = .normal ∧ f.payload = D.drop 14) ∨
          (D.length = 18 + memRead D 8 2 ∧ f.form = .terminal (read32 D 14) ∧ f.payload = D.drop 18))) ∨
      (wellformed D = false ∧
        (r = .err .frameTooShort ∨ r = .err .badMagic ∨ r = .err .badVersion ∨ r = .err .lengthOutOfRange ∨
          r = .err .lengthMismatch ∨ r = .err .checksumMismatch)))

/-- R74: a header re-packed from the parsed fields equals the received one, so a well-formed frame is exactly what
ENCODE builds from its decoded fields. -/
def Obligations.WellformedFrameIsItsEncoding : Prop :=
  ∀ (D : Bytes) (f : DecodedFrame), decodeFrame D = .ok f →
    ∃ fc : Option Word, formOf fc = f.form ∧ encodeFrame f.seq f.payload f.ty fc = .ok D

/-- R78: flipping any single bit of a well-formed frame makes DECODE fail, with the kind the rule's table gives for the
bit's position. -/
def Obligations.SingleBitFlipRejected : Prop :=
  ∀ (D : Bytes) (f : DecodedFrame) (k : Nat), decodeFrame D = .ok f → k < 8 * D.length →
    ∃ e : ErrorKind, decodeFrame (flipBit D k) = .error e ∧
      (k < 16 → e = .badMagic) ∧
      (16 ≤ k ∧ k < 24 → e = .badVersion) ∧
      (24 ≤ k ∧ k < 64 → e = .checksumMismatch) ∧
      (64 ≤ k ∧ k < 80 →
        (1000 < memRead (flipBit D k) 8 2 → e = .lengthOutOfRange) ∧
        (memRead (flipBit D k) 8 2 ≤ 1000 →
          (D.length ≠ 14 + memRead (flipBit D k) 8 2 ∧ D.length ≠ 18 + memRead (flipBit D k) 8 2 →
            e = .lengthMismatch) ∧
          (D.length = 14 + memRead (flipBit D k) 8 2 ∨ D.length = 18 + memRead (flipBit D k) 8 2 →
            e = .checksumMismatch))) ∧
      (80 ≤ k → e = .checksumMismatch)

/-- R27, R55: the first 32-bit big-endian word composes magic, version and type; a foreign word is rejected as bad magic
or bad version, and an accepted frame's word is `0xC0DE0100` plus its type code. -/
def Obligations.FirstWordSelectsKind : Prop :=
  ∀ D : Bytes, 14 ≤ D.length →
    memRead D 0 4 = memRead D 0 2 * 65536 + memRead D 2 1 * 256 + memRead D 3 1 ∧
    (memRead D 0 4 / 65536 ≠ 0xC0DE → decodeFrame D = .error .badMagic) ∧
    (memRead D 0 4 / 65536 = 0xC0DE → memRead D 0 4 / 256 % 256 ≠ 0x01 → decodeFrame D = .error .badVersion) ∧
    ∀ f : DecodedFrame, decodeFrame D = .ok f → memRead D 0 4 = 0xC0DE0100 + f.ty.toNat

/-! ### The buffer primitives -/

/-- R80: RB_STORE creates or replaces the one entry and answers `Ok`, every other entry and every other buffer
unchanged; a payload over 1000 bytes is refused. -/
def Obligations.RbStoreWritesOneEntry : Prop :=
  ∀ (p : Peer) (seq : Word) (payload : Bytes) (s : State),
    (payload.length ≤ 1000 → HasRoom s p seq →
      ∃ t, exec (.rbStore p seq payload) s = .next t ∧ RespondedWith s t p ⟨.ok, []⟩ ∧
        assocGet seq.toNat (t.buffer p) = some payload ∧
        ∀ k, k ≠ seq.toNat → assocGet k (t.buffer p) = assocGet k (s.buffer p)) ∧
    (1000 < payload.length → exec (.rbStore p seq payload) s = .refused .payloadOutsideDomain)

/-- R81, R149: with a finite capacity a store of an absent key into a full buffer is the fault `BufferFull`, by RB_STORE
and by the RECV of a valid DATA frame (which then emits no acknowledgement); a store to a present key always succeeds,
and with the capacity unbounded neither faults. -/
def Obligations.FullBufferFaults : Prop :=
  ∀ (p : Peer) (s : State),
    (∀ (seq : Word) (payload : Bytes), payload.length ≤ 1000 →
      (exec (.rbStore p seq payload) s = .fault .bufferFull ↔
        ∃ c, s.cfg.rbCapacity = some c ∧ c ≤ (s.buffer p).length ∧ s.entry p seq = none)) ∧
    (∀ (D : Bytes) (f : DecodedFrame), decodeFrame D = .ok f → f.ty = 0#8 →
      (exec (.recv p D) s = .fault .bufferFull ↔
        ∃ c, s.cfg.rbCapacity = some c ∧ c ≤ (s.buffer p).length ∧ s.entry p f.seq = none))

/-- R30, R97: after a store, a second store to the same key succeeds and leaves the store as if only the second had been
made; so storing the same payload twice is storing it once. -/
def Obligations.RbStoreLastWins : Prop :=
  ∀ (p : Peer) (seq : Word) (a b : Bytes) (s t : State), b.length ≤ 1000 →
    exec (.rbStore p seq a) s = .next t →
    ∃ u v, exec (.rbStore p seq b) t = .next u ∧ exec (.rbStore p seq b) s = .next v ∧ u.mem = v.mem

/-- R96: the buffer after two stores with distinct keys does not depend on their order. -/
def Obligations.RbStoresCommute : Prop :=
  ∀ (p : Peer) (j k : Word) (a b : Bytes) (s : State), j ≠ k → a.length ≤ 1000 → b.length ≤ 1000 →
    s.cfg.rbCapacity = none →
    ∃ t u t' u', exec (.rbStore p j a) s = .next t ∧ exec (.rbStore p k b) t = .next u ∧
      exec (.rbStore p k b) s = .next t' ∧ exec (.rbStore p j a) t' = .next u' ∧ u.mem = u'.mem

/-- R82: RB_CONCAT answers the payloads of all present keys in ascending numeric order, and changes nothing else. That
the store is in canonical form is the invariant `StepKeepsInvariant` states. -/
def Obligations.RbConcatAscending : Prop :=
  ∀ (p : Peer) (s : State), s.mem.wf = true →
    ∃ keys : List Nat, keys.Pairwise (· < ·) ∧ (∀ k, k ∈ keys ↔ (assocGet k (s.buffer p)).isSome = true) ∧
      exec (.rbConcat p) s = .next { s with outbox := s.outbox ++
        [⟨.bytes (keys.flatMap fun k => (assocGet k (s.buffer p)).getD []), []⟩] }

/-- R83: RB_CLEAR removes every entry of the buffer, which then has its reset value, and answers `Ok`. -/
def Obligations.RbClearEmptiesBuffer : Prop :=
  ∀ (p : Peer) (s : State), s.mem.wf = true →
    ∃ t, exec (.rbClear p) s = .next t ∧ RespondedWith s t p ⟨.ok, []⟩ ∧ t.buffer p = [] ∧
      (s.buffer p = [] → t.mem = s.mem)

/-- R84 to R86: RB_FINALIZE compares the checksum of the concatenation with `fc`, answers the concatenation or the error
kind, and empties the buffer whichever way the comparison goes; on an empty buffer `fc = 0` answers `Ok("")`. -/
def Obligations.RbFinalizeChecksAndClears : Prop :=
  ∀ (p : Peer) (fc : Word) (s : State), s.mem.wf = true →
    ∃ t out, exec (.rbConcat p) s = .next { s with outbox := s.outbox ++ [⟨.bytes out, []⟩] } ∧
      exec (.rbFinalize p fc) s = .next t ∧ t.buffer p = [] ∧
      RespondedWith s t p
        ⟨if crc32 out = fc then .okBytes out else .err .fileChecksumMismatch, []⟩ ∧
      (s.buffer p = [] → out = [] ∧ crc32 out = 0#32)

/-! ### The receive datapath -/

/-- R89: a datagram that fails DECODE is discarded; the only action is the report of its kind. -/
def Obligations.RecvDiscardsMalformed : Prop :=
  ∀ (src : Peer) (D : Bytes) (kind : ErrorKind) (s : State), decodeFrame D = .error kind →
    exec (.recv src D) s = .next { s with outbox := s.outbox ++
      [⟨.received (.discarded kind), [.report (.frameDiscarded kind)]⟩] }

/-- R90: a valid frame that is not DATA, in either form, is ignored: nothing stored, transmitted or reported. -/
def Obligations.RecvIgnoresNonData : Prop :=
  ∀ (src : Peer) (D : Bytes) (f : DecodedFrame) (s : State), decodeFrame D = .ok f → f.ty ≠ 0#8 →
    exec (.recv src D) s = .next { s with outbox := s.outbox ++ [⟨.received (.ignored f.ty), []⟩] }

/-- R91, R92: a valid DATA frame in the normal form is stored at its sequence number and acknowledged once, to its
source, by the 14-byte ACK frame that echoes the number. That the ACK's payload is empty is the spec's decision D9. -/
def Obligations.RecvStoresAndAcknowledges : Prop :=
  ∀ (src : Peer) (D : Bytes) (f : DecodedFrame) (s : State), decodeFrame D = .ok f → f.ty = 0#8 →
    f.form = .normal → HasRoom s src f.seq →
    ∃ t ack, exec (.recv src D) s = .next t ∧
      RespondedWith s t src ⟨.received (.stored f.seq), [.transmit src ack]⟩ ∧
      encodeFrame f.seq [] 1#8 none = .ok ack ∧ ack.length = 14 ∧
      decodeFrame ack = .ok ⟨1#8, f.seq, [], .normal⟩ ∧
      assocGet f.seq.toNat (t.buffer src) = some f.payload ∧
      ∀ k, k ≠ f.seq.toNat → assocGet k (t.buffer src) = assocGet k (s.buffer src)

/-- R88, R93, R94: a valid terminal DATA frame is stored and acknowledged, then finalized with its own payload in the
concatenation: on a match the payload goes to the sink, on a mismatch the failure is reported, and either way the buffer
is what RB_STORE and then RB_FINALIZE leave, which is empty. -/
def Obligations.RecvTerminalFinalizes : Prop :=
  ∀ (src : Peer) (D : Bytes) (f : DecodedFrame) (fc : Word) (s : State), s.mem.wf = true →
    decodeFrame D = .ok f → f.ty = 0#8 → f.form = .terminal fc → HasRoom s src f.seq →
    ∃ s₁ s₂ t ack out, exec (.rbStore src f.seq f.payload) s = .next s₁ ∧
      exec (.rbConcat src) s₁ = .next { s₁ with outbox := s₁.outbox ++ [⟨.bytes out, []⟩] } ∧
      exec (.rbFinalize src fc) s₁ = .next s₂ ∧
      exec (.recv src D) s = .next t ∧ t.mem = s₂.mem ∧ t.buffer src = [] ∧
      encodeFrame f.seq [] 1#8 none = .ok ack ∧
      RespondedWith s t src (if crc32 out = fc
        then ⟨.received (.completed out), [.transmit src ack, .sink out, .report .transferVerified]⟩
        else ⟨.received .failed, [.transmit src ack, .report .fileChecksumFailure]⟩)

/-- R88: RECV itself never fails. With an unbounded buffer it answers every datagram from every peer with exactly one
response, whose outcome is the one of the five that DECODE of the datagram selects (R89, R90, R91, R93), with the
datagram's own type and sequence number, and with that outcome's actions: the acknowledgement of a DATA frame first, in
all three of its outcomes. That the ACK's payload is empty is the spec's decision D9 (log entry 13). -/
def Obligations.RecvAlwaysAnswers : Prop :=
  ∀ (src : Peer) (D : Bytes) (s : State), s.cfg.rbCapacity = none →
    ∃ t o acts, exec (.recv src D) s = .next t ∧ RespondedWith s t src ⟨.received o, acts⟩ ∧
      match decodeFrame D with
      | .error kind => o = .discarded kind ∧ acts = [.report (.frameDiscarded kind)]
      | .ok f =>
        (f.ty ≠ 0#8 → o = .ignored f.ty ∧ acts = []) ∧
        (f.ty = 0#8 → ∃ ack, encodeFrame f.seq [] 1#8 none = .ok ack ∧
          match f.form with
          | .normal => o = .stored f.seq ∧ acts = [.transmit src ack]
          | .terminal fc =>
            (∃ out, crc32 out = fc ∧ o = .completed out ∧
              acts = [.transmit src ack, .sink out, .report .transferVerified]) ∨
            (o = .failed ∧ acts = [.transmit src ack, .report .fileChecksumFailure]))

/-! ### Frames arriving -/

/-- Row FRAME.DATA, R91: a DATA frame in the normal form whose checksum field is right is stored and acknowledged. -/
def Obligations.FrameDataStored : Prop :=
  ∀ (src : Peer) (seq ck : Word) (payload : Bytes) (s : State), payload.length ≤ 1000 →
    ck = frameChecksum (layFrame 0#8 seq ck .normal payload) → HasRoom s src seq →
    ∃ t ack, exec (.frameData src seq ck payload) s = .next t ∧
      RespondedWith s t src ⟨.received (.stored seq), [.transmit src ack]⟩ ∧
      encodeFrame seq [] 1#8 none = .ok ack ∧
      assocGet seq.toNat (t.buffer src) = some payload ∧
      ∀ k, k ≠ seq.toNat → assocGet k (t.buffer src) = assocGet k (s.buffer src)

/-- Row FRAME.DATA.TERMINAL, R93: a DATA frame in the terminal form whose checksum field is right is stored,
acknowledged and finalized. -/
def Obligations.FrameTerminalFinalized : Prop :=
  ∀ (src : Peer) (seq ck fc : Word) (payload : Bytes) (s : State), s.mem.wf = true → payload.length ≤ 1000 →
    ck = frameChecksum (layFrame 0#8 seq ck (.terminal fc) payload) → HasRoom s src seq →
    ∃ s₁ t ack out, exec (.rbStore src seq payload) s = .next s₁ ∧
      exec (.rbConcat src) s₁ = .next { s₁ with outbox := s₁.outbox ++ [⟨.bytes out, []⟩] } ∧
      exec (.frameDataTerminal src seq ck fc payload) s = .next t ∧ t.buffer src = [] ∧
      encodeFrame seq [] 1#8 none = .ok ack ∧
      RespondedWith s t src (if crc32 out = fc
        then ⟨.received (.completed out), [.transmit src ack, .sink out, .report .transferVerified]⟩
        else ⟨.received .failed, [.transmit src ack, .report .fileChecksumFailure]⟩)

/-- Rows FRAME.ACK, FRAME.ERROR and FRAME.UNASSIGNED, R90, R53, R54: a frame of another type whose checksum field is
right is ignored, in either form. -/
def Obligations.NonDataFramesIgnored : Prop :=
  ∀ (src : Peer) (seq ck : Word) (form : Form) (payload : Bytes) (s : State), payload.length ≤ 1000 →
    (ck = frameChecksum (layFrame 1#8 seq ck form payload) →
      exec (.frameAck src seq ck form payload) s =
        .next { s with outbox := s.outbox ++ [⟨.received (.ignored 1#8), []⟩] }) ∧
    (ck = frameChecksum (layFrame 2#8 seq ck form payload) →
      exec (.frameError src seq ck form payload) s =
        .next { s with outbox := s.outbox ++ [⟨.received (.ignored 2#8), []⟩] }) ∧
    ∀ ty : Byte, 3 ≤ ty.toNat → ck = frameChecksum (layFrame ty seq ck form payload) →
      exec (.frameUnassigned src ty seq ck form payload) s =
        .next { s with outbox := s.outbox ++ [⟨.received (.ignored ty), []⟩] }

/-- R73, R89, R163: a frame of any kind of the chunked configuration whose checksum field is wrong is discarded with
`ChecksumMismatch`, whatever its other fields, and nothing is transmitted. -/
def Obligations.WrongChecksumDiscarded : Prop :=
  ∀ (src : Peer) (ty : Byte) (seq ck : Word) (form : Form) (payload : Bytes) (s : State), payload.length ≤ 1000 →
    ck ≠ frameChecksum (layFrame ty seq ck form payload) →
    exec (frameKind src ty seq ck form payload) s = .next { s with outbox := s.outbox ++
      [⟨.received (.discarded .checksumMismatch), [.report (.frameDiscarded .checksumMismatch)]⟩] }

/-! ### The single-packet configuration -/

/-- R119, R117, R118, R123: for an assigned type SP_ENCODE answers the 9-byte header with every field in its place, a
zero reserved byte and the truncated checksum, then the payload; over 4096 bytes it answers `PayloadTooLarge`. -/
def Obligations.SpEncodeAnswersFrame : Prop :=
  ∀ (ty : Byte) (payload : Bytes) (s : State), ty.toNat ≤ 2 →
    (payload.length ≤ 4096 → ∃ F : Bytes,
      exec (.spEncode ty payload) s = .next { s with outbox := s.outbox ++ [⟨.okBytes F, []⟩] } ∧
      F.length = 9 + payload.length ∧ F.take 3 = [0xC0#8, 0xDE#8, 0x01#8] ∧ read8 F 3 = ty ∧ read8 F 4 = 0#8 ∧
      memRead F 5 2 = payload.length ∧ F.drop 9 = payload ∧
      read16 F 7 = (crc32 (F.take 7 ++ zeros 2 ++ F.drop 9)).setWidth 16) ∧
    (4096 < payload.length →
      exec (.spEncode ty payload) s = .next { s with outbox := s.outbox ++ [⟨.err .payloadTooLarge, []⟩] })

/-- R125: SP_DECODE of what SP_ENCODE answered gives back the type and the payload, for every assigned type and under
either setting of `SP_RESERVED_CHECK` in the decoding state `s'`. -/
def Obligations.SpDecodeInvertsSpEncode : Prop :=
  ∀ (ty : Byte) (payload : Bytes) (s s' : State), ty.toNat ≤ 2 → payload.length ≤ 4096 →
    ∃ F : Bytes,
      exec (.spEncode ty payload) s = .next { s with outbox := s.outbox ++ [⟨.okBytes F, []⟩] } ∧
      exec (.spDecode F) s' = .next { s' with outbox := s'.outbox ++ [⟨.okSpFrame ty payload, []⟩] }

/-- R120, R121, R123: SP_DECODE answers every datagram with the first check that fails in the rule's order, or with the
raw type and the payload; the reserved byte is tested only when `SP_RESERVED_CHECK` is set. -/
def Obligations.SpDecodeAnswersEveryDatagram : Prop :=
  ∀ (D : Bytes) (s : State), ∃ r : Result,
    exec (.spDecode D) s = .next { s with outbox := s.outbox ++ [⟨r, []⟩] } ∧
    (if D.length < 9 then r = .err .frameTooShort
      else if memRead D 0 2 ≠ 0xC0DE then r = .err .badMagic
      else if memRead D 2 1 ≠ 0x01 then r = .err .badVersion
      else if s.cfg.spReservedCheck = true ∧ read8 D 4 ≠ 0#8 then r = .err .reservedNotZero
      else if 4096 < memRead D 5 2 then r = .err .lengthOutOfRange
      else if D.length ≠ 9 + memRead D 5 2 then r = .err .lengthMismatch
      else if ((crc32 (D.take 7 ++ zeros 2 ++ D.drop 9)).setWidth 16 : Half).toNat ≠ memRead D 7 2
        then r = .err .checksumMismatch
      else r = .okSpFrame (read8 D 3) (D.drop 9))

/-- R122: SP_SERVE reports a malformed frame and answers it with the ERROR frame `c0 de 01 02 00 00 00 d9 77`; a
well-formed one is accepted with no action. -/
def Obligations.SpServeRejectsOrAccepts : Prop :=
  ∀ (src : Peer) (D : Bytes) (s : State),
    (∀ kind, spDecodeFrame s.cfg.spReservedCheck D = .error kind →
      exec (.spServe src D) s = .next { s with outbox := s.outbox ++
        [⟨.served (.rejected kind), [.report (.frameDiscarded kind),
          .transmit src [0xC0#8, 0xDE#8, 0x01#8, 0x02#8, 0x00#8, 0x00#8, 0x00#8, 0xD9#8, 0x77#8]]⟩] }) ∧
    (∀ ty payload, spDecodeFrame s.cfg.spReservedCheck D = .ok (ty, payload) →
      exec (.spServe src D) s = .next { s with outbox := s.outbox ++ [⟨.served (.accepted ty payload), []⟩] })

/-- Rows SPFRAME.DATA, SPFRAME.ACK and SPFRAME.ERROR, R117, R122: a single-packet frame whose checksum field is right,
with a reserved byte the parameter admits, is accepted with its type and payload. That SP_SERVE then acts no further is
R122's pseudocode; what the service replies is left out (log entry 10). -/
def Obligations.SpFramesAccepted : Prop :=
  ∀ (src : Peer) (reserved : Byte) (ck : Half) (payload : Bytes) (s : State), payload.length ≤ 4096 →
    (s.cfg.spReservedCheck = true → reserved = 0#8) →
    (ck = spChecksum (laySpFrame 0#8 reserved ck payload) →
      exec (.spFrameData src reserved ck payload) s =
        .next { s with outbox := s.outbox ++ [⟨.served (.accepted 0#8 payload), []⟩] }) ∧
    (ck = spChecksum (laySpFrame 1#8 reserved ck payload) →
      exec (.spFrameAck src reserved ck payload) s =
        .next { s with outbox := s.outbox ++ [⟨.served (.accepted 1#8 payload), []⟩] }) ∧
    (ck = spChecksum (laySpFrame 2#8 reserved ck payload) →
      exec (.spFrameError src reserved ck payload) s =
        .next { s with outbox := s.outbox ++ [⟨.served (.accepted 2#8 payload), []⟩] })

/-- Rows SPFRAME.DATA, SPFRAME.ACK and SPFRAME.ERROR, R122, R123: a single-packet frame whose checksum field is wrong is
rejected, reported and answered with the ERROR frame, and so, before that and only when `SP_RESERVED_CHECK` is set, is
one with a non-zero reserved byte. The name of that last error kind is the model's (log entry 9). -/
def Obligations.SpFramesRejected : Prop :=
  ∀ (src : Peer) (reserved ty : Byte) (ck : Half) (payload : Bytes) (i : Instr) (s : State), payload.length ≤ 4096 →
    ((ty = 0#8 ∧ i = .spFrameData src reserved ck payload) ∨ (ty = 1#8 ∧ i = .spFrameAck src reserved ck payload) ∨
      (ty = 2#8 ∧ i = .spFrameError src reserved ck payload)) →
    ((s.cfg.spReservedCheck = true ∧ reserved ≠ 0#8) ∨ ck ≠ spChecksum (laySpFrame ty reserved ck payload)) →
    ∃ kind : ErrorKind,
      exec i s = .next { s with outbox := s.outbox ++
        [⟨.served (.rejected kind), [.report (.frameDiscarded kind),
          .transmit src [0xC0#8, 0xDE#8, 0x01#8, 0x02#8, 0x00#8, 0x00#8, 0x00#8, 0xD9#8, 0x77#8]]⟩] } ∧
      kind = if s.cfg.spReservedCheck = true ∧ reserved ≠ 0#8 then .reservedNotZero else .checksumMismatch

/-! ### The machine as a whole -/

/-- R10, R30, R115: the operations that are not the buffer's own write no buffer: CRC32, ENCODE, DECODE, RB_CONCAT and
everything of the single-packet configuration change nothing but the returns. -/
def Obligations.PureOperationsWriteNoBuffer : Prop :=
  ∀ (i : Instr) (s t : State), concernedPeer i = none → exec i s = .next t →
    ∃ r, t = { s with outbox := s.outbox ++ [r] }

/-- R8, R95, R134: every instruction that answers a next state returns exactly one response. One that concerns no peer's
buffer leaves the whole store, the parameters, the sender and the inbox as they were; one that concerns peer `p` may
write `p`'s buffer only: the parameters, the sender, the inbox, the arrangement not in use and, with
`PEER_KEYED = true`, every other peer's buffer stay. -/
def Obligations.EveryInstructionAnswersOnce : Prop :=
  ∀ (i : Instr) (s t : State), exec i s = .next t → ∃ r : Response,
    match concernedPeer i with
    | none => t.mem = s.mem ∧ t.cfg = s.cfg ∧ t.sender = s.sender ∧ t.inbox = s.inbox ∧ t.outbox = s.outbox ++ [r]
    | some p => RespondedWith s t p r

/-- R95: with `PEER_KEYED = true` what RECV answers, and the buffer it leaves its source, depend on no other peer's
buffer. -/
def Obligations.RecvReadsOnlyItsPeer : Prop :=
  ∀ (src : Peer) (D : Bytes) (s s' t : State), s.cfg = s'.cfg → s.mem.wf = true → s'.mem.wf = true →
    s.buffer src = s'.buffer src → exec (.recv src D) s = .next t →
    ∃ t' r, exec (.recv src D) s' = .next t' ∧ t.outbox = s.outbox ++ [r] ∧ t'.outbox = s'.outbox ++ [r] ∧
      t.buffer src = t'.buffer src

/-- R14: "With at most one peer ever sending, the two are indistinguishable": a machine with one shared buffer and one
with a buffer per peer, fed only by peer `p` from states `p` cannot tell apart, run alike for any number of steps. -/
def Obligations.OneSenderCannotTell : Prop :=
  ∀ (p : Peer) (k : Nat) (s t : State), s.mem.wf = true → t.mem.wf = true →
    s.cfg.peerKeyed = true → t.cfg = { s.cfg with peerKeyed := false } → sameForPeer p s t →
    (∀ e ∈ s.inbox, eventFromOnly p e = true) →
    sameAnswerForPeer p (Sys2Proof.core.run k s) (Sys2Proof.core.run k t)

/-- R8, R34: a step whose oldest event is a transaction that decodes to `i` is the execution of `i` on the state without
that event; a command that does not decode is refused by name, and with nothing handed over a step changes nothing. -/
def Obligations.StepRunsDecoded : Prop :=
  ∀ s : State,
    (∀ t rest i, s.inbox = .transaction t :: rest → decode s.cfg.variant t = .ok i →
      step s = exec i { s with inbox := rest }) ∧
    (∀ t rest e, s.inbox = .transaction t :: rest → decode s.cfg.variant t = .error e →
      step s = .refused (.undecodable e)) ∧
    (s.inbox = [] → step s = .next s)

/-- R111, R59: the receive loop performs RECV on every datagram it takes, and the single-packet service SP_SERVE: a step
on any datagram, of whatever kind it decodes to, is that operation with the datagram as its operand. -/
def Obligations.DatagramIsReceived : Prop :=
  ∀ (src : Peer) (D : Bytes) (rest : List Event) (s : State),
    s.inbox = .transaction (.datagram src D) :: rest →
    (s.cfg.variant = .chunked → step s = exec (.recv src D) { s with inbox := rest }) ∧
    (s.cfg.variant = .singlePacket → step s = exec (.spServe src D) { s with inbox := rest })

/-- R56: every selector value but the eleven of the rule's table names no operation, and a step on it is refused. -/
def Obligations.UnknownSelectorRefused : Prop :=
  ∀ (p : Peer) (op : Byte) (operands : Bytes) (rest : List Event) (s : State),
    s.inbox = .transaction (.command p (op :: operands)) :: rest →
    op ∉ [0x01#8, 0x02#8, 0x03#8, 0x10#8, 0x11#8, 0x12#8, 0x13#8, 0x20#8, 0x42#8, 0x43#8, 0x60#8] →
    step s = .refused (.undecodable .unknownSelector)

/-- R151, R150: the reset event empties every buffer, reports nothing and hands nothing to the sink. -/
def Obligations.ResetEventEmptiesBuffers : Prop :=
  ∀ (s : State) (rest : List Event), s.inbox = .reset :: rest →
    ∃ t, step s = .next t ∧ (∀ p, t.buffer p = [] ∧ receiverPhase t p = .awaitingFirstChunk) ∧
      t.mem.rb = [] ∧ t.mem.rbs = [] ∧ t.cfg = s.cfg ∧ t.sender = s.sender ∧ t.inbox = rest ∧ t.outbox = s.outbox

/-- R12, R14, R150: after reset every buffer is empty, under every setting of the parameters of R7; and so, by R16 and
R150 (decision D3), the receiver awaits its first chunk. -/
def Obligations.ResetStateIsEmpty : Prop :=
  (∀ p : Peer, State.reset.buffer p = [] ∧ receiverPhase State.reset p = .awaitingFirstChunk) ∧
  ∀ (cfg : Cfg) (p : Peer), (State.resetWith cfg).buffer p = [] ∧
    receiverPhase (State.resetWith cfg) p = .awaitingFirstChunk

/-- R11, R12: the invariant holds right after reset, under every setting of the parameters. -/
def Obligations.ResetHoldsInvariant : Prop := State.reset.Inv ∧ ∀ cfg : Cfg, (State.resetWith cfg).Inv

/-- R11, R14, R81: every step keeps the invariant: the buffers in canonical form with 32-bit keys and payloads of at most
1000 bytes, one arrangement in use, no buffer over its capacity, the sender inside a transfer SEND can have made. -/
def Obligations.StepKeepsInvariant : Prop := ∀ s t : State, s.Inv → step s = .next t → t.Inv

/-- R6, R19, R34: no step changes the parameters; a step takes the oldest event and no other, and returns at most one
response, after those already returned. -/
def Obligations.StepTakesOneEvent : Prop :=
  ∀ s t : State, step s = .next t →
    t.cfg = s.cfg ∧ t.inbox = s.inbox.tail ∧ ∃ rs : List Response, rs.length ≤ 1 ∧ t.outbox = s.outbox ++ rs

/-- R13, R29: "Nothing else removes an entry": an entry that a step removes was removed by reset, by RB_CLEAR or
RB_FINALIZE, or by a valid terminal DATA frame. -/
def Obligations.EntriesLeaveOnlyByClearing : Prop :=
  ∀ (s t : State) (p : Peer) (k : Nat), step s = .next t →
    (assocGet k (s.buffer p)).isSome = true → assocGet k (t.buffer p) = none →
    ∃ e rest, s.inbox = e :: rest ∧
      (e = .reset ∨
        ∃ tr i, e = .transaction tr ∧ decode s.cfg.variant tr = .ok i ∧
          ((∃ q, i = .rbClear q) ∨ (∃ q fc, i = .rbFinalize q fc) ∨
            ∃ q D f fc, receivedDatagram i = some (q, D) ∧ decodeFrame D = .ok f ∧ f.ty = 0#8 ∧
              f.form = .terminal fc))

/-- R136, R107: with an unbounded buffer no run from a state that meets the invariant stops with a fault. -/
def Obligations.UnboundedRunsNeverFault : Prop :=
  ∀ (k : Nat) (s : State), s.Inv → s.cfg.rbCapacity = none → safeRun k s = true

/-! ### Encoding of instructions (the operand layout of commands is the model's, log entry 2) -/

/-- R56, R41, R42, R117: decoding the encoding of any well-formed instruction gives the instruction back, with every
operand at every value it can have, in a configuration whose datagrams it belongs to. -/
def Obligations.InstructionDecodeInvertsEncode : Prop :=
  ∀ (i : Instr) (v : Variant), i.wf = true → i.fitsVariant v = true → decode v (encode i) = .ok i

/-- R56, R55: words written out from the spec decode to the instructions they stand for: a selector with operands, the
frames E2, E4 and D19 of 95_test_vectors.md, and the single-packet frame S4. -/
def Obligations.WrittenWordsDecode : Prop :=
  decode .chunked (.command ⟨7⟩ [0x13#8, 0xA3#8, 0x83#8, 0x03#8, 0x48#8]) = .ok (.rbFinalize ⟨7⟩ 0xA3830348#32) ∧
  decode .chunked (.datagram ⟨7⟩ [0xC0#8, 0xDE#8, 0x01#8, 0x00#8, 0#8, 0#8, 0#8, 0#8, 0#8, 0x01#8, 0x2B#8, 0x5D#8,
    0x82#8, 0xF8#8, 0x41#8]) = .ok (.frameData ⟨7⟩ 0#32 0x2B5D82F8#32 [0x41#8]) ∧
  decode .chunked (.datagram ⟨7⟩ [0xC0#8, 0xDE#8, 0x01#8, 0x00#8, 0#8, 0#8, 0#8, 2#8, 0#8, 0x01#8, 0xB7#8, 0x7E#8,
    0x8C#8, 0x68#8, 0xA3#8, 0x83#8, 0x03#8, 0x48#8, 0x43#8]) =
    .ok (.frameDataTerminal ⟨7⟩ 2#32 0xB77E8C68#32 0xA3830348#32 [0x43#8]) ∧
  decode .chunked (.datagram ⟨7⟩ [0xC0#8, 0xDE#8, 0x01#8, 0x01#8, 0#8, 0#8, 0#8, 9#8, 0#8, 0#8, 0xF8#8, 0x2A#8, 0xA0#8,
    0x6A#8, 0x11#8, 0x22#8, 0x33#8, 0x44#8]) =
    .ok (.frameAck ⟨7⟩ 9#32 0xF82AA06A#32 (.terminal 0x11223344#32) []) ∧
  decode .singlePacket (.datagram ⟨7⟩ [0xC0#8, 0xDE#8, 0x01#8, 0x02#8, 0#8, 0#8, 0#8, 0xD9#8, 0x77#8]) =
    .ok (.spFrameError ⟨7⟩ 0#8 0xD977#16 [])

/-! ### The surrounding sender -/

/-- R100: a payload of `N ≥ 1` bytes is split into `ceil(N / 1000)` chunks in order, every one but the last of exactly
1000 bytes and the last of 1 to 1000, chunk `i` being the bytes from offset `1000*i`. -/
def Obligations.ChunksPartitionPayload : Prop :=
  ∀ (cfg : Cfg) (W : Bytes), W ≠ [] →
    (chunksOf cfg W).flatten = W ∧
    1000 * ((chunksOf cfg W).length - 1) < W.length ∧ W.length ≤ 1000 * (chunksOf cfg W).length ∧
    ∀ i, i < (chunksOf cfg W).length →
      (chunksOf cfg W).getD i [] = slice W (1000 * i) (min (1000 * (i + 1)) W.length) ∧
      (i + 1 < (chunksOf cfg W).length → ((chunksOf cfg W).getD i []).length = 1000) ∧
      (i + 1 = (chunksOf cfg W).length → 1 ≤ ((chunksOf cfg W).getD i []).length ∧
        ((chunksOf cfg W).getD i []).length ≤ 1000)

/-- R101, R102: chunk `i` is carried with sequence number `i` by the frame ENCODE builds of it with type DATA, the last
chunk's alone with the checksum of the whole payload, in the terminal form; no such ENCODE fails (R107); and a payload of
1 to 1000 bytes is one terminal frame with sequence number 0. -/
def Obligations.TransferFramesCarryChunks : Prop :=
  ∀ (cfg : Cfg) (W : Bytes) (dest : Peer),
    (∀ i, i < (chunksOf cfg W).length → (chunksOf cfg W).length ≤ 2 ^ 32 →
      ∃ F f, (transferOf cfg W dest).frame i = .ok F ∧
        encodeFrame (BitVec.ofNat 32 i) ((chunksOf cfg W).getD i []) 0#8
          (if i + 1 = (chunksOf cfg W).length then some (crc32 W) else none) = .ok F ∧
        decodeFrame F = .ok f ∧ f.ty = 0#8 ∧ f.seq.toNat = i ∧ f.payload = (chunksOf cfg W).getD i [] ∧
        f.form = if i + 1 = (chunksOf cfg W).length then .terminal (crc32 W) else .normal) ∧
    (1 ≤ W.length → W.length ≤ 1000 →
      ∃ F, (chunksOf cfg W).length = 1 ∧ (transferOf cfg W dest).frame 0 = .ok F ∧
        decodeFrame F = .ok ⟨0#8, 0#32, W, .terminal (crc32 W)⟩)

/-- The end-to-end scenario (95_test_vectors.md L1-6; R96, R102, R111): whatever order the non-terminal frames of a
transfer arrive in, when the terminal frame comes last the receiver hands exactly the payload to the sink, once, having
acknowledged every frame, and its buffer ends empty. -/
def Obligations.TransferIsDelivered : Prop :=
  ∀ (W : Bytes) (src dest : Peer) (s : State) (order : List Nat) (frames : Nat → Bytes) (n : Nat),
    s.mem.wf = true → s.buffer src = [] → s.cfg.rbCapacity = none → s.cfg.variant = .chunked →
    (chunksOf s.cfg W).length = n + 1 → n + 1 ≤ 2 ^ 32 → order.Perm (List.range n) →
    (∀ i, i ≤ n → (transferOf s.cfg W dest).frame i = .ok (frames i)) →
    s.inbox = (order ++ [n]).map (fun i => Event.transaction (.datagram src (frames i))) →
    ∃ t, Sys2Proof.core.run (n + 1) s = .next t ∧ t.buffer src = [] ∧ t.inbox = [] ∧
      t.outbox.length = s.outbox.length + (n + 1) ∧
      sinkDeliveries t.outbox = sinkDeliveries s.outbox ++ [W] ∧
      transmissions t.outbox = transmissions s.outbox ++
        (order ++ [n]).map (fun i => (src, ackFrame (BitVec.ofNat 32 i)))

/-- R106, R108, R159: the sender transmits the frames of its transfer in index order, each exactly once, and then reports
completion with the whole-payload checksum, once, whatever ends each wait: its expiry, an ACK with any sequence number,
or, with `TX_BAD_REPLY = proceed`, any other reply. With `keep_waiting_until_timeout` any number of other replies may
come before what ends a wait (`w.1`). -/
def Obligations.SenderTransmitsEveryFrame : Prop :=
  ∀ (t : Transfer) (waits : List (List Event × Event)) (s : State), t.wf = true → 0 < t.chunks.length →
    waits.length = t.chunks.length →
    (∀ w ∈ waits, (∀ e ∈ w.1, keepsWaiting s.cfg e = true) ∧ endsWait s.cfg w.2 = true) →
    s.sender = .sending t 0 → s.inbox = waits.flatMap (fun w => Event.sendNext :: (w.1 ++ [w.2])) →
    ∃ (u : State) (frames : List Bytes), Sys2Proof.core.run s.inbox.length s = .next u ∧
      u.sender = .done t.fc ∧ u.mem = s.mem ∧ u.inbox = [] ∧
      frames.length = t.chunks.length ∧ (∀ i, i < t.chunks.length → t.frame i = .ok (frames.getD i [])) ∧
      transmissions u.outbox = transmissions s.outbox ++ frames.map (fun F => (t.dest, F)) ∧
      completions u.outbox = completions s.outbox ++ [t.fc]

/-- R103, R106, R109, R110, R114: SEND from an idle sender, or from one whose last transfer is done, starts its transfer
at chunk 0; with no chunks it is done at once and reports completion; it is refused when there are more than 2^32
chunks. While a transfer is in progress it is refused, which is the model's reading of "sequential" (log entry 12). -/
def Obligations.SendStartsTransfer : Prop :=
  ∀ (W : Bytes) (dest : Peer) (rest : List Event) (s : State), s.inbox = .send W dest :: rest →
    (s.sender = .idle ∨ (∃ fc, s.sender = .done fc) →
      (0 < (chunksOf s.cfg W).length → (chunksOf s.cfg W).length ≤ 2 ^ 32 → step s = .next { s with
        inbox := rest, sender := .sending ⟨chunksOf s.cfg W, crc32 W, dest⟩ 0,
        outbox := s.outbox ++ [⟨.sendStarted, []⟩] }) ∧
      ((chunksOf s.cfg W).length = 0 → step s = .next { s with
        inbox := rest, sender := .done (crc32 W),
        outbox := s.outbox ++ [⟨.sendStarted, [.report (.transferDone (crc32 W))]⟩] }) ∧
      (2 ^ 32 < (chunksOf s.cfg W).length → step s = .refused .transferTooLong)) ∧
    (∀ t i, s.sender = .sending t i ∨ s.sender = .awaitingAck t i → step s = .refused .senderBusy)

/-- R104, R105, R106, R112, R113: the expiry of the wait for a chunk is reported and the sender proceeds without
retransmission; so it does on an ACK, whether or not its sequence number is the expected one, a mismatch being reported;
a reply that is not a well-formed ACK ends the wait or leaves it waiting as `TX_BAD_REPLY` says. To proceed is to go to
the next chunk and, after the last one, to be done and report completion with the whole-payload checksum. That a reply
which is not a well-formed ACK is not reported is the model's choice (log entry 28). -/
def Obligations.WaitEndsAndSenderProceeds : Prop :=
  ∀ (t : Transfer) (i : Nat) (rest : List Event) (s : State) (next : Sender) (completion : List Action),
    s.sender = .awaitingAck t i →
    ((i + 1 < t.chunks.length ∧ next = .sending t (i + 1) ∧ completion = []) ∨
      (i + 1 = t.chunks.length ∧ next = .done t.fc ∧ completion = [.report (.transferDone t.fc)])) →
    (s.inbox = .waitExpired :: rest → step s = .next { s with
      inbox := rest, sender := next,
      outbox := s.outbox ++ [⟨.err .timeout, .report (.ackTimeout i) :: completion⟩] }) ∧
    (∀ D f, s.inbox = .reply D :: rest → decodeFrame D = .ok f → f.ty = 1#8 → step s = .next { s with
      inbox := rest, sender := next,
      outbox := s.outbox ++ [if f.seq = BitVec.ofNat 32 i then ⟨.waitEnded .acknowledged, completion⟩
        else ⟨.waitEnded (.mismatchedAck f.seq), .report (.ackMismatch i f.seq) :: completion⟩] }) ∧
    (∀ D, s.inbox = .reply D :: rest → (∀ f, decodeFrame D = .ok f → f.ty ≠ 1#8) → step s = .next (
      match s.cfg.badReply with
      | .proceed => { s with
          inbox := rest, sender := next, outbox := s.outbox ++ [⟨.waitEnded .badReply, completion⟩] }
      | .keepWaitingUntilTimeout => { s with inbox := rest }))

/-! ### Hazards the document asks to be reproduced -/

/-- R158: a second copy of the terminal frame of a single-chunk transfer completes a second time, and the sink receives
the payload twice. -/
def Obligations.DuplicateTerminalDeliversTwice : Prop :=
  ∀ (src : Peer) (D : Bytes) (f : DecodedFrame) (s : State), s.mem.wf = true → s.buffer src = [] →
    s.cfg.rbCapacity = none → decodeFrame D = .ok f → f.ty = 0#8 → f.form = .terminal (crc32 f.payload) →
    ∃ t u, exec (.recv src D) s = .next t ∧ exec (.recv src D) t = .next u ∧ u.buffer src = [] ∧
      sinkDeliveries u.outbox = sinkDeliveries s.outbox ++ [f.payload, f.payload]

/-- R98, R155: a chunk left in the buffer at a key above the terminal frame's sequence number is concatenated after the
terminal chunk all the same. -/
def Obligations.StaleChunkIsConcatenated : Prop :=
  ∀ (src : Peer) (D stale : Bytes) (key : Nat) (f : DecodedFrame) (fc : Word) (s : State), s.mem.wf = true →
    s.buffer src = [(key, stale)] → f.seq.toNat < key → s.cfg.rbCapacity = none → decodeFrame D = .ok f →
    f.ty = 0#8 → f.form = .terminal fc →
    ∃ t r, exec (.recv src D) s = .next t ∧ RespondedWith s t src r ∧ t.buffer src = [] ∧
      r.result = if crc32 (f.payload ++ stale) = fc then .received (.completed (f.payload ++ stale))
        else .received .failed
end

