-- ==== Sys2Proof/Laws/Crc.lean ====
section
/-! SUPPORT. Laws/Crc.lean: the CRC register (spec R60). One turn of the loop is linear over exclusive-or and
injective, so a byte enters injectively, from a given register and for a given byte. -/

namespace Sys2Proof.Machine

variable {a b c : Word} {x y : Byte} {B : Bytes}

theorem crcStep_xor (a b : Word) : crcStep (a ^^^ b) = crcStep a ^^^ crcStep b := by
  have hs : (a ^^^ b) >>> 1 = a >>> 1 ^^^ b >>> 1 := by
    apply BitVec.eq_of_getLsbD_eq
    intro i hi
    simp
  unfold crcStep
  rw [BitVec.getLsbD_xor, hs]
  generalize a >>> 1 = u, b >>> 1 = v, crcPoly = p
  have hpp : (u ^^^ p) ^^^ (v ^^^ p) = (u ^^^ v) ^^^ (p ^^^ p) := by ac_rfl
  cases a.getLsbD 0 <;> cases b.getLsbD 0
  · rfl
  · simp only [Bool.bne_true, Bool.not_false, if_true, Bool.false_eq_true, if_false]; ac_rfl
  · simp only [Bool.bne_false, if_true, Bool.false_eq_true, if_false]; ac_rfl
  · simp only [Bool.bne_true, Bool.not_true, if_true, Bool.false_eq_true, if_false, hpp]; simp

@[simp] theorem crcStep_zero : crcStep 0#32 = 0#32 := rfl

/-- Only the zero register becomes zero: the shifted register's top bit is clear and the polynomial's is set. -/
theorem eq_zero_of_crcStep (h : crcStep c = 0#32) : c = 0#32 := by
  unfold crcStep at h
  split at h
  · have h31 := congrArg (fun v => BitVec.getLsbD v 31) h
    simp [crcPoly] at h31
  · next h0 =>
    have hn := congrArg BitVec.toNat h
    simp only [BitVec.toNat_ushiftRight, Nat.shiftRight_eq_div_pow, BitVec.toNat_ofNat] at hn
    have hl : c.toNat % 2 = 0 := by
      have : c.getLsbD 0 = false := by simpa using h0
      rw [BitVec.getLsbD, Nat.testBit_zero] at this
      simpa using this
    apply BitVec.eq_of_toNat_eq
    simp only [BitVec.toNat_ofNat]
    omega

theorem xor_eq_zero_iff : a ^^^ b = 0#32 ↔ a = b := BitVec.xor_eq_zero_iff

theorem crcStep_injective (h : crcStep a = crcStep b) : a = b := by
  rw [← xor_eq_zero_iff] at h ⊢
  rw [← crcStep_xor] at h
  exact eq_zero_of_crcStep h

theorem crcSteps_xor (n : Nat) (a b : Word) : crcSteps n (a ^^^ b) = crcSteps n a ^^^ crcSteps n b := by
  induction n generalizing a b with
  | zero => rfl
  | succ n ih => rw [crcSteps, crcStep_xor, ih]; rfl

theorem crcSteps_injective (n : Nat) (h : crcSteps n a = crcSteps n b) : a = b := by
  induction n generalizing a b with
  | zero => exact h
  | succ n ih => exact crcStep_injective (ih h)

theorem crcSteps_add (m n : Nat) (c : Word) : crcSteps (m + n) c = crcSteps n (crcSteps m c) := by
  induction m generalizing c with
  | zero => simp [crcSteps]
  | succ m ih => rw [Nat.succ_add, crcSteps, crcSteps, ih]

/-- While the low bits are clear, a turn of the loop is only a shift. -/
theorem crcSteps_shift (n : Nat) (h : ∀ i < n, c.getLsbD i = false) : crcSteps n c = c >>> n := by
  induction n generalizing c with
  | zero => simp [crcSteps]
  | succ n ih =>
    have h1 : crcStep c = c >>> 1 := by unfold crcStep; rw [h 0 (by omega)]; rfl
    rw [crcSteps, h1, ih, ← BitVec.shiftRight_add, Nat.add_comm]
    intro i hi
    rw [BitVec.getLsbD_ushiftRight, Nat.add_comm]
    exact h _ (by omega)

/-- The same byte leaves different registers different. -/
theorem crcByte_injective_register (h : crcByte a x = crcByte b x) : a = b := by
  have h1 := crcSteps_injective 8 h
  have h2 := congrArg (· ^^^ x.setWidth 32) h1
  simpa [BitVec.xor_assoc] using h2

/-- Different bytes leave equal registers different. -/
theorem crcByte_injective_byte (h : crcByte c x = crcByte c y) : x = y := by
  have h1 := crcSteps_injective 8 h
  have h2 := congrArg (c ^^^ ·) h1
  simp only [← BitVec.xor_assoc, BitVec.xor_self, BitVec.zero_xor] at h2
  have h3 := congrArg (BitVec.setWidth 8) h2
  simpa using h3

theorem crcFold_append (c : Word) (A B : Bytes) : crcFold c (A ++ B) = crcFold (crcFold c A) B := by
  simp [crcFold, List.foldl_append]

theorem crcFold_injective_register (h : crcFold a B = crcFold b B) : a = b := by
  induction B generalizing a b with
  | nil => exact h
  | cons x B ih => exact crcByte_injective_register (ih h)

theorem crc32_injective_fold {A B : Bytes} (h : crc32 A = crc32 B) : crcFold crcInit A = crcFold crcInit B := by
  have := congrArg (· ^^^ crcFinal) h
  simpa [crc32, BitVec.xor_assoc] using this

end Sys2Proof.Machine
end

