-- ==== Sys2Proof/Laws/Operands.lean ====
section
/-! SUPPORT. Laws/Operands.lean: the big-endian readers and writers are inverse to each other (spec R26), a frame laid
out from its fields reads back as those fields (R51), and a datagram re-packed from the fields read from it is the
datagram itself (R74). -/

namespace Sys2Proof.Machine

@[simp] theorem beBytes_length (n v : Nat) : (beBytes n v).length = n := by
  induction n with
  | zero => rfl
  | succ n ih => simp [beBytes, ih]

theorem beNat_nil : beNat [] = 0 := rfl

/-- `beNat` of a longer string: the first byte carries the highest weight. -/
theorem beNat_foldl (B : Bytes) (acc : Nat) :
    B.foldl (fun acc b => acc * 256 + b.toNat) acc = acc * 256 ^ B.length + beNat B := by
  induction B generalizing acc with
  | nil => simp [beNat]
  | cons b B ih =>
    simp only [beNat, List.foldl_cons, List.length_cons]
    rw [ih, ih (0 * 256 + b.toNat)]
    ring

theorem beNat_cons (b : Byte) (B : Bytes) : beNat (b :: B) = b.toNat * 256 ^ B.length + beNat B := by
  have := beNat_foldl B (0 * 256 + b.toNat)
  simpa [beNat] using this

theorem beNat_append (A B : Bytes) : beNat (A ++ B) = beNat A * 256 ^ B.length + beNat B := by
  have := beNat_foldl B (beNat A)
  rw [← this]
  simp [beNat, List.foldl_append]

theorem beNat_lt (B : Bytes) : beNat B < 256 ^ B.length := by
  induction B with
  | nil => simp [beNat]
  | cons b B ih =>
    rw [beNat_cons, List.length_cons, Nat.pow_succ]
    have hb : b.toNat ≤ 255 := by have := b.isLt; omega
    calc b.toNat * 256 ^ B.length + beNat B
        < b.toNat * 256 ^ B.length + 256 ^ B.length := by omega
      _ = (b.toNat + 1) * 256 ^ B.length := by ring
      _ ≤ 256 * 256 ^ B.length := Nat.mul_le_mul_right _ (by omega)
      _ = 256 ^ B.length * 256 := by ring

/-- Writing a number big-endian and reading it back. -/
theorem beNat_beBytes (n v : Nat) : beNat (beBytes n v) = v % 256 ^ n := by
  induction n with
  | zero => simp [beBytes, beNat_nil, Nat.mod_one]
  | succ n ih =>
    rw [beBytes, beNat_cons, ih, beBytes_length, BitVec.toNat_ofNat, Nat.shiftRight_eq_div_pow, Nat.pow_mul,
      show (2 : Nat) ^ 8 = 256 from rfl, Nat.pow_succ, Nat.mod_mul, Nat.mul_comm (256 ^ n), Nat.add_comm]

/-- Reading a byte string as a number and writing it back. -/
theorem beBytes_beNat (B : Bytes) : beBytes B.length (beNat B) = B := by
  induction B with
  | nil => rfl
  | cons b B ih =>
    have hlt := beNat_lt B
    have hpos : 0 < 256 ^ B.length := Nat.pow_pos (by decide)
    have hs : beNat (b :: B) >>> (8 * B.length) = b.toNat := by
      rw [beNat_cons, Nat.shiftRight_eq_div_pow, Nat.pow_mul, show (2 : Nat) ^ 8 = 256 from rfl,
        Nat.mul_comm, Nat.mul_add_div hpos, Nat.div_eq_of_lt hlt, Nat.add_zero]
    have hm : ∀ n v w : Nat, beBytes n (w * 256 ^ n + v) = beBytes n v := by
      intro n
      induction n with
      | zero => intros; rfl
      | succ n ihn =>
        intro v w
        have e : w * 256 ^ (n + 1) + v = (w * 256) * 256 ^ n + v := by ring
        rw [beBytes, beBytes, e, ihn]
        congr 1
        apply BitVec.eq_of_toNat_eq
        have hn : 0 < 256 ^ n := Nat.pow_pos (by decide)
        rw [BitVec.toNat_ofNat, BitVec.toNat_ofNat, Nat.shiftRight_eq_div_pow, Nat.shiftRight_eq_div_pow,
          Nat.pow_mul, show (2 : Nat) ^ 8 = 256 from rfl, Nat.mul_comm (w * 256), Nat.mul_add_div hn]
        omega
    rw [List.length_cons, beBytes, hs, beNat_cons, hm, ih]
    simp

@[simp] theorem be16_length (v : Nat) : (be16 v).length = 2 := beBytes_length 2 v
@[simp] theorem be32_length (v : Word) : (be32 v).length = 4 := beBytes_length 4 v.toNat

theorem beNat_be16 (v : Nat) : beNat (be16 v) = v % 65536 := beNat_beBytes 2 v

theorem beNat_be32 (v : Word) : beNat (be32 v) = v.toNat := by
  rw [be32, beNat_beBytes, Nat.mod_eq_of_lt]
  exact v.isLt

/-- The four bytes of a 32-bit word, written out. -/
theorem be32_eq (v : Word) : be32 v =
    [BitVec.ofNat 8 (v.toNat >>> 24), BitVec.ofNat 8 (v.toNat >>> 16), BitVec.ofNat 8 (v.toNat >>> 8),
      BitVec.ofNat 8 (v.toNat >>> 0)] := rfl

/-- A fixed 32-bit operand of a command reads back. -/
theorem word4_be32 (v : Word) : word4 (BitVec.ofNat 8 (v.toNat >>> 24)) (BitVec.ofNat 8 (v.toNat >>> 16))
    (BitVec.ofNat 8 (v.toNat >>> 8)) (BitVec.ofNat 8 (v.toNat >>> 0)) = v := by
  rw [word4, ← be32_eq, beNat_be32, BitVec.ofNat_toNat, BitVec.setWidth_eq]

/-- A field that starts after `A` and is exactly `M`. -/
theorem memRead_append (A M R : Bytes) {off n : Nat} (ha : A.length = off) (hm : M.length = n) :
    memRead (A ++ M ++ R) off n = beNat M := by
  subst ha hm
  simp [memRead, slice]

section layout
variable (ty : Byte) (seq ck : Word) (form : Form) (len : Nat) (payload : Bytes)

/-- How long the header of a form is (R41, R42). -/
def headerLength : Form → Nat
  | .normal => hdrNormal
  | .terminal _ => hdrTerminal

@[simp] theorem header_length : (header ty seq len ck form).length = headerLength form := by
  cases form <;> simp [header, formBytes, headerLength, hdrNormal, hdrTerminal]

/-- The total length of a frame (R40). -/
@[simp] theorem layFrame_length : (layFrame ty seq ck form payload).length = headerLength form + payload.length := by
  simp [layFrame]

theorem headerLength_ge : minFrame ≤ headerLength form := by
  cases form <;> simp [headerLength, minFrame, hdrNormal, hdrTerminal]

/-- The fields before the checksum, the checksum, and what follows it. -/
theorem layFrame_split : layFrame ty seq ck form payload =
    (be16 magic.toNat ++ [version, ty] ++ be32 seq ++ be16 payload.length) ++ be32 ck ++
      (formBytes form ++ payload) := by
  simp [layFrame, header]

theorem layFrame_magic : memRead (layFrame ty seq ck form payload) 0 2 = magic.toNat := by
  have := memRead_append [] (be16 magic.toNat)
    ([version, ty] ++ be32 seq ++ be16 payload.length ++ be32 ck ++ (formBytes form ++ payload)) rfl (be16_length _)
  simpa [layFrame, header, beNat_be16, magic] using this

theorem layFrame_version : memRead (layFrame ty seq ck form payload) 2 1 = version.toNat := by
  have := memRead_append (be16 magic.toNat) [version]
    ([ty] ++ be32 seq ++ be16 payload.length ++ be32 ck ++ (formBytes form ++ payload)) (be16_length _) rfl
  simpa [layFrame, header, beNat_cons, beNat_nil] using this

theorem layFrame_type : read8 (layFrame ty seq ck form payload) 3 = ty := by
  have := memRead_append (be16 magic.toNat ++ [version]) [ty]
    (be32 seq ++ be16 payload.length ++ be32 ck ++ (formBytes form ++ payload)) (off := 3) (n := 1) (by simp) rfl
  unfold read8
  rw [show layFrame ty seq ck form payload = be16 magic.toNat ++ [version] ++ [ty] ++
    (be32 seq ++ be16 payload.length ++ be32 ck ++ (formBytes form ++ payload)) by simp [layFrame, header], this]
  simp [beNat_cons, beNat_nil]

theorem layFrame_seq : read32 (layFrame ty seq ck form payload) 4 = seq := by
  have := memRead_append (be16 magic.toNat ++ [version, ty]) (be32 seq)
    (be16 payload.length ++ be32 ck ++ (formBytes form ++ payload)) (off := 4) (by simp) (be32_length _)
  unfold read32
  rw [show layFrame ty seq ck form payload = be16 magic.toNat ++ [version, ty] ++ be32 seq ++
    (be16 payload.length ++ be32 ck ++ (formBytes form ++ payload)) by simp [layFrame, header], this, beNat_be32]
  simp

theorem layFrame_len (h : payload.length ≤ maxPayload) :
    memRead (layFrame ty seq ck form payload) 8 2 = payload.length := by
  have := memRead_append (be16 magic.toNat ++ [version, ty] ++ be32 seq) (be16 payload.length)
    (be32 ck ++ (formBytes form ++ payload)) (off := 8) (by simp) (be16_length _)
  rw [show layFrame ty seq ck form payload = be16 magic.toNat ++ [version, ty] ++ be32 seq ++ be16 payload.length ++
    (be32 ck ++ (formBytes form ++ payload)) by simp [layFrame, header], this, beNat_be16, Nat.mod_eq_of_lt]
  simp only [maxPayload] at h
  omega

theorem layFrame_checksum : read32 (layFrame ty seq ck form payload) 10 = ck := by
  have := memRead_append (be16 magic.toNat ++ [version, ty] ++ be32 seq ++ be16 payload.length) (be32 ck)
    (formBytes form ++ payload) (off := 10) (by simp) (be32_length _)
  unfold read32
  rw [layFrame_split, this, beNat_be32]
  simp

theorem layFrame_fileChecksum (fc : Word) : read32 (layFrame ty seq ck (.terminal fc) payload) 14 = fc := by
  have := memRead_append (be16 magic.toNat ++ [version, ty] ++ be32 seq ++ be16 payload.length ++ be32 ck) (be32 fc)
    payload (off := 14) (by simp) (be32_length _)
  unfold read32
  rw [show layFrame ty seq ck (.terminal fc) payload = be16 magic.toNat ++ [version, ty] ++ be32 seq ++
    be16 payload.length ++ be32 ck ++ be32 fc ++ payload by simp [layFrame, header, formBytes], this, beNat_be32]
  simp

theorem layFrame_payload : (layFrame ty seq ck form payload).drop (headerLength form) = payload := by
  rw [layFrame, List.drop_append]
  simp

/-- The form and the payload of a laid-out frame are the ones it was laid out from (R50). -/
theorem layFrame_formAt : formAt (layFrame ty seq ck form payload) payload.length = some (form, payload) := by
  unfold formAt
  have hp := layFrame_payload ty seq ck form payload
  cases form with
  | normal => rw [if_pos (by simp [headerLength])]; simpa [headerLength] using hp
  | terminal fc =>
    rw [if_neg (by simp [headerLength, hdrNormal, hdrTerminal]), if_pos (by simp [headerLength]), layFrame_fileChecksum]
    simpa [headerLength] using hp

theorem be32_zero : be32 0#32 = zeros 4 := rfl

/-- Zeroing the checksum field of a frame (R47). -/
theorem zeroedChecksum_layFrame :
    zeroedChecksum (layFrame ty seq ck form payload) = layFrame ty seq 0#32 form payload := by
  rw [layFrame_split, layFrame_split, zeroedChecksum, be32_zero]
  have h10 : (be16 magic.toNat ++ [version, ty] ++ be32 seq ++ be16 payload.length).length = 10 := by simp
  generalize hA : be16 magic.toNat ++ [version, ty] ++ be32 seq ++ be16 payload.length = A at h10 ⊢
  congr 1
  · congr 1
    rw [List.append_assoc, List.take_append_of_le_length (by omega), List.take_of_length_le (by omega)]
  · rw [List.drop_append]
    simp [h10]

/-- The checksum of a frame does not depend on what stands in its checksum field (R47). -/
theorem frameChecksum_layFrame :
    frameChecksum (layFrame ty seq ck form payload) = crc32 (layFrame ty seq 0#32 form payload) := by
  rw [frameChecksum, zeroedChecksum_layFrame]

/-- Rewriting the header with the real checksum (R64). -/
theorem memWrite_header : memWrite (header ty seq len 0#32 form) 10 4 ck.toNat = header ty seq len ck form := by
  have h10 : (be16 magic.toNat ++ [version, ty] ++ be32 seq ++ be16 len).length = 10 := by simp
  unfold memWrite header
  generalize hA : be16 magic.toNat ++ [version, ty] ++ be32 seq ++ be16 len = A at h10 ⊢
  rw [List.append_assoc A, List.take_append_of_le_length (by omega), List.take_of_length_le (by omega),
    List.drop_append, List.drop_eq_nil_of_le (by omega : A.length ≤ 10 + 4)]
  simp [h10, be32]

end layout

section spLayout
variable (ty reserved : Byte) (ck : Half) (len : Nat) (payload : Bytes)

@[simp] theorem spHeader_length : (spHeader ty reserved len ck).length = spHdr := by simp [spHeader, spHdr]

@[simp] theorem laySpFrame_length : (laySpFrame ty reserved ck payload).length = spHdr + payload.length := by
  simp [laySpFrame]

theorem laySpFrame_magic : memRead (laySpFrame ty reserved ck payload) 0 2 = magic.toNat := by
  have := memRead_append [] (be16 magic.toNat)
    ([version, ty, reserved] ++ be16 payload.length ++ be16 ck.toNat ++ payload) rfl (be16_length _)
  simpa [laySpFrame, spHeader, beNat_be16, magic] using this

theorem laySpFrame_version : memRead (laySpFrame ty reserved ck payload) 2 1 = version.toNat := by
  have := memRead_append (be16 magic.toNat) [version]
    ([ty, reserved] ++ be16 payload.length ++ be16 ck.toNat ++ payload) (be16_length _) rfl
  simpa [laySpFrame, spHeader, beNat_cons, beNat_nil] using this

theorem laySpFrame_type : read8 (laySpFrame ty reserved ck payload) 3 = ty := by
  have := memRead_append (be16 magic.toNat ++ [version]) [ty]
    ([reserved] ++ be16 payload.length ++ be16 ck.toNat ++ payload) (off := 3) (n := 1) (by simp) rfl
  unfold read8
  rw [show laySpFrame ty reserved ck payload = be16 magic.toNat ++ [version] ++ [ty] ++
    ([reserved] ++ be16 payload.length ++ be16 ck.toNat ++ payload) by simp [laySpFrame, spHeader], this]
  simp [beNat_cons, beNat_nil]

theorem laySpFrame_reserved : read8 (laySpFrame ty reserved ck payload) 4 = reserved := by
  have := memRead_append (be16 magic.toNat ++ [version, ty]) [reserved]
    (be16 payload.length ++ be16 ck.toNat ++ payload) (off := 4) (n := 1) (by simp) rfl
  unfold read8
  rw [show laySpFrame ty reserved ck payload = be16 magic.toNat ++ [version, ty] ++ [reserved] ++
    (be16 payload.length ++ be16 ck.toNat ++ payload) by simp [laySpFrame, spHeader], this]
  simp [beNat_cons, beNat_nil]

theorem laySpFrame_len (h : payload.length ≤ spMaxPayload) :
    memRead (laySpFrame ty reserved ck payload) 5 2 = payload.length := by
  have := memRead_append (be16 magic.toNat ++ [version, ty, reserved]) (be16 payload.length)
    (be16 ck.toNat ++ payload) (off := 5) (by simp) (be16_length _)
  rw [show laySpFrame ty reserved ck payload = be16 magic.toNat ++ [version, ty, reserved] ++ be16 payload.length ++
    (be16 ck.toNat ++ payload) by simp [laySpFrame, spHeader], this, beNat_be16, Nat.mod_eq_of_lt]
  simp only [spMaxPayload] at h
  omega

theorem laySpFrame_checksum : read16 (laySpFrame ty reserved ck payload) 7 = ck := by
  have := memRead_append (be16 magic.toNat ++ [version, ty, reserved] ++ be16 payload.length) (be16 ck.toNat)
    payload (off := 7) (by simp) (be16_length _)
  unfold read16
  rw [show laySpFrame ty reserved ck payload = be16 magic.toNat ++ [version, ty, reserved] ++ be16 payload.length ++
    be16 ck.toNat ++ payload by simp [laySpFrame, spHeader], this, beNat_be16, Nat.mod_eq_of_lt ck.isLt]
  simp

theorem laySpFrame_payload : (laySpFrame ty reserved ck payload).drop spHdr = payload := by
  rw [laySpFrame, List.drop_append]
  simp

/-- Zeroing the checksum field of a single-packet frame (R118). -/
theorem spZeroedChecksum_laySpFrame :
    spZeroedChecksum (laySpFrame ty reserved ck payload) = laySpFrame ty reserved 0#16 payload := by
  have h7 : (be16 magic.toNat ++ [version, ty, reserved] ++ be16 payload.length).length = 7 := by simp
  unfold spZeroedChecksum laySpFrame spHeader
  generalize hA : be16 magic.toNat ++ [version, ty, reserved] ++ be16 payload.length = A at h7 ⊢
  rw [show be16 (0#16 : Half).toNat = zeros 2 from rfl, List.append_assoc A,
    List.take_append_of_le_length (by omega), List.take_of_length_le (by omega), List.drop_append,
    List.drop_eq_nil_of_le (by omega : A.length ≤ 9)]
  simp [h7]

theorem spChecksum_laySpFrame :
    spChecksum (laySpFrame ty reserved ck payload) = (crc32 (laySpFrame ty reserved 0#16 payload)).setWidth 16 := by
  rw [spChecksum, spZeroedChecksum_laySpFrame]

/-- Rewriting the single-packet header with the real checksum (R119). -/
theorem memWrite_spHeader :
    memWrite (spHeader ty reserved len 0#16) 7 2 ck.toNat = spHeader ty reserved len ck := by
  have h7 : (be16 magic.toNat ++ [version, ty, reserved] ++ be16 len).length = 7 := by simp
  unfold memWrite spHeader
  generalize hA : be16 magic.toNat ++ [version, ty, reserved] ++ be16 len = A at h7 ⊢
  rw [List.take_append_of_le_length (by omega), List.take_of_length_le (by omega),
    List.drop_append, List.drop_eq_nil_of_le (by omega : A.length ≤ 7 + 2)]
  simp [h7, be16]

end spLayout

section repack
variable {D : Bytes}

/-- Writing back the number read from a slice gives the slice. -/
theorem beBytes_memRead {off n : Nat} (h : off + n ≤ D.length) :
    beBytes n (memRead D off n) = slice D off (off + n) := by
  have hl : (slice D off (off + n)).length = n := by simp [slice]; omega
  have := beBytes_beNat (slice D off (off + n))
  rwa [hl] at this

theorem memRead_lt {off n : Nat} (h : off + n ≤ D.length) : memRead D off n < 256 ^ n := by
  have hl : (slice D off (off + n)).length = n := by simp [slice]; omega
  have := beNat_lt (slice D off (off + n))
  rwa [hl] at this

theorem read8_toNat {off : Nat} (h : off + 1 ≤ D.length) : (read8 D off).toNat = memRead D off 1 :=
  Nat.mod_eq_of_lt (memRead_lt h)

theorem read16_toNat {off : Nat} (h : off + 2 ≤ D.length) : (read16 D off).toNat = memRead D off 2 :=
  Nat.mod_eq_of_lt (memRead_lt h)

theorem read32_toNat {off : Nat} (h : off + 4 ≤ D.length) : (read32 D off).toNat = memRead D off 4 :=
  Nat.mod_eq_of_lt (memRead_lt h)

theorem be32_read32 {off : Nat} (h : off + 4 ≤ D.length) : be32 (read32 D off) = slice D off (off + 4) := by
  rw [be32, read32_toNat h, beBytes_memRead h]

theorem singleton_read8 {off : Nat} (h : off + 1 ≤ D.length) : [read8 D off] = slice D off (off + 1) := by
  rw [← beBytes_memRead h]
  simp [beBytes, read8]

/-- Neighbouring slices join. -/
theorem slice_append {i j k : Nat} (hij : i ≤ j) (hjk : j ≤ k) : slice D i j ++ slice D j k = slice D i k := by
  unfold slice
  rw [show k - i = (j - i) + (k - j) by omega, List.take_add, List.drop_drop, show i + (j - i) = j by omega]

theorem slice_append_drop {i j : Nat} (hij : i ≤ j) : slice D i j ++ D.drop j = D.drop i := by
  unfold slice
  conv_rhs => rw [← List.take_append_drop (j - i) (D.drop i)]
  rw [List.drop_drop, show i + (j - i) = j by omega]

/-- The bytes of a magic and a version that were read, and the type code. -/
theorem magic_version_bytes (h4 : 4 ≤ D.length) (hm : memRead D 0 2 = magic.toNat)
    (hv : memRead D 2 1 = version.toNat) : be16 magic.toNat ++ [version, read8 D 3] = slice D 0 4 := by
  have h1 : be16 magic.toNat = slice D 0 2 := by rw [← hm, be16, beBytes_memRead (by omega)]
  have h2 : [version] = slice D 2 3 := by
    rw [← singleton_read8 (by omega)]
    congr 1
    apply BitVec.eq_of_toNat_eq
    rw [read8_toNat (by omega), hv]
  rw [show [version, read8 D 3] = [version] ++ [read8 D 3] from rfl, h1, h2, singleton_read8 (by omega),
    ← List.append_assoc, slice_append (by omega) (by omega), slice_append (by omega) (by omega)]

theorem slice_zero_drop (n : Nat) : slice D 0 n ++ D.drop n = D := by
  have := slice_append_drop (D := D) (Nat.zero_le n)
  simpa using this

/-- A datagram whose length fits a form, re-packed from the fields read from it, is the datagram itself: "the re-packed
bytes equal the received ones" (R74). -/
theorem layFrame_repack {form : Form} {payload : Bytes} (hlen : minFrame ≤ D.length)
    (hm : memRead D 0 2 = magic.toNat) (hv : memRead D 2 1 = version.toNat)
    (hf : formAt D (memRead D 8 2) = some (form, payload)) :
    layFrame (read8 D 3) (read32 D 4) (read32 D 10) form payload = D ∧ payload.length = memRead D 8 2 := by
  simp only [minFrame, hdrNormal] at hlen
  have key : ∀ tail : Bytes, D.drop 14 = tail →
      be16 magic.toNat ++ [version, read8 D 3] ++ be32 (read32 D 4) ++ be16 (memRead D 8 2) ++ be32 (read32 D 10) ++
        tail = D := by
    intro tail ht
    rw [magic_version_bytes (by omega) hm hv, be32_read32 (by omega), be32_read32 (by omega), be16,
      beBytes_memRead (by omega), slice_append (by omega) (by omega), slice_append (by omega) (by omega),
      slice_append (by omega) (by omega), ← ht, slice_zero_drop]
  unfold formAt at hf
  split at hf
  · next hn =>
    cases hf
    have hp : (D.drop hdrNormal).length = memRead D 8 2 := by rw [List.length_drop]; omega
    refine ⟨?_, hp⟩
    rw [layFrame_split, hp]
    simpa [formBytes, hdrNormal] using key _ rfl
  · split at hf
    · next hn =>
      cases hf
      simp only [hdrTerminal] at hn
      have hp : (D.drop hdrTerminal).length = memRead D 8 2 := by
        rw [List.length_drop]; simp only [hdrTerminal]; omega
      refine ⟨?_, hp⟩
      rw [layFrame_split, hp, formBytes, be32_read32 (off := 14) (by omega), hdrTerminal, slice_append_drop (by omega)]
      exact key _ rfl
    · cases hf

/-- The same for a single-packet datagram. -/
theorem laySpFrame_repack (hm : memRead D 0 2 = magic.toNat) (hv : memRead D 2 1 = version.toNat)
    (hn : D.length = spHdr + memRead D 5 2) :
    laySpFrame (read8 D 3) (read8 D 4) (read16 D 7) (D.drop spHdr) = D := by
  simp only [spHdr] at hn
  have hp : (D.drop spHdr).length = memRead D 5 2 := by rw [List.length_drop]; simp only [spHdr]; omega
  unfold laySpFrame spHeader
  rw [hp, show [version, read8 D 3, read8 D 4] = [version, read8 D 3] ++ [read8 D 4] from rfl, ← List.append_assoc,
    magic_version_bytes (by omega) hm hv, singleton_read8 (by omega), be16, be16, read16_toNat (by omega),
    beBytes_memRead (by omega), beBytes_memRead (by omega), slice_append (by omega) (by omega),
    slice_append (by omega) (by omega), slice_append (by omega) (by omega), spHdr, slice_zero_drop]

end repack

end Sys2Proof.Machine
end

