-- ==== Sys2Proof/Laws/Codec.lean ====
section
/-! SUPPORT. Laws/Codec.lean: what the codec's functions do, said once each. A built frame is the laid-out frame with the
right checksum; a successful DECODE says everything about its datagram (spec R68); and a laid-out frame decodes or
fails by its checksum alone (R73). -/

namespace Sys2Proof.Machine

/-- The checksum of the frame with these fields (R47). -/
def checksumOf (ty : Byte) (seq : Word) (form : Form) (payload : Bytes) : Word :=
  crc32 (layFrame ty seq 0#32 form payload)

section chunked
variable {ty : Byte} {seq ck : Word} {form : Form} {payload D : Bytes} {fc : Option Word} {f : DecodedFrame}

theorem frameChecksum_lay : frameChecksum (layFrame ty seq ck form payload) = checksumOf ty seq form payload :=
  frameChecksum_layFrame ..

/-- ENCODE's frame (R64) is the layout of R41 or R42 with the checksum of R47. -/
theorem buildFrame_eq (seq : Word) (payload : Bytes) (ty : Byte) (fc : Option Word) :
    buildFrame seq payload ty fc = layFrame ty seq (checksumOf ty seq (formOf fc) payload) (formOf fc) payload := by
  unfold buildFrame
  simp only [memWrite_header]
  rfl

theorem encodeFrame_ok (h : payload.length ≤ maxPayload) :
    encodeFrame seq payload ty fc = .ok (buildFrame seq payload ty fc) := if_neg (by omega)

theorem encodeFrame_error (h : maxPayload < payload.length) :
    encodeFrame seq payload ty fc = .error .payloadTooLarge := if_pos h

/-- What a successful DECODE says of its datagram (R68): every check of R49 passed, and the fields are those read. -/
theorem decodeFrame_ok (h : decodeFrame D = .ok f) :
    minFrame ≤ D.length ∧ memRead D 0 2 = magic.toNat ∧ memRead D 2 1 = version.toNat ∧
      memRead D 8 2 ≤ maxPayload ∧ formAt D (memRead D 8 2) = some (f.form, f.payload) ∧
      frameChecksum D = read32 D 10 ∧ f.ty = read8 D 3 ∧ f.seq = read32 D 4 := by
  unfold decodeFrame at h
  split at h; · cases h
  split at h; · cases h
  split at h; · cases h
  split at h; · cases h
  split at h
  · cases h
  · next form payload hf =>
    split at h
    · cases h
    · cases h
      refine ⟨by omega, by simp_all, by simp_all, by omega, hf, by simp_all, rfl, rfl⟩

/-- The converse: a datagram that passes every check decodes to the fields read. -/
theorem decodeFrame_of_checks (hn : minFrame ≤ D.length) (hm : memRead D 0 2 = magic.toNat)
    (hv : memRead D 2 1 = version.toNat) (hl : memRead D 8 2 ≤ maxPayload)
    (hf : formAt D (memRead D 8 2) = some (form, payload)) :
    decodeFrame D = if frameChecksum D ≠ read32 D 10 then .error .checksumMismatch
      else .ok ⟨read8 D 3, read32 D 4, payload, form⟩ := by
  unfold decodeFrame
  rw [if_neg (by omega), if_neg (by simp [hm]), if_neg (by simp [hv]), if_neg (by omega), hf]

/-- A decoded frame's payload fits a frame (R75). -/
theorem decodeFrame_payload_length (h : decodeFrame D = .ok f) : f.payload.length ≤ maxPayload := by
  obtain ⟨hn, hm, hv, hl, hf, -, -, -⟩ := decodeFrame_ok h
  rw [(layFrame_repack hn hm hv hf).2]
  exact hl

/-- A frame laid out from its fields decodes to them, or fails by its checksum alone (R73). -/
theorem decodeFrame_layFrame (h : payload.length ≤ maxPayload) :
    decodeFrame (layFrame ty seq ck form payload) =
      if checksumOf ty seq form payload ≠ ck then .error .checksumMismatch else .ok ⟨ty, seq, payload, form⟩ := by
  have hl := layFrame_len ty seq ck form payload h
  have hn : minFrame ≤ (layFrame ty seq ck form payload).length := by
    rw [layFrame_length]; exact Nat.le_add_right_of_le (headerLength_ge form)
  rw [decodeFrame_of_checks (form := form) (payload := payload) hn (layFrame_magic ..) (layFrame_version ..)
    (by rw [hl]; exact h) (by rw [hl]; exact layFrame_formAt ..), frameChecksum_lay, layFrame_checksum, layFrame_type,
    layFrame_seq]

end chunked

section singlePacket
variable {ty reserved : Byte} {ck : Half} {payload D : Bytes} {checked : Bool} {f : Byte × Bytes}

/-- The truncated checksum of the single-packet frame with these fields (R118). -/
def spChecksumOf (ty reserved : Byte) (payload : Bytes) : Half :=
  (crc32 (laySpFrame ty reserved 0#16 payload)).setWidth 16

/-- SP_ENCODE's frame (R119) is the layout of R117 with a zero reserved byte and the checksum of R118. -/
theorem spBuildFrame_eq (payload : Bytes) (ty : Byte) :
    spBuildFrame payload ty = laySpFrame ty 0#8 (spChecksumOf ty 0#8 payload) payload := by
  unfold spBuildFrame
  simp only [memWrite_spHeader]
  rfl

theorem spEncodeFrame_ok (h : payload.length ≤ spMaxPayload) :
    spEncodeFrame payload ty = .ok (spBuildFrame payload ty) := if_neg (by omega)

theorem spEncodeFrame_error (h : spMaxPayload < payload.length) :
    spEncodeFrame payload ty = .error .payloadTooLarge := if_pos h

/-- What a successful SP_DECODE says of its datagram (R120). -/
theorem spDecodeFrame_ok (h : spDecodeFrame checked D = .ok f) :
    spHdr ≤ D.length ∧ memRead D 0 2 = magic.toNat ∧ memRead D 2 1 = version.toNat ∧
      (checked = true → read8 D 4 = 0#8) ∧ memRead D 5 2 ≤ spMaxPayload ∧ D.length = spHdr + memRead D 5 2 ∧
      spChecksum D = read16 D 7 ∧ f = (read8 D 3, D.drop spHdr) := by
  unfold spDecodeFrame at h
  split at h; · cases h
  split at h; · cases h
  split at h; · cases h
  split at h; · cases h
  split at h; · cases h
  split at h; · cases h
  split at h; · cases h
  cases h
  refine ⟨by omega, by simp_all, by simp_all, ?_, by omega, by simp_all, by simp_all, rfl⟩
  intro hc
  simp_all

/-- A single-packet frame laid out from its fields decodes to them or fails by its reserved byte or its checksum. -/
theorem spDecodeFrame_laySpFrame (h : payload.length ≤ spMaxPayload) :
    spDecodeFrame checked (laySpFrame ty reserved ck payload) =
      if checked && reserved != 0#8 then .error .reservedNotZero
      else if spChecksumOf ty reserved payload ≠ ck then .error .checksumMismatch else .ok (ty, payload) := by
  unfold spDecodeFrame
  rw [laySpFrame_magic, laySpFrame_version, laySpFrame_reserved, laySpFrame_len _ _ _ _ h, laySpFrame_type,
    laySpFrame_checksum, laySpFrame_payload, laySpFrame_length, spChecksum_laySpFrame, if_neg (by omega),
    if_neg (by simp), if_neg (by simp)]
  simp only [gt_iff_lt, Nat.not_lt.2 h, if_false, ne_eq, not_true_eq_false]
  rfl

end singlePacket

end Sys2Proof.Machine
end

