-- ==== Sys2Proof/Laws/State.lean ====
section
/-! SUPPORT. Laws/State.lean: one lemma per field for every shared update of the state, so that no proof unfolds a
record update. -/

namespace Sys2Proof.Machine

variable (s : State) (p : Peer) (b : Buffer) (r : Result) (acts : List Action) (k : ErrorKind)

@[simp] theorem respond_cfg : (s.respond r acts).cfg = s.cfg := rfl
@[simp] theorem respond_mem : (s.respond r acts).mem = s.mem := rfl
@[simp] theorem respond_sender : (s.respond r acts).sender = s.sender := rfl
@[simp] theorem respond_inbox : (s.respond r acts).inbox = s.inbox := rfl
@[simp] theorem respond_outbox : (s.respond r acts).outbox = s.outbox ++ [⟨r, acts⟩] := rfl

@[simp] theorem raise_cfg : (s.raise k).cfg = s.cfg := rfl
@[simp] theorem raise_mem : (s.raise k).mem = s.mem := rfl
@[simp] theorem raise_sender : (s.raise k).sender = s.sender := rfl
@[simp] theorem raise_inbox : (s.raise k).inbox = s.inbox := rfl
@[simp] theorem raise_outbox : (s.raise k).outbox = s.outbox ++ [⟨.err k, []⟩] := rfl

section answer
variable {α : Type} (v : Except ErrorKind α) (ok : α → Result)

/-- What an operation that returns `Ok(value)` or `Err(Kind)` puts into the outbox. -/
def answerResult : Result :=
  match v with
  | .ok a => ok a
  | .error k => .err k

theorem answer_eq : s.answer v ok = s.respond (answerResult v ok) [] := by
  cases v <;> rfl

@[simp] theorem answer_cfg : (s.answer v ok).cfg = s.cfg := by cases v <;> rfl
@[simp] theorem answer_mem : (s.answer v ok).mem = s.mem := by cases v <;> rfl
@[simp] theorem answer_sender : (s.answer v ok).sender = s.sender := by cases v <;> rfl
@[simp] theorem answer_inbox : (s.answer v ok).inbox = s.inbox := by cases v <;> rfl
@[simp] theorem answer_outbox : (s.answer v ok).outbox = s.outbox ++ [⟨answerResult v ok, []⟩] := by
  cases v <;> rfl

end answer

@[simp] theorem setBuffer_cfg : (s.setBuffer p b).cfg = s.cfg := by unfold State.setBuffer; split <;> rfl
@[simp] theorem setBuffer_sender : (s.setBuffer p b).sender = s.sender := by unfold State.setBuffer; split <;> rfl
@[simp] theorem setBuffer_inbox : (s.setBuffer p b).inbox = s.inbox := by unfold State.setBuffer; split <;> rfl
@[simp] theorem setBuffer_outbox : (s.setBuffer p b).outbox = s.outbox := by unfold State.setBuffer; split <;> rfl

@[simp] theorem clearBuffer_cfg : (s.clearBuffer p).cfg = s.cfg := setBuffer_cfg s p []
@[simp] theorem clearBuffer_sender : (s.clearBuffer p).sender = s.sender := setBuffer_sender s p []
@[simp] theorem clearBuffer_inbox : (s.clearBuffer p).inbox = s.inbox := setBuffer_inbox s p []
@[simp] theorem clearBuffer_outbox : (s.clearBuffer p).outbox = s.outbox := setBuffer_outbox s p []

section putChunk
variable (seq : Word) (payload : Bytes)

@[simp] theorem putChunk_cfg : (s.putChunk p seq payload).cfg = s.cfg := setBuffer_cfg ..
@[simp] theorem putChunk_sender : (s.putChunk p seq payload).sender = s.sender := setBuffer_sender ..
@[simp] theorem putChunk_inbox : (s.putChunk p seq payload).inbox = s.inbox := setBuffer_inbox ..
@[simp] theorem putChunk_outbox : (s.putChunk p seq payload).outbox = s.outbox := setBuffer_outbox ..

end putChunk

@[simp] theorem resetBuffers_cfg : s.resetBuffers.cfg = s.cfg := rfl
@[simp] theorem resetBuffers_mem : s.resetBuffers.mem = emptyMemory := rfl
@[simp] theorem resetBuffers_sender : s.resetBuffers.sender = s.sender := rfl
@[simp] theorem resetBuffers_inbox : s.resetBuffers.inbox = s.inbox := rfl
@[simp] theorem resetBuffers_outbox : s.resetBuffers.outbox = s.outbox := rfl

section endWait
variable (t : Transfer) (i : Nat)

@[simp] theorem endWait_cfg : (s.endWait t i r acts).cfg = s.cfg := rfl
@[simp] theorem endWait_mem : (s.endWait t i r acts).mem = s.mem := rfl
@[simp] theorem endWait_sender : (s.endWait t i r acts).sender = t.afterWait i := rfl
@[simp] theorem endWait_inbox : (s.endWait t i r acts).inbox = s.inbox := rfl
@[simp] theorem endWait_outbox :
    (s.endWait t i r acts).outbox = s.outbox ++ [⟨r, acts ++ completionReport (t.afterWait i)⟩] := rfl

end endWait

/-- A peer's buffer depends on the parameters and the store alone. -/
theorem buffer_congr {s t : State} (hc : t.cfg = s.cfg) (hm : t.mem = s.mem) (p : Peer) : t.buffer p = s.buffer p := by
  simp [State.buffer, hc, hm]

@[simp] theorem respond_buffer : (s.respond r acts).buffer p = s.buffer p := rfl
@[simp] theorem raise_buffer : (s.raise k).buffer p = s.buffer p := rfl
@[simp] theorem endWait_buffer (t : Transfer) (i : Nat) : (s.endWait t i r acts).buffer p = s.buffer p := rfl

end Sys2Proof.Machine
end

