-- ==== Sys2Proof/Laws/Store.lean ====
section
/-! SUPPORT. Laws/Store.lean: the keyed stores (Machine/Ops.lean). Read after write, frames, the canonical form kept by
every operation, and the same facts for a peer's buffer. -/

namespace Sys2Proof.Machine

section assoc
variable {α : Type} {k j lo : Nat} {v w : α} {l : List (Nat × α)}

@[simp] theorem assocGet_nil : assocGet k ([] : List (Nat × α)) = none := rfl

theorem assocGet_cons (e : Nat × α) : assocGet k (e :: l) = if k = e.1 then some e.2 else assocGet k l := rfl

/-- A read after a write to the same key gives the value written. -/
theorem assocGet_put_same : assocGet k (assocPut k v l) = some v := by
  induction l with
  | nil => simp [assocPut, assocGet]
  | cons e l ih =>
    obtain ⟨k', v'⟩ := e
    by_cases h1 : k < k'
    · simp [assocPut, h1, assocGet]
    · by_cases h2 : k = k'
      · simp [assocPut, h2, assocGet]
      · simp [assocPut, h1, h2, assocGet, ih]

/-- A write leaves every other key alone. -/
theorem assocGet_put_other (h : j ≠ k) : assocGet j (assocPut k v l) = assocGet j l := by
  induction l with
  | nil => simp [assocPut, assocGet, h]
  | cons e l ih =>
    obtain ⟨k', v'⟩ := e
    by_cases h1 : k < k'
    · simp [assocPut, h1, assocGet, h]
    · by_cases h2 : k = k'
      · subst h2; simp [assocPut, assocGet, h]
      · simp [assocPut, h1, h2, assocGet, ih]

theorem assocPut_ne_nil : assocPut k v l ≠ [] := by
  cases l with
  | nil => simp [assocPut]
  | cons e l => obtain ⟨k', v'⟩ := e; unfold assocPut; split <;> [simp; (split <;> simp)]

/-- The last write to a key wins, and a write is idempotent. -/
theorem assocPut_put_same : assocPut k w (assocPut k v l) = assocPut k w l := by
  induction l with
  | nil => simp [assocPut]
  | cons e l ih =>
    obtain ⟨k', v'⟩ := e
    by_cases h1 : k < k'
    · simp [assocPut, h1]
    · by_cases h2 : k = k'
      · simp [assocPut, h2]
      · simp [assocPut, h1, h2, ih]

/-- Writes to different keys commute. -/
theorem assocPut_put_comm (h : j ≠ k) : assocPut j w (assocPut k v l) = assocPut k v (assocPut j w l) := by
  induction l with
  | nil =>
    rcases Nat.lt_or_gt_of_ne h with h1 | h1
    · simp [assocPut, h1, h.symm, Nat.not_lt_of_gt h1]
    · simp [assocPut, h1, h, Nat.not_lt_of_gt h1]
  | cons e l ih =>
    obtain ⟨k', v'⟩ := e
    rcases Nat.lt_trichotomy j k' with hj | hj | hj <;> rcases Nat.lt_trichotomy k k' with hk | hk | hk <;>
      rcases Nat.lt_or_gt_of_ne h with h1 | h1 <;>
      first
      | omega
      | (simp only [assocPut]
         repeat' split
         all_goals first | omega | rfl | (simp only [assocPut]; repeat' split) 
         all_goals first | omega | rfl | simp_all)

/-- How long the list is after a write: one longer exactly when the key was absent. -/
theorem assocPut_length_le : (assocPut k v l).length ≤ l.length + 1 := by
  induction l with
  | nil => simp [assocPut]
  | cons e l ih =>
    obtain ⟨k', v'⟩ := e
    unfold assocPut
    split
    · simp
    · split
      · simp
      · simp; omega

theorem assocPut_length_of_present (h : (assocGet k l).isSome) (hr : assocRising lo l = true) :
    (assocPut k v l).length = l.length := by
  induction l generalizing lo with
  | nil => simp at h
  | cons e l ih =>
    obtain ⟨k', v'⟩ := e
    simp only [assocRising, Bool.and_eq_true, decide_eq_true_eq] at hr
    by_cases h2 : k = k'
    · simp [assocPut, h2]
    · rw [assocGet_cons, if_neg h2] at h
      have : ¬ k < k' := by
        intro hlt
        have aux : ∀ (m : List (Nat × α)) (lo : Nat), assocRising lo m = true → k < lo → assocGet k m = none := by
          intro m
          induction m with
          | nil => intros; rfl
          | cons e m ihm =>
            intro lo hm hlo
            simp only [assocRising, Bool.and_eq_true, decide_eq_true_eq] at hm
            rw [assocGet_cons, if_neg (by omega), ihm _ hm.2 (by omega)]
        rw [aux l (k' + 1) hr.2 (by omega)] at h
        simp at h
      simp [assocPut, this, h2, ih h hr.2]

/-- A key below every listed key is absent. -/
theorem assocGet_below (hr : assocRising lo l = true) (h : k < lo) : assocGet k l = none := by
  induction l generalizing lo with
  | nil => rfl
  | cons e l ih =>
    obtain ⟨k', v'⟩ := e
    simp only [assocRising, Bool.and_eq_true, decide_eq_true_eq] at hr
    rw [assocGet_cons, if_neg (by simp only; omega), ih hr.2 (by omega)]

theorem assocRising_mono {lo' : Nat} (hr : assocRising lo l = true) (h : lo' ≤ lo) : assocRising lo' l = true := by
  cases l with
  | nil => rfl
  | cons e l =>
    simp only [assocRising, Bool.and_eq_true, decide_eq_true_eq] at hr ⊢
    exact ⟨by omega, hr.2⟩

/-- A write keeps the keys rising. -/
theorem assocRising_put (hr : assocRising lo l = true) (h : lo ≤ k) : assocRising lo (assocPut k v l) = true := by
  induction l generalizing lo with
  | nil => simp [assocPut, assocRising, h]
  | cons e l ih =>
    obtain ⟨k', v'⟩ := e
    simp only [assocRising, Bool.and_eq_true, decide_eq_true_eq] at hr
    by_cases h1 : k < k'
    · simp only [assocPut, h1, if_true, assocRising, Bool.and_eq_true, decide_eq_true_eq]
      exact ⟨h, by omega, hr.2⟩
    · by_cases h2 : k = k'
      · subst h2; simp [assocPut, assocRising, hr]
      · simp only [assocPut, h1, h2, if_false, assocRising, Bool.and_eq_true, decide_eq_true_eq]
        exact ⟨hr.1, ih hr.2 (by omega)⟩

/-- An erasure keeps the keys rising. -/
theorem assocRising_erase (hr : assocRising lo l = true) : assocRising lo (assocErase k l) = true := by
  induction l generalizing lo with
  | nil => rfl
  | cons e l ih =>
    obtain ⟨k', v'⟩ := e
    simp only [assocRising, Bool.and_eq_true, decide_eq_true_eq] at hr
    by_cases h : k = k'
    · simp only [assocErase, h, if_true]
      exact assocRising_mono hr.2 (by omega)
    · simp only [assocErase, h, if_false, assocRising, Bool.and_eq_true, decide_eq_true_eq]
      exact ⟨hr.1, ih hr.2⟩

theorem assocGet_erase_same (hr : assocRising lo l = true) : assocGet k (assocErase k l) = none := by
  induction l generalizing lo with
  | nil => rfl
  | cons e l ih =>
    obtain ⟨k', v'⟩ := e
    simp only [assocRising, Bool.and_eq_true, decide_eq_true_eq] at hr
    by_cases h : k = k'
    · simp only [assocErase, h, if_true]
      exact assocGet_below hr.2 (by omega)
    · simp only [assocErase, h, if_false, assocGet_cons]
      exact ih hr.2

theorem assocGet_erase_other (h : j ≠ k) : assocGet j (assocErase k l) = assocGet j l := by
  induction l with
  | nil => rfl
  | cons e l ih =>
    obtain ⟨k', v'⟩ := e
    by_cases hk : k = k'
    · subst hk; simp [assocErase, assocGet_cons, h]
    · simp [assocErase, hk, assocGet_cons, ih]

theorem mem_assocPut {e : Nat × α} (h : e ∈ assocPut k v l) : e = (k, v) ∨ e ∈ l := by
  induction l with
  | nil => simpa [assocPut] using h
  | cons x l ih =>
    obtain ⟨k', v'⟩ := x
    unfold assocPut at h
    split at h
    · simpa using h
    · split at h
      · rcases List.mem_cons.1 h with h | h
        · exact .inl h
        · exact .inr (List.mem_cons_of_mem _ h)
      · rcases List.mem_cons.1 h with h | h
        · exact .inr (h ▸ List.mem_cons_self)
        · rcases ih h with h | h
          · exact .inl h
          · exact .inr (List.mem_cons_of_mem _ h)

theorem mem_assocErase {e : Nat × α} (h : e ∈ assocErase k l) : e ∈ l := by
  induction l with
  | nil => simp [assocErase] at h
  | cons x l ih =>
    obtain ⟨k', v'⟩ := x
    unfold assocErase at h
    split at h
    · exact List.mem_cons_of_mem _ h
    · rcases List.mem_cons.1 h with h | h
      · exact h ▸ List.mem_cons_self
      · exact List.mem_cons_of_mem _ (ih h)

theorem mem_of_assocGet (h : assocGet k l = some v) : (k, v) ∈ l := by
  induction l with
  | nil => simp at h
  | cons e l ih =>
    rw [assocGet_cons] at h
    split at h
    · next hk => cases h; rw [hk]; exact List.mem_cons_self
    · exact List.mem_cons_of_mem _ (ih h)

/-- In a rising list a listed pair is what its key reads as. -/
theorem assocGet_of_mem (hr : assocRising lo l = true) (h : (k, v) ∈ l) : assocGet k l = some v := by
  induction l generalizing lo with
  | nil => simp at h
  | cons e l ih =>
    obtain ⟨k', v'⟩ := e
    simp only [assocRising, Bool.and_eq_true, decide_eq_true_eq] at hr
    rcases List.mem_cons.1 h with he | ht
    · cases he; simp [assocGet_cons]
    · have hne : k ≠ k' := by
        rintro rfl
        have := assocGet_below (k := k) hr.2 (by omega)
        rw [ih hr.2 ht] at this
        simp at this
      rw [assocGet_cons, if_neg hne, ih hr.2 ht]

/-- The keys of a rising list rise strictly. -/
theorem assocRising_pairwise (hr : assocRising lo l = true) :
    (l.map Prod.fst).Pairwise (· < ·) ∧ ∀ k ∈ l.map Prod.fst, lo ≤ k := by
  induction l generalizing lo with
  | nil => simp
  | cons e l ih =>
    obtain ⟨k', v'⟩ := e
    simp only [assocRising, Bool.and_eq_true, decide_eq_true_eq] at hr
    obtain ⟨hp, hlo⟩ := ih hr.2
    refine ⟨List.pairwise_cons.2 ⟨fun k hk => ?_, hp⟩, fun k hk => ?_⟩
    · have := hlo k hk; omega
    · rcases List.mem_cons.1 hk with rfl | hk
      · exact hr.1
      · have := hlo k hk; omega

end assoc

section peers
variable {rbs : List (Nat × Buffer)} {p q : Peer} {b : Buffer}

theorem peer_id_ne (h : q ≠ p) : q.id ≠ p.id := fun he => h (by cases q; cases p; simp_all)

theorem peerBuffer_set_same (hr : assocRising 0 rbs = true) : peerBuffer (setPeerBuffer rbs p b) p = b := by
  unfold peerBuffer setPeerBuffer
  split
  · next h => rw [assocGet_erase_same hr]; simpa using h.symm
  · rw [assocGet_put_same]; rfl

/-- Writing a buffer that is not empty is read back whatever the list is. -/
theorem peerBuffer_set_same_of_ne_nil (hb : b ≠ []) : peerBuffer (setPeerBuffer rbs p b) p = b := by
  unfold peerBuffer setPeerBuffer
  rw [if_neg (by simpa using hb), assocGet_put_same]
  rfl

theorem peerBuffer_set_other (h : q ≠ p) : peerBuffer (setPeerBuffer rbs p b) q = peerBuffer rbs q := by
  unfold peerBuffer setPeerBuffer
  split
  · rw [assocGet_erase_other (peer_id_ne h)]
  · rw [assocGet_put_other (peer_id_ne h)]

theorem mem_setPeerBuffer {e : Nat × Buffer} (h : e ∈ setPeerBuffer rbs p b) :
    (e = (p.id, b) ∧ b ≠ []) ∨ e ∈ rbs := by
  unfold setPeerBuffer at h
  split at h
  · exact .inr (mem_assocErase h)
  · next hb => exact (mem_assocPut h).imp (fun he => ⟨he, by simpa using hb⟩) id

theorem assocRising_setPeerBuffer (hr : assocRising 0 rbs = true) : assocRising 0 (setPeerBuffer rbs p b) = true := by
  unfold setPeerBuffer
  split
  · exact assocRising_erase hr
  · exact assocRising_put hr (Nat.zero_le _)

end peers

section wellFormed
variable {b : Buffer} {m : Memory} {s : State} {p q : Peer} {seq : Word} {payload : Bytes}

theorem bufferWf_iff : bufferWf b = true ↔
    assocRising 0 b = true ∧ ∀ e ∈ b, e.1 < 2 ^ 32 ∧ e.2.length ≤ maxPayload := by
  simp [bufferWf, List.all_eq_true]

theorem bufferWf_nil : bufferWf [] = true := rfl

theorem bufferWf_put (hb : bufferWf b = true) (hp : payload.length ≤ maxPayload) :
    bufferWf (assocPut seq.toNat payload b) = true := by
  rw [bufferWf_iff] at hb ⊢
  refine ⟨assocRising_put hb.1 (Nat.zero_le _), fun e he => ?_⟩
  rcases mem_assocPut he with rfl | he
  · exact ⟨seq.isLt, hp⟩
  · exact hb.2 e he

theorem memory_wf_iff : m.wf = true ↔
    bufferWf m.rb = true ∧ assocRising 0 m.rbs = true ∧ ∀ e ∈ m.rbs, bufferWf e.2 = true ∧ e.2 ≠ [] := by
  simp [Memory.wf, List.all_eq_true, and_assoc]

theorem emptyMemory_wf : emptyMemory.wf = true := rfl

theorem peerBuffer_wf (hm : m.wf = true) (p : Peer) : bufferWf (peerBuffer m.rbs p) = true := by
  rw [memory_wf_iff] at hm
  unfold peerBuffer
  cases h : assocGet p.id m.rbs with
  | none => rfl
  | some b => exact (hm.2.2 _ (mem_of_assocGet h)).1

/-- The buffer an operation works on is canonical. -/
theorem buffer_wf (hm : s.mem.wf = true) (p : Peer) : bufferWf (s.buffer p) = true := by
  unfold State.buffer
  split
  · exact peerBuffer_wf hm p
  · exact (memory_wf_iff.1 hm).1

/-- Writing a canonical buffer back keeps the store canonical. -/
theorem setBuffer_wf (hm : s.mem.wf = true) (hb : bufferWf b = true) : (s.setBuffer p b).mem.wf = true := by
  rw [memory_wf_iff] at hm
  unfold State.setBuffer
  split
  · refine memory_wf_iff.2 ⟨hm.1, assocRising_setPeerBuffer hm.2.1, fun e he => ?_⟩
    rcases mem_setPeerBuffer he with ⟨rfl, hne⟩ | he
    · exact ⟨hb, hne⟩
    · exact hm.2.2 e he
  · exact memory_wf_iff.2 ⟨hb, hm.2⟩

/-- RB_STORE's write keeps the store canonical. -/
theorem putChunk_wf (hm : s.mem.wf = true) (hp : payload.length ≤ maxPayload) :
    (s.putChunk p seq payload).mem.wf = true :=
  setBuffer_wf hm (bufferWf_put (buffer_wf hm p) hp)

/-- Clearing keeps the store canonical. -/
theorem clearBuffer_wf (hm : s.mem.wf = true) : (s.clearBuffer p).mem.wf = true := setBuffer_wf hm bufferWf_nil

/-- The reset event leaves a canonical store. -/
theorem resetBuffers_wf (s : State) : s.resetBuffers.mem.wf = true := rfl

end wellFormed

section buffers
variable {s : State} {p q : Peer} {b : Buffer} {seq : Word} {payload : Bytes}

/-- What writing a peer's buffer does: that buffer is the new one. -/
theorem setBuffer_buffer_same (hm : s.mem.wf = true) : (s.setBuffer p b).buffer p = b := by
  unfold State.buffer
  rw [setBuffer_cfg]
  unfold State.setBuffer
  split
  · exact peerBuffer_set_same (memory_wf_iff.1 hm).2.1
  · rfl

/-- Writing a peer's buffer leaves the other peers' buffers alone when the buffers are keyed by peer. -/
theorem setBuffer_buffer_other (hk : s.cfg.peerKeyed = true) (h : q ≠ p) : (s.setBuffer p b).buffer q = s.buffer q := by
  simp [State.buffer, State.setBuffer, hk, peerBuffer_set_other h]

/-- With one shared buffer every peer sees it. -/
theorem buffer_shared (hk : s.cfg.peerKeyed = false) (p q : Peer) : s.buffer p = s.buffer q := by
  simp [State.buffer, hk]

theorem setBuffer_buffer_same_of_ne_nil (hb : b ≠ []) : (s.setBuffer p b).buffer p = b := by
  unfold State.buffer
  rw [setBuffer_cfg]
  unfold State.setBuffer
  split
  · exact peerBuffer_set_same_of_ne_nil hb
  · rfl

/-- RB_STORE's write (R80): the buffer with the one entry created or replaced. -/
theorem putChunk_buffer_same : (s.putChunk p seq payload).buffer p = assocPut seq.toNat payload (s.buffer p) :=
  setBuffer_buffer_same_of_ne_nil assocPut_ne_nil

theorem putChunk_buffer_other (hk : s.cfg.peerKeyed = true) (h : q ≠ p) :
    (s.putChunk p seq payload).buffer q = s.buffer q := setBuffer_buffer_other hk h

/-- The clearing (R83): no entry is left. -/
theorem clearBuffer_buffer_same (hm : s.mem.wf = true) : (s.clearBuffer p).buffer p = [] := setBuffer_buffer_same hm

theorem clearBuffer_buffer_other (hk : s.cfg.peerKeyed = true) (h : q ≠ p) :
    (s.clearBuffer p).buffer q = s.buffer q := setBuffer_buffer_other hk h

/-- The reset event (R151): every buffer is empty. -/
@[simp] theorem resetBuffers_buffer (s : State) (p : Peer) : s.resetBuffers.buffer p = [] := by
  unfold State.buffer
  split <;> rfl

/-- An unbounded buffer never overflows (R81). -/
theorem storeOverflows_unbounded (h : s.cfg.rbCapacity = none) : s.storeOverflows p seq = false := by
  simp [State.storeOverflows, h]

/-- When a store does not fit (R81): the capacity is finite, reached, and the key is absent. -/
theorem storeOverflows_iff : s.storeOverflows p seq = true ↔
    ∃ c, s.cfg.rbCapacity = some c ∧ c ≤ (s.buffer p).length ∧ s.entry p seq = none := by
  unfold State.storeOverflows
  cases s.cfg.rbCapacity <;> simp

end buffers

end Sys2Proof.Machine
end

