-- ==== Sys2Proof/Laws/Ops.lean ====
section
/-! SUPPORT. Laws/Ops.lean: one lemma for each shared operation of the receive datapath that says everything it can do,
and the inversion lemma over all instructions: what an instruction that answers a next state did to each field. -/

namespace Sys2Proof.Machine

variable {s t : State} {src : Peer} {d : Bytes} {f : DecodedFrame} {i : Instr}

/-- The acknowledgement action of a DATA frame (R91, R92). -/
def ackAction (src : Peer) (seq : Word) : Action := .transmit src (ackFrame seq)

/-- The concatenation a terminal frame finalizes over: the buffer with the frame's own payload stored (R93). -/
def finalConcat (s : State) (src : Peer) (f : DecodedFrame) : Bytes :=
  concatBuffer (assocPut f.seq.toNat f.payload (s.buffer src))

/-- RECV of a malformed datagram (R89). -/
theorem receive_error {kind : ErrorKind} (h : decodeFrame d = .error kind) :
    receive src d s = .next (s.respond (.received (.discarded kind)) [.report (.frameDiscarded kind)]) := by
  simp [receive, h]

/-- RECV of a valid frame that is not DATA (R90). -/
theorem receive_nonData (h : decodeFrame d = .ok f) (ht : f.ty ≠ typeData) :
    receive src d s = .next (s.respond (.received (.ignored f.ty)) []) := by
  simp [receive, h, ht]

/-- RECV of a valid DATA frame is the receiver's DATA path (R91). -/
theorem receive_data (h : decodeFrame d = .ok f) (ht : f.ty = typeData) : receive src d s = recvData src f s := by
  simp [receive, h, ht]

/-- A DATA frame whose new key does not fit a bounded buffer (R149). -/
theorem recvData_full (h : s.storeOverflows src f.seq = true) : recvData src f s = .fault .bufferFull := by
  simp [recvData, h]

/-- A normal DATA frame: stored and acknowledged (R91). -/
theorem recvData_normal (h : s.storeOverflows src f.seq = false) (hf : f.form = .normal) :
    recvData src f s = .next ((s.putChunk src f.seq f.payload).respond (.received (.stored f.seq))
      [ackAction src f.seq]) := by
  simp [recvData, h, hf, ackAction]

/-- A terminal DATA frame: stored, acknowledged, and finalized (R93, R94). -/
theorem recvData_terminal {fc : Word} (h : s.storeOverflows src f.seq = false) (hf : f.form = .terminal fc) :
    recvData src f s = .next (((s.putChunk src f.seq f.payload).clearBuffer src).respond
      (.received (if crc32 (finalConcat s src f) = fc then .completed (finalConcat s src f) else .failed))
      (ackAction src f.seq :: if crc32 (finalConcat s src f) = fc
        then [.sink (finalConcat s src f), .report .transferVerified] else [.report .fileChecksumFailure])) := by
  have hb : concatBuffer ((s.putChunk src f.seq f.payload).buffer src) = finalConcat s src f := by
    rw [putChunk_buffer_same]; rfl
  simp only [recvData, h, hf, recvTerminal, finalize, hb, Bool.false_eq_true, if_false]
  by_cases hc : crc32 (finalConcat s src f) = fc <;> simp [hc, ackAction]

/-- What SP_SERVE can do (R122). -/
theorem serve_cases (src : Peer) (d : Bytes) (s : State) :
    (∃ kind, spDecodeFrame s.cfg.spReservedCheck d = .error kind ∧
      serve src d s = s.respond (.served (.rejected kind))
        [.report (.frameDiscarded kind), .transmit src spErrorFrame]) ∨
    (∃ ty payload, spDecodeFrame s.cfg.spReservedCheck d = .ok (ty, payload) ∧
      serve src d s = s.respond (.served (.accepted ty payload)) []) := by
  unfold serve
  cases h : spDecodeFrame s.cfg.spReservedCheck d with
  | error kind => exact .inl ⟨kind, rfl, rfl⟩
  | ok f => exact .inr ⟨f.1, f.2, rfl, rfl⟩

/-- What an operation that concerns peer `p` may do to the reassembly buffers: nothing, one chunk stored, everything
cleared, or a chunk stored and then everything cleared. -/
inductive MemEffect (s : State) (p : Peer) : Memory → Prop where
  | unchanged : MemEffect s p s.mem
  | stored (seq : Word) (payload : Bytes) (hlen : payload.length ≤ maxPayload)
      (hroom : s.storeOverflows p seq = false) : MemEffect s p (s.putChunk p seq payload).mem
  | cleared : MemEffect s p (s.clearBuffer p).mem
  | finalized (seq : Word) (payload : Bytes) (hlen : payload.length ≤ maxPayload)
      (hroom : s.storeOverflows p seq = false) : MemEffect s p ((s.putChunk p seq payload).clearBuffer p).mem

/-- Every effect on the buffers keeps the store canonical. -/
theorem memEffect_wf {p : Peer} {m : Memory} (h : MemEffect s p m) (hm : s.mem.wf = true) : m.wf = true := by
  cases h with
  | unchanged => exact hm
  | stored seq payload hlen _ => exact putChunk_wf hm hlen
  | cleared => exact clearBuffer_wf hm
  | finalized seq payload hlen _ => exact clearBuffer_wf (putChunk_wf hm hlen)

/-- `t` is `s` with one more response, the parameters, the sender and the inbox as they were, and the buffers changed by
no more than `MemEffect`. -/
structure Answered (s t : State) (p : Peer) : Prop where
  cfg : t.cfg = s.cfg
  sender : t.sender = s.sender
  inbox : t.inbox = s.inbox
  outbox : ∃ r, t.outbox = s.outbox ++ [r]
  mem : MemEffect s p t.mem

theorem answered_respond (s : State) (p : Peer) (r : Result) (acts : List Action) :
    Answered s (s.respond r acts) p := ⟨rfl, rfl, rfl, ⟨_, rfl⟩, .unchanged⟩

theorem answered_answer {α : Type} (s : State) (p : Peer) (v : Except ErrorKind α) (ok : α → Result) :
    Answered s (s.answer v ok) p := by
  rw [answer_eq]; exact answered_respond ..

@[simp] theorem serve_mem (src : Peer) (d : Bytes) (s : State) : (serve src d s).mem = s.mem := by
  rcases serve_cases src d s with ⟨_, -, h⟩ | ⟨_, _, -, h⟩ <;> rw [h] <;> rfl

theorem answered_serve (s : State) (p src : Peer) (d : Bytes) : Answered s (serve src d s) p := by
  rcases serve_cases src d s with ⟨_, -, h⟩ | ⟨_, _, -, h⟩ <;> rw [h] <;> exact answered_respond ..

/-- Everything RECV can do to the fields of the state when it answers a next state (R88). -/
theorem answered_receive (h : receive src d s = .next t) : Answered s t src := by
  cases hd : decodeFrame d with
  | error kind => rw [receive_error hd] at h; cases h; exact answered_respond ..
  | ok f =>
    by_cases ht : f.ty = typeData
    · rw [receive_data hd ht] at h
      cases ho : s.storeOverflows src f.seq with
      | true => rw [recvData_full ho] at h; cases h
      | false =>
        have hl := decodeFrame_payload_length hd
        cases hf : f.form with
        | normal =>
          rw [recvData_normal ho hf] at h; cases h
          exact ⟨by simp, by simp, by simp, ⟨_, by simp; rfl⟩, .stored f.seq f.payload hl ho⟩
        | terminal fc =>
          rw [recvData_terminal ho hf] at h; cases h
          exact ⟨by simp, by simp, by simp, ⟨_, by simp; rfl⟩, .finalized f.seq f.payload hl ho⟩
    · rw [receive_nonData hd ht] at h; cases h; exact answered_respond ..

/-- The inversion lemma over all instructions: an instruction that answers a next state changes nothing but the outbox,
by one response, and the buffer of the peer it concerns, by no more than `MemEffect`. -/
theorem answered_exec (h : exec i s = .next t) : ∃ p, (concernedPeer i = some p ∨ t.mem = s.mem) ∧ Answered s t p := by
  cases i with
  | crc32 b => cases h; exact ⟨noPeer, .inr rfl, answered_respond ..⟩
  | encode seq ty fc payload =>
    simp only [exec, execEncode] at h
    split at h
    · cases h; exact ⟨noPeer, .inr (by simp), answered_answer ..⟩
    · cases h
  | decode d => cases h; exact ⟨noPeer, .inr (by simp), answered_answer ..⟩
  | rbStore p seq payload =>
    simp only [exec, execRbStore] at h
    split at h
    · cases h
    · next hl =>
      split at h
      · cases h
      · next ho =>
        cases h
        exact ⟨p, .inl rfl, by simp, by simp, by simp, ⟨_, by simp; rfl⟩,
          .stored seq payload (by omega) (by simpa using ho)⟩
  | rbConcat p => cases h; exact ⟨p, .inr rfl, answered_respond ..⟩
  | rbClear p => cases h; exact ⟨p, .inl rfl, by simp, by simp, by simp, ⟨_, by simp; rfl⟩, .cleared⟩
  | rbFinalize p fc =>
    cases h
    refine ⟨p, .inl rfl, by simp, by simp, by simp, ⟨_, by simp; rfl⟩, ?_⟩
    simp only [answer_mem]
    exact .cleared
  | recv src d => exact ⟨src, .inl rfl, answered_receive h⟩
  | spEncode ty payload =>
    simp only [exec, execSpEncode] at h
    split at h
    · cases h; exact ⟨noPeer, .inr (by simp), answered_answer ..⟩
    · cases h
  | spDecode d => cases h; exact ⟨noPeer, .inr (by simp), answered_answer ..⟩
  | spServe src d =>
    simp only [exec, execSpServe, Host.Outcome.next.injEq] at h
    subst h
    exact ⟨src, .inr (serve_mem ..), answered_serve ..⟩
  | frameData src seq ck payload =>
    simp only [exec, execFrameData] at h
    exact ⟨src, .inl rfl, answered_receive h⟩
  | frameDataTerminal src seq ck fc payload =>
    simp only [exec, execFrameDataTerminal] at h
    exact ⟨src, .inl rfl, answered_receive h⟩
  | frameAck src seq ck form payload =>
    simp only [exec, execFrameAck] at h
    exact ⟨src, .inl rfl, answered_receive h⟩
  | frameError src seq ck form payload =>
    simp only [exec, execFrameError] at h
    exact ⟨src, .inl rfl, answered_receive h⟩
  | frameUnassigned src ty seq ck form payload =>
    simp only [exec, execFrameUnassigned] at h
    exact ⟨src, .inl rfl, answered_receive h⟩
  | spFrameData src reserved ck payload =>
    simp only [exec, execSpFrameData, Host.Outcome.next.injEq] at h
    subst h
    exact ⟨src, .inr (serve_mem ..), answered_serve ..⟩
  | spFrameAck src reserved ck payload =>
    simp only [exec, execSpFrameAck, Host.Outcome.next.injEq] at h
    subst h
    exact ⟨src, .inr (serve_mem ..), answered_serve ..⟩
  | spFrameError src reserved ck payload =>
    simp only [exec, execSpFrameError, Host.Outcome.next.injEq] at h
    subst h
    exact ⟨src, .inr (serve_mem ..), answered_serve ..⟩

end Sys2Proof.Machine
end

