-- ==== Sys2Proof/Laws/PerInstr.lean ====
section
/-! SUPPORT. Laws/PerInstr.lean: statements about every instruction as syntax, one lemma per constructor. The family
EncodingStart: the encoding of an instruction starts with its row's match value in spec/opcode_table.json, the selector
byte of R56 for an operation and the first big-endian word of R55 for a frame kind. -/

namespace Sys2Proof.Laws

open Sys2Proof.Machine

/-- The match value of an instruction's row, as bytes; an unassigned frame's row leaves its type byte open (R55). -/
def tableStart : Instr → Bytes
  | .crc32 .. => [0x01#8]
  | .encode .. => [0x02#8]
  | .decode .. => [0x03#8]
  | .rbStore .. => [0x10#8]
  | .rbConcat .. => [0x11#8]
  | .rbClear .. => [0x12#8]
  | .rbFinalize .. => [0x13#8]
  | .recv .. => [0x20#8]
  | .spEncode .. => [0x42#8]
  | .spDecode .. => [0x43#8]
  | .spServe .. => [0x60#8]
  | .frameData .. => [0xC0#8, 0xDE#8, 0x01#8, 0x00#8]
  | .frameDataTerminal .. => [0xC0#8, 0xDE#8, 0x01#8, 0x00#8]
  | .frameAck .. => [0xC0#8, 0xDE#8, 0x01#8, 0x01#8]
  | .frameError .. => [0xC0#8, 0xDE#8, 0x01#8, 0x02#8]
  | .frameUnassigned _ ty _ _ _ _ => [0xC0#8, 0xDE#8, 0x01#8, ty]
  | .spFrameData .. => [0xC0#8, 0xDE#8, 0x01#8, 0x00#8]
  | .spFrameAck .. => [0xC0#8, 0xDE#8, 0x01#8, 0x01#8]
  | .spFrameError .. => [0xC0#8, 0xDE#8, 0x01#8, 0x02#8]

/-- The encoding of `i` starts with its row's match value. -/
def EncodingStart.Statement (i : Instr) : Prop := tableStart i <+: transactionBytes (encode i)

namespace EncodingStart

theorem crc32 (b : Bytes) : Statement (.crc32 b) := ⟨_, rfl⟩
theorem encode (seq : Word) (ty : Byte) (fc : Option Word) (payload : Bytes) :
    Statement (.encode seq ty fc payload) := ⟨_, rfl⟩
theorem decode (d : Bytes) : Statement (.decode d) := ⟨_, rfl⟩
theorem rbStore (peer : Peer) (seq : Word) (payload : Bytes) : Statement (.rbStore peer seq payload) := ⟨_, rfl⟩
theorem rbConcat (peer : Peer) : Statement (.rbConcat peer) := ⟨_, rfl⟩
theorem rbClear (peer : Peer) : Statement (.rbClear peer) := ⟨_, rfl⟩
theorem rbFinalize (peer : Peer) (fc : Word) : Statement (.rbFinalize peer fc) := ⟨_, rfl⟩
theorem recv (src : Peer) (d : Bytes) : Statement (.recv src d) := ⟨_, rfl⟩
theorem spEncode (ty : Byte) (payload : Bytes) : Statement (.spEncode ty payload) := ⟨_, rfl⟩
theorem spDecode (d : Bytes) : Statement (.spDecode d) := ⟨_, rfl⟩
theorem spServe (src : Peer) (d : Bytes) : Statement (.spServe src d) := ⟨_, rfl⟩
theorem frameData (src : Peer) (seq checksum : Word) (payload : Bytes) :
    Statement (.frameData src seq checksum payload) := ⟨_, rfl⟩
theorem frameDataTerminal (src : Peer) (seq checksum fc : Word) (payload : Bytes) :
    Statement (.frameDataTerminal src seq checksum fc payload) := ⟨_, rfl⟩
theorem frameAck (src : Peer) (seq checksum : Word) (form : Form) (payload : Bytes) :
    Statement (.frameAck src seq checksum form payload) := ⟨_, rfl⟩
theorem frameError (src : Peer) (seq checksum : Word) (form : Form) (payload : Bytes) :
    Statement (.frameError src seq checksum form payload) := ⟨_, rfl⟩
theorem frameUnassigned (src : Peer) (ty : Byte) (seq checksum : Word) (form : Form) (payload : Bytes) :
    Statement (.frameUnassigned src ty seq checksum form payload) := ⟨_, rfl⟩
theorem spFrameData (src : Peer) (reserved : Byte) (checksum : Half) (payload : Bytes) :
    Statement (.spFrameData src reserved checksum payload) := ⟨_, rfl⟩
theorem spFrameAck (src : Peer) (reserved : Byte) (checksum : Half) (payload : Bytes) :
    Statement (.spFrameAck src reserved checksum payload) := ⟨_, rfl⟩
theorem spFrameError (src : Peer) (reserved : Byte) (checksum : Half) (payload : Bytes) :
    Statement (.spFrameError src reserved checksum payload) := ⟨_, rfl⟩

end EncodingStart

end Sys2Proof.Laws
end

