-- ==== Sys2Proof/Laws/Step.lean ====
section
/-! SUPPORT. Laws/Step.lean: the lemmas through which a proof about a step or a run goes, so that it unfolds neither:
a run step by step, what each kind of event can do, the execution of whatever hands a datagram to the receiver, and the
two ways to see that a store has room. -/

namespace Sys2Proof.Machine

variable {s t u : State} {p : Peer} {e : Event} {rest : List Event}

/-! ### Runs -/

@[simp] theorem run_zero (s : State) : Sys2Proof.core.run 0 s = .next s := rfl

theorem run_next (k : Nat) (h : step s = .next t) : Sys2Proof.core.run (k + 1) s = Sys2Proof.core.run k t := by
  have hs : Sys2Proof.core.step s = .next t := h
  simp only [Host.Core.run]
  rw [hs]

theorem run_fault {f : Fault} (k : Nat) (h : step s = .fault f) : Sys2Proof.core.run (k + 1) s = .fault f := by
  have hs : Sys2Proof.core.step s = .fault f := h
  simp only [Host.Core.run]
  rw [hs]

theorem run_refused {r : Refusal} (k : Nat) (h : step s = .refused r) : Sys2Proof.core.run (k + 1) s = .refused r := by
  have hs : Sys2Proof.core.step s = .refused r := h
  simp only [Host.Core.run]
  rw [hs]

/-- A run of `j + k` steps whose first `j` steps reach `t` goes on from `t`. -/
theorem run_add (j k : Nat) (s t : State) (h : Sys2Proof.core.run j s = .next t) :
    Sys2Proof.core.run (j + k) s = Sys2Proof.core.run k t := by
  induction j generalizing s with
  | zero => cases h; simp
  | succ j ih =>
    rw [Nat.add_right_comm]
    cases hs : step s with
    | next u => rw [run_next _ hs] at h ⊢; exact ih u h
    | fault f => rw [run_fault _ hs] at h; cases h
    | refused r => rw [run_refused _ hs] at h; cases h

/-! ### Steps -/

/-- A step on a transaction that answers a next state executed the instruction decoded from it (R8). -/
theorem step_transaction {tr : Transaction} (he : s.inbox = .transaction tr :: rest) (h : step s = .next t) :
    ∃ i, decode s.cfg.variant tr = .ok i ∧ exec i { s with inbox := rest } = .next t := by
  simp only [step, he, performTransaction] at h
  split at h
  · next i hi => exact ⟨i, hi, h⟩
  · cases h

/-- `t` is `s` after an event of the sender's: the event taken, at most one response returned, the sender moved, and
nothing of the block touched (R103, R108). -/
structure SenderMoved (s t : State) (rest : List Event) : Prop where
  cfg : t.cfg = s.cfg
  mem : t.mem = s.mem
  inbox : t.inbox = rest
  outbox : ∃ rs : List Response, rs.length ≤ 1 ∧ t.outbox = s.outbox ++ rs

/-- Every step on an event that is neither a transaction nor the reset is the sender's and touches nothing of the
block. -/
theorem senderMoved_step (he : s.inbox = e :: rest) (ht : ∀ tr, e ≠ .transaction tr) (hr : e ≠ .reset)
    (h : step s = .next t) : SenderMoved s t rest := by
  have one : ∀ (x : Sender) (r : Result) (acts : List Action),
      SenderMoved s ({ s with inbox := rest, sender := x }.respond r acts) rest :=
    fun _ _ _ => ⟨rfl, rfl, rfl, [_], by simp, rfl⟩
  have none : SenderMoved s { s with inbox := rest } rest := ⟨rfl, rfl, rfl, [], by simp, by simp⟩
  cases e with
  | transaction tr => exact absurd rfl (ht tr)
  | reset => exact absurd rfl hr
  | send W dest =>
    simp only [step, he, startSend] at h
    split at h
    · split at h
      · cases h
      · cases h; exact one ..
    · split at h
      · cases h
      · cases h; exact one ..
    · cases h
    · cases h
  | sendNext =>
    simp only [step, he, sendNext] at h
    split at h
    · split at h
      · cases h; exact one ..
      · cases h
    all_goals cases h; exact none
  | reply d =>
    simp only [step, he, Host.Outcome.next.injEq] at h
    subst h
    have bad : ∀ (tr : Transfer) (i : Nat), SenderMoved s (badReply { s with inbox := rest } tr i) rest := by
      intro tr i
      unfold badReply
      split
      · exact one ..
      · exact none
    unfold replyArrives
    split
    · split
      · split
        · exact bad _ _
        · split
          · exact one ..
          · exact one ..
      · exact bad _ _
    all_goals exact none
  | waitExpired =>
    simp only [step, he, Host.Outcome.next.injEq] at h
    subst h
    unfold waitExpired
    split
    · exact one ..
    all_goals exact none

/-! ### The sender's wait -/

/-- A reply that the parameters let the sender wait through changes nothing but the inbox (R113; log entry 28). -/
theorem step_keepsWaiting {tr : Transfer} {i : Nat} (hs : s.sender = .awaitingAck tr i) (he : s.inbox = e :: rest)
    (hk : keepsWaiting s.cfg e = true) : step s = .next { s with inbox := rest } := by
  cases e with
  | reply d =>
    simp only [keepsWaiting, isAckReply, Bool.not_eq_true', Bool.or_eq_false_iff] at hk
    have hb : s.cfg.badReply = .keepWaitingUntilTimeout := by
      have h := hk.2
      cases hc : s.cfg.badReply with
      | proceed => rw [hc] at h; cases h
      | keepWaitingUntilTimeout => rfl
    cases hd : decodeFrame d with
    | error k => simp [step, he, replyArrives, hs, hd, badReply, hb]
    | ok f =>
      have ht : f.ty ≠ typeAck := by simpa [hd] using hk.1
      simp [step, he, replyArrives, hs, hd, badReply, hb, ht]
  | waitExpired => cases hk
  | transaction tr => cases hk
  | reset => cases hk
  | send W dest => cases hk
  | sendNext => cases hk

/-- What ends a wait ends it by `endWait`, with a result and a log that transmit nothing and complete nothing (R104 to
R106, R113). -/
theorem step_endsWait {tr : Transfer} {i : Nat} (hs : s.sender = .awaitingAck tr i) (he : s.inbox = e :: rest)
    (hw : endsWait s.cfg e = true) :
    ∃ r acts, transmissions [⟨r, acts⟩] = [] ∧ completions [⟨r, acts⟩] = [] ∧
      step s = .next (State.endWait { s with inbox := rest } tr i r acts) := by
  cases e with
  | waitExpired =>
    exact ⟨.err .timeout, [.report (.ackTimeout i)], rfl, rfl, by simp [step, he, waitExpired, hs]⟩
  | reply d =>
    simp only [endsWait, isAckReply, Bool.or_eq_true, beq_iff_eq] at hw
    cases hd : decodeFrame d with
    | error k =>
      have hb : s.cfg.badReply = .proceed := by simpa [hd] using hw
      exact ⟨.waitEnded .badReply, [], rfl, rfl, by simp [step, he, replyArrives, hs, hd, badReply, hb]⟩
    | ok f =>
      simp only [hd, beq_iff_eq] at hw
      by_cases ht : f.ty = typeAck
      · by_cases hq : f.seq = BitVec.ofNat 32 i
        · exact ⟨.waitEnded .acknowledged, [], rfl, rfl, by simp [step, he, replyArrives, hs, hd, ht, hq]⟩
        · exact ⟨.waitEnded (.mismatchedAck f.seq), [.report (.ackMismatch i f.seq)], rfl, rfl,
            by simp [step, he, replyArrives, hs, hd, ht, hq]⟩
      · have hb : s.cfg.badReply = .proceed := hw.resolve_left ht
        exact ⟨.waitEnded .badReply, [], rfl, rfl, by simp [step, he, replyArrives, hs, hd, badReply, hb, ht]⟩
  | transaction tr => cases hw
  | reset => cases hw
  | send W dest => cases hw
  | sendNext => cases hw

@[simp] theorem transmissions_append (a b : List Response) :
    transmissions (a ++ b) = transmissions a ++ transmissions b := by simp [transmissions]

@[simp] theorem sinkDeliveries_append (a b : List Response) :
    sinkDeliveries (a ++ b) = sinkDeliveries a ++ sinkDeliveries b := by simp [sinkDeliveries]

@[simp] theorem completions_append (a b : List Response) :
    completions (a ++ b) = completions a ++ completions b := by simp [completions]

/-! ### Instructions that hand over a datagram -/

/-- Whatever hands a datagram to the receiver is the receive datapath on that datagram (R88, R111). -/
theorem exec_receivedDatagram {i : Instr} {src : Peer} {d : Bytes} (h : receivedDatagram i = some (src, d)) :
    exec i s = receive src d s := by
  cases i <;> simp only [receivedDatagram, Option.some.injEq, Prod.mk.injEq, reduceCtorEq] at h <;>
    (obtain ⟨rfl, rfl⟩ := h; simp only [exec, execRecv, execFrameData, execFrameDataTerminal, execFrameAck,
      execFrameError, execFrameUnassigned])

/-! ### Room, and the frame of a response -/

/-- A store has room exactly when it does not overflow (R81). -/
theorem hasRoom_iff {seq : Word} : HasRoom s p seq ↔ s.storeOverflows p seq = false := by
  rw [← Bool.not_eq_true, storeOverflows_iff]
  unfold HasRoom
  constructor
  · rintro h ⟨c, hc, hl, he⟩
    rcases h c hc with h | h
    · simp [he] at h
    · omega
  · intro h c hc
    by_contra hn
    refine h ⟨c, hc, by omega, ?_⟩
    cases he : s.entry p seq with
    | none => rfl
    | some _ => simp [he] at hn

theorem respondedWith_respond (s : State) (p : Peer) (r : Result) (acts : List Action) :
    RespondedWith s (s.respond r acts) p ⟨r, acts⟩ := by
  refine ⟨by simp, by simp, by simp, by simp, ?_, ?_⟩ <;> simp

theorem respondedWith_setBuffer (s : State) (p : Peer) (b : Buffer) (r : Result) (acts : List Action) :
    RespondedWith s ((s.setBuffer p b).respond r acts) p ⟨r, acts⟩ := by
  refine ⟨by simp, by simp, by simp, by simp, ?_, fun hk q hq => ?_⟩
  · by_cases h : s.cfg.peerKeyed <;> simp [State.setBuffer, h]
  · simp only [respond_buffer]; exact setBuffer_buffer_other hk hq

theorem respondedWith_finalized (s : State) (p : Peer) (seq : Word) (payload : Bytes) (r : Result)
    (acts : List Action) :
    RespondedWith s (((s.putChunk p seq payload).clearBuffer p).respond r acts) p ⟨r, acts⟩ := by
  refine ⟨by simp, by simp, by simp, by simp, ?_, fun hk q hq => ?_⟩
  · by_cases h : s.cfg.peerKeyed <;> simp [State.clearBuffer, State.putChunk, State.setBuffer, h]
  · simp only [respond_buffer]
    rw [clearBuffer_buffer_other (by simpa using hk) hq, putChunk_buffer_other hk hq]

end Sys2Proof.Machine
end

