-- ==== Sys2Proof/Machine/Text.lean ====
section
/-! DEFINITION. Machine/Text.lean: the textual notation of spec 30_encoding.md R57 for operations, results, action lists
and buffer states, as 95_test_vectors.md writes them. Nothing the machine does reads it (92_eei_decisions.md D26). A byte
string is written in hexadecimal digit pairs; R57 also allows a quoted ASCII string for the same bytes. -/

namespace Sys2Proof.Machine

/-- The hexadecimal digits of `v`, `n` of them, most significant first. -/
def hexDigits (upper : Bool) : Nat → Nat → String
  | 0, _ => ""
  | n + 1, v => hexDigits upper n (v / 16) ++
    String.singleton ((if upper then "0123456789ABCDEF" else "0123456789abcdef").toList.getD (v % 16) '?')

/-- `<hex32>`: "eight hexadecimal digits". -/
def textWord (v : Word) : String := hexDigits true 8 v.toNat

/-- `<bytes>`: "hexadecimal digit pairs in wire order"; the empty byte string is written as the empty quoted string. -/
def textBytes (B : Bytes) : String :=
  if B.isEmpty then "\"\"" else String.join (B.map fun b => hexDigits false 2 b.toNat)

/-- `<n>` in decimal. -/
def textNat (n : Nat) : String := toString n

/-- A peer, by its name. -/
def textPeer (p : Peer) : String := "p" ++ textNat p.id

/-- `type=<DATA|ACK|ERROR>`; an unassigned code, which R57 has no word for, by its number. -/
def textType (t : Byte) : String :=
  if t = typeData then "DATA" else if t = typeAck then "ACK" else if t = typeError then "ERROR" else textNat t.toNat

/-- The names of 60_exceptions.md R130. -/
def textKind : ErrorKind → String
  | .frameTooShort => "FrameTooShort"
  | .badMagic => "BadMagic"
  | .badVersion => "BadVersion"
  | .lengthOutOfRange => "LengthOutOfRange"
  | .lengthMismatch => "LengthMismatch"
  | .checksumMismatch => "ChecksumMismatch"
  | .payloadTooLarge => "PayloadTooLarge"
  | .fileChecksumMismatch => "FileChecksumMismatch"
  | .timeout => "Timeout"
  | .bufferFull => "BufferFull"
  | .reservedNotZero => "MalformedFrame"

/-- `form=Normal|Terminal(<hex32>)`. -/
def textForm : Form → String
  | .normal => "Normal"
  | .terminal fc => "Terminal(" ++ textWord fc ++ ")"

/-- An operation: "its mnemonic followed by `name=value` operands" (R57). A frame kind is an arrival, not an operation,
and has no line of its own there: it is written by its row's name and its fields. -/
def textInstr : Instr → String
  | .crc32 b => "CRC32 B=" ++ textBytes b
  | .encode seq ty fc payload => "ENCODE seq=" ++ textNat seq.toNat ++ " type=" ++ textType ty ++
      (match fc with
        | none => ""
        | some v => " fc=" ++ textWord v) ++ " payload=" ++ textBytes payload
  | .decode d => "DECODE D=" ++ textBytes d
  | .rbStore _ seq payload => "RB_STORE seq=" ++ textNat seq.toNat ++ " payload=" ++ textBytes payload
  | .rbConcat _ => "RB_CONCAT"
  | .rbClear _ => "RB_CLEAR"
  | .rbFinalize _ fc => "RB_FINALIZE fc=" ++ textWord fc
  | .recv src d => "RECV D=" ++ textBytes d ++ " src=" ++ textPeer src
  | .spEncode ty payload => "SP_ENCODE type=" ++ textType ty ++ " payload=" ++ textBytes payload
  | .spDecode d => "SP_DECODE D=" ++ textBytes d
  | .spServe src d => "SP_SERVE D=" ++ textBytes d ++ " src=" ++ textPeer src
  | .frameData src seq _ payload => textArrival "FRAME.DATA" src ("seq=" ++ textNat seq.toNat) .normal payload
  | .frameDataTerminal src seq _ fc payload =>
    textArrival "FRAME.DATA.TERMINAL" src ("seq=" ++ textNat seq.toNat) (.terminal fc) payload
  | .frameAck src seq _ form payload => textArrival "FRAME.ACK" src ("seq=" ++ textNat seq.toNat) form payload
  | .frameError src seq _ form payload => textArrival "FRAME.ERROR" src ("seq=" ++ textNat seq.toNat) form payload
  | .frameUnassigned src ty seq _ form payload =>
    textArrival "FRAME.UNASSIGNED" src ("type=" ++ textNat ty.toNat ++ " seq=" ++ textNat seq.toNat) form payload
  | .spFrameData src reserved _ payload =>
    textArrival "SPFRAME.DATA" src ("reserved=" ++ textNat reserved.toNat) .normal payload
  | .spFrameAck src reserved _ payload =>
    textArrival "SPFRAME.ACK" src ("reserved=" ++ textNat reserved.toNat) .normal payload
  | .spFrameError src reserved _ payload =>
    textArrival "SPFRAME.ERROR" src ("reserved=" ++ textNat reserved.toNat) .normal payload
where
  /-- The line of an arriving frame. -/
  textArrival (row : String) (src : Peer) (fields : String) (form : Form) (payload : Bytes) : String :=
    row ++ " " ++ fields ++ " form=" ++ textForm form ++ " payload=" ++ textBytes payload ++ " src=" ++ textPeer src

/-- A result, as it stands after `=>` (R57, R88, R122). -/
def textResult : Result → String
  | .word v => textWord v
  | .bytes b => textBytes b
  | .ok => "Ok"
  | .okBytes b => "Ok(" ++ textBytes b ++ ")"
  | .okFrame f => "Ok(type=" ++ textNat f.ty.toNat ++ ", seq=" ++ textNat f.seq.toNat ++ ", payload=" ++
      textBytes f.payload ++ ", form=" ++ textForm f.form ++ ")"
  | .okSpFrame ty payload => "Ok(type=" ++ textNat ty.toNat ++ ", payload=" ++ textBytes payload ++ ")"
  | .err kind => "Err(" ++ textKind kind ++ ")"
  | .received (.discarded kind) => "Discarded(" ++ textKind kind ++ ")"
  | .received (.ignored ty) => "Ignored(" ++ textNat ty.toNat ++ ")"
  | .received (.stored seq) => "Stored(" ++ textNat seq.toNat ++ ")"
  | .received (.completed payload) => "Completed(" ++ textBytes payload ++ ")"
  | .received .failed => "Failed"
  | .served (.rejected kind) => "Rejected(" ++ textKind kind ++ ")"
  | .served (.accepted ty payload) =>
    "Accepted(Ok(type=" ++ textNat ty.toNat ++ ", payload=" ++ textBytes payload ++ "))"
  | .transmitted i => "Transmitted(" ++ textNat i ++ ")"
  | .waitEnded .acknowledged => "Acknowledged"
  | .waitEnded (.mismatchedAck got) => "MismatchedAck(" ++ textNat got.toNat ++ ")"
  | .waitEnded .badReply => "BadReply"
  | .sendStarted => "Sending"

/-- A reported event (R139), and the sender's log lines. -/
def textReport : Report → String
  | .frameDiscarded kind => "FrameDiscarded(" ++ textKind kind ++ ")"
  | .fileChecksumFailure => "FileChecksumFailure"
  | .transferVerified => "TransferVerified"
  | .ackTimeout i => "AckTimeout(" ++ textNat i ++ ")"
  | .ackMismatch i got => "AckMismatch(" ++ textNat i ++ ", " ++ textNat got.toNat ++ ")"
  | .transferDone fc => "Done(" ++ textWord fc ++ ")"

/-- An output action. -/
def textAction : Action → String
  | .transmit p d => "Transmit(" ++ textPeer p ++ ", " ++ textBytes d ++ ")"
  | .sink payload => "Sink(" ++ textBytes payload ++ ")"
  | .report e => "Report(" ++ textReport e ++ ")"

/-- The action list, in order, in square brackets. -/
def textActions (acts : List Action) : String := "actions: [" ++ String.intercalate ", " (acts.map textAction) ++ "]"

/-- A response: the result, then its action list, which a line of RECV always has (R57). -/
def textResponse (r : Response) : String :=
  match r.result, r.actions with
  | .received o, acts => textResult (.received o) ++ "; " ++ textActions acts
  | result, [] => textResult result
  | result, a :: acts => textResult result ++ "; " ++ textActions (a :: acts)

/-- A buffer state: key, colon and value of every entry, in braces (R57). -/
def textBuffer (b : Buffer) : String :=
  String.singleton (Char.ofNat 123) ++
    String.intercalate ", " (b.map fun e => textNat e.1 ++ ":" ++ textBytes e.2) ++ String.singleton (Char.ofNat 125)

end Sys2Proof.Machine
end

