-- ==== Sys2Proof/Tests/Slice0.lean ====
section
/-! SUPPORT. Tests/Slice0.lean: named tests. The expected results are the vectors of spec 95_test_vectors.md (their ids
stand in the comments) or hand calculation from the rules; the last part shows, for every statement of
Certificates/Slice0/Obligations.lean that has hypotheses, a state and operands that meet all of them. -/

namespace Sys2Proof.Tests

-- One theorem after the other: elaborated all at once, these many small evaluations take a thread each.
set_option Elab.async false

open Sys2Proof.Machine

/-! ### Helpers -/

/-- A byte string from numbers. -/
def bs (l : List Nat) : Bytes := l.map (BitVec.ofNat 8)

def p : Peer := ⟨7⟩
def q : Peer := ⟨8⟩

/-- A machine with the shared buffer `b` and the default parameters. -/
def st (b : Buffer) : State := { State.reset with mem := ⟨b, []⟩ }

/-- A machine with one buffer per peer. -/
def stKeyed (l : List (Nat × Buffer)) : State :=
  { State.resetWith { Cfg.default with peerKeyed := true } with mem := ⟨[], l⟩ }

/-- A machine with a buffer of two entries at most (95_test_vectors.md section 4.1). -/
def stCap2 (b : Buffer) : State :=
  { State.resetWith { Cfg.default with rbCapacity := some 2 } with mem := ⟨b, []⟩ }

/-- A machine in the single-packet configuration. -/
def stSp : State := State.resetWith { Cfg.default with variant := .singlePacket }

def nextOf : Answer → Option State
  | .next s => some s
  | .fault _ => none
  | .refused _ => none

def faultOf : Answer → Option Fault
  | .next _ => none
  | .fault f => some f
  | .refused _ => none

def refusalOf : Answer → Option Refusal
  | .next _ => none
  | .fault _ => none
  | .refused r => some r

/-- What an operation returned, and the shared buffer after it. -/
def outcome (i : Instr) (s : State) : Option (List Response × Buffer) :=
  (nextOf (exec i s)).map fun t => (t.outbox, t.mem.rb)

/-- The same with one buffer per peer. -/
def outcomeKeyed (i : Instr) (s : State) : Option (List Response × Memory) :=
  (nextOf (exec i s)).map fun t => (t.outbox, t.mem)

def A : Bytes := [0x41#8]
def B : Bytes := [0x42#8]
def C : Bytes := [0x43#8]
def hello : Bytes := bs [0x68, 0x65, 0x6C, 0x6C, 0x6F]

/-- Frame E2: DATA, sequence 0, "A". -/
def e2 : Bytes := bs [0xC0, 0xDE, 1, 0, 0, 0, 0, 0, 0, 1, 0x2B, 0x5D, 0x82, 0xF8, 0x41]
/-- Frame E4: terminal DATA, sequence 2, "C", file checksum of "ABC". -/
def e4 : Bytes := bs [0xC0, 0xDE, 1, 0, 0, 0, 0, 2, 0, 1, 0xB7, 0x7E, 0x8C, 0x68, 0xA3, 0x83, 0x03, 0x48, 0x43]
/-- Frame E5: ACK, sequence 0. -/
def e5 : Bytes := bs [0xC0, 0xDE, 1, 1, 0, 0, 0, 0, 0, 0, 0x1A, 0x5C, 0xEC, 0xAD]
/-- Frame E7: ACK, sequence 2. -/
def e7 : Bytes := bs [0xC0, 0xDE, 1, 1, 0, 0, 0, 2, 0, 0, 0x8D, 0xC3, 0xFD, 0x84]
/-- Frame E8: ERROR, sequence 0. -/
def e8 : Bytes := bs [0xC0, 0xDE, 1, 2, 0, 0, 0, 0, 0, 0, 0x83, 0xBE, 0x8A, 0xAC]
/-- Frame E12: terminal DATA, sequence 0, "hello" with its own checksum. -/
def e12 : Bytes := bs [0xC0, 0xDE, 1, 0, 0, 0, 0, 0, 0, 5, 0xBD, 0x51, 0x7E, 0x57, 0x36, 0x10, 0xA6, 0x86,
  0x68, 0x65, 0x6C, 0x6C, 0x6F]
/-- Frame E24 (vector D19): ACK in the terminal form. -/
def e24 : Bytes := bs [0xC0, 0xDE, 1, 1, 0, 0, 0, 9, 0, 0, 0xF8, 0x2A, 0xA0, 0x6A, 0x11, 0x22, 0x33, 0x44]
/-- Vector D16: type code 7, otherwise well-formed. -/
def d16 : Bytes := bs [0xC0, 0xDE, 1, 7, 0, 0, 0, 0, 0, 1, 0x5F, 0xC5, 0x6B, 0x77, 0x41]
/-- Vector D23: E2 with one payload bit flipped. -/
def d23 : Bytes := bs [0xC0, 0xDE, 1, 0, 0, 0, 0, 0, 0, 1, 0x2B, 0x5D, 0x82, 0xF8, 0x40]
/-- Single-packet frame S2: DATA, "hello". -/
def s2 : Bytes := bs [0xC0, 0xDE, 1, 0, 0, 0, 5, 0x6C, 0x92, 0x68, 0x65, 0x6C, 0x6C, 0x6F]
/-- Single-packet frame S3: ACK, "hello". -/
def s3 : Bytes := bs [0xC0, 0xDE, 1, 1, 0, 0, 5, 0xB3, 0x52, 0x68, 0x65, 0x6C, 0x6C, 0x6F]
/-- Single-packet frame S4: ERROR, empty. -/
def s4 : Bytes := bs [0xC0, 0xDE, 1, 2, 0, 0, 0, 0xD9, 0x77]
/-- Vector S13: S2 with magic DEAD. -/
def s13 : Bytes := bs [0xDE, 0xAD, 1, 0, 0, 0, 5, 0x6C, 0x92, 0x68, 0x65, 0x6C, 0x6C, 0x6F]

def zeros1000 : Bytes := List.replicate 1000 0#8
def zeros1001 : Bytes := List.replicate 1001 0#8
def zeros4096 : Bytes := List.replicate 4096 0#8
def zeros4097 : Bytes := List.replicate 4097 0#8

theorem zeros1000_length : zeros1000.length = 1000 := List.length_replicate ..
theorem zeros1001_length : zeros1001.length = 1001 := List.length_replicate ..
theorem zeros4096_length : zeros4096.length = 4096 := List.length_replicate ..
theorem zeros4097_length : zeros4097.length = 4097 := List.length_replicate ..

/-! ### WellFormed: an ill-formed term for each check, and the boundary it still accepts -/

theorem test_wf_encode_type : Instr.wf (.encode 0 3#8 none A) = false ∧ Instr.wf (.encode 0 2#8 none A) = true := by
  decide
theorem test_wf_spEncode_type : Instr.wf (.spEncode 255#8 A) = false ∧ Instr.wf (.spEncode 2#8 A) = true := by decide
theorem test_wf_rbStore_length :
    Instr.wf (.rbStore p 0 zeros1001) = false ∧ Instr.wf (.rbStore p 0 zeros1000) = true := by
  simp [Instr.wf, maxPayload, zeros1000_length, zeros1001_length]
theorem test_wf_frame_length : Instr.wf (.frameData p 0 0 zeros1001) = false ∧
    Instr.wf (.frameDataTerminal p 0 0 0 zeros1001) = false ∧ Instr.wf (.frameAck p 0 0 .normal zeros1001) = false ∧
    Instr.wf (.frameError p 0 0 .normal zeros1001) = false ∧
    Instr.wf (.frameUnassigned p 3#8 0 0 .normal zeros1001) = false ∧
    Instr.wf (.frameData p 0 0 zeros1000) = true := by
  simp [Instr.wf, maxPayload, zeros1000_length, zeros1001_length]
theorem test_wf_frameUnassigned_type :
    Instr.wf (.frameUnassigned p 1#8 0 0 .normal A) = false ∧
      Instr.wf (.frameUnassigned p 3#8 0 0 .normal A) = true := by decide
theorem test_wf_spFrame_length : Instr.wf (.spFrameData p 0 0 zeros4097) = false ∧
    Instr.wf (.spFrameAck p 0 0 zeros4097) = false ∧ Instr.wf (.spFrameError p 0 0 zeros4097) = false ∧
    Instr.wf (.spFrameData p 0 0 zeros4096) = true := by
  simp [Instr.wf, spMaxPayload, zeros4096_length, zeros4097_length]
theorem test_fitsVariant : Instr.fitsVariant (.frameData p 0 0 A) .singlePacket = false ∧
    Instr.fitsVariant (.spFrameData p 0 0 A) .chunked = false ∧ Instr.fitsVariant (.recv p A) .singlePacket = true := by
  decide

/-! ### Decoding: every constructor, from bytes written out from the spec's encoding of it -/

/-- The selectors of R56, each with operand bytes in the layout of log entry 2. -/
theorem test_decode_operations :
    decodeCommand p (bs [0x01, 0x41]) = .ok (.crc32 A) ∧
    decodeCommand p (bs [0x02, 0, 0, 0, 2, 0, 0, 0x43]) = .ok (.encode 2 0#8 none C) ∧
    decodeCommand p (bs [0x02, 0, 0, 0, 2, 0, 1, 0xA3, 0x83, 0x03, 0x48, 0x43]) =
      .ok (.encode 2 0#8 (some 0xA3830348#32) C) ∧
    decodeCommand p (bs [0x03, 0x41]) = .ok (.decode A) ∧
    decodeCommand p (bs [0x10, 1, 2, 3, 4, 0x43]) = .ok (.rbStore p 0x01020304#32 C) ∧
    decodeCommand p (bs [0x11]) = .ok (.rbConcat p) ∧ decodeCommand p (bs [0x12]) = .ok (.rbClear p) ∧
    decodeCommand p (bs [0x13, 0xA3, 0x83, 0x03, 0x48]) = .ok (.rbFinalize p 0xA3830348#32) ∧
    decodeCommand p (bs [0x20, 0x41]) = .ok (.recv p A) ∧
    decodeCommand p (bs [0x42, 1, 0x41]) = .ok (.spEncode 1#8 A) ∧
    decodeCommand p (bs [0x43, 0x41]) = .ok (.spDecode A) ∧ decodeCommand p (bs [0x60, 0x41]) = .ok (.spServe p A) := by
  decide +kernel

/-- Every name the decoder rejects by: no byte, a selector outside R56, operands missing, left over, or a bad presence
byte. -/
theorem test_decode_rejections :
    decodeCommand p [] = .error .emptyCommand ∧ decodeCommand p (bs [0x04]) = .error .unknownSelector ∧
    decodeCommand p (bs [0x14]) = .error .unknownSelector ∧ decodeCommand p (bs [0xFF]) = .error .unknownSelector ∧
    decodeCommand p (bs [0x13, 0, 0, 0]) = .error .truncatedOperands ∧
    decodeCommand p (bs [0x13, 0, 0, 0, 0, 0]) = .error .trailingOperands ∧
    decodeCommand p (bs [0x12, 0]) = .error .trailingOperands ∧
    decodeCommand p (bs [0x02, 0, 0, 0, 0, 0, 2]) = .error .badPresenceFlag := by
  decide +kernel

/-- The frame kinds of R55: E2, E4, E24, E8 and D16. -/
theorem test_decode_frames :
    decodeChunkedDatagram p e2 = .frameData p 0 0x2B5D82F8#32 A ∧
    decodeChunkedDatagram p e4 = .frameDataTerminal p 2 0xB77E8C68#32 0xA3830348#32 C ∧
    decodeChunkedDatagram p e24 = .frameAck p 9 0xF82AA06A#32 (.terminal 0x11223344#32) [] ∧
    decodeChunkedDatagram p e8 = .frameError p 0 0x83BE8AAC#32 .normal [] ∧
    decodeChunkedDatagram p d16 = .frameUnassigned p 7#8 0 0x5FC56B77#32 .normal A := by
  decide +kernel

/-- The single-packet frames S2, S3 and S4 (R117), and a datagram that is no frame kind of either configuration. -/
theorem test_decode_spFrames :
    decodeSpDatagram p s2 = .spFrameData p 0 0x6C92#16 hello ∧ decodeSpDatagram p s3 = .spFrameAck p 0 0xB352#16 hello ∧
    decodeSpDatagram p s4 = .spFrameError p 0 0xD977#16 [] ∧ decodeSpDatagram p s13 = .spServe p s13 ∧
    decodeChunkedDatagram p s13 = .recv p s13 := by
  decide +kernel

/-- D21 and D22: the same 18 bytes of length in the two forms (R50). -/
theorem test_decode_forms :
    decodeChunkedDatagram p (bs [0xC0, 0xDE, 1, 0, 0, 0, 0, 5, 0, 4, 0x40, 0x91, 0xFA, 0x84, 0, 0, 0, 0]) =
      .frameData p 5 0x4091FA84#32 (zeros 4) ∧
    decodeChunkedDatagram p (bs [0xC0, 0xDE, 1, 0, 0, 0, 0, 7, 0, 0, 0x45, 0x11, 0x12, 0x49, 0, 0, 0, 0]) =
      .frameDataTerminal p 7 0x45111249#32 0 [] := by
  decide +kernel

/-- The words of spec/opcode_table.json: a selector row, and the frame rows by their first word (R55). -/
theorem test_decodeTableWord :
    decodeTableWord 8 0x10 = some (.rbStore noPeer 0 []) ∧ decodeTableWord 8 0x02 = some (.encode 0 0#8 none []) ∧
    decodeTableWord 8 0x05 = none ∧ decodeTableWord 32 0xC0DE0100 = some (.frameData noPeer 0 0 []) ∧
    decodeTableWord 32 0xC0DE0102 = some (.frameError noPeer 0 0 .normal []) ∧
    decodeTableWord 32 0xC0DE0107 = some (.frameUnassigned noPeer 7#8 0 0 .normal []) := by
  decide +kernel

theorem test_withFetchWord :
    (nextOf (step (State.reset.withFetchWord 8 0x01))).map State.outbox = some [⟨.word 0, []⟩] ∧
    (nextOf (step (State.reset.withFetchWord 32 0xC0DE0101))).map State.outbox =
      some [⟨.received (.discarded .checksumMismatch), [.report (.frameDiscarded .checksumMismatch)]⟩] := by
  decide +kernel

/-! ### The checksum generator and the codec -/

/-- K10, K13. -/
theorem test_crc32 : outcome (.crc32 (bs [0x31, 0x32, 0x33, 0x34, 0x35, 0x36, 0x37, 0x38, 0x39])) (st []) =
    some ([⟨.word 0xCBF43926#32, []⟩], []) := by decide +kernel
/-- K24, K27: order matters. -/
theorem test_crc32_order : crc32 (A ++ B) = 0x30694C07#32 ∧ crc32 (B ++ A) = 0x824D4E7E#32 := by decide +kernel

/-- E4 and E13. -/
theorem test_encode : outcome (.encode 2 0#8 (some 0xA3830348#32) C) (st [(0, A)]) = some ([⟨.okBytes e4, []⟩], [(0, A)]) ∧
    encodeFrame 0xFFFFFFFF#32 [] 1#8 none =
      .ok (bs [0xC0, 0xDE, 1, 1, 0xFF, 0xFF, 0xFF, 0xFF, 0, 0, 0x06, 0x29, 0x7B, 0x24]) := by decide +kernel
/-- E17, and the refusal of an unassigned type (R66). -/
theorem test_encode_stops : (nextOf (execEncode 0 0#8 none zeros1001 (st []))).map State.outbox =
      some [⟨.err .payloadTooLarge, []⟩] ∧
    refusalOf (exec (.encode 0 3#8 none A) (st [])) = some .unassignedType := by
  constructor
  · rw [execEncode, encodeFrame_error (by rw [zeros1001_length]; decide)]; rfl
  · decide

/-- D32. -/
theorem test_decode : outcome (.decode (bs [0xC0, 0xDE, 1, 0, 1, 2, 3, 4, 0, 2, 0xDE, 0x60, 0x65, 0xFF, 0xDE, 0xAD, 0xBE,
    0xEF, 0, 0xFF])) (st []) =
    some ([⟨.okFrame ⟨0#8, 16909060#32, bs [0, 0xFF], .terminal 0xDEADBEEF#32⟩, []⟩], []) := by decide +kernel
/-- D3, D7, D9, D11, D14, D17 and D36: each check of R68 in turn, and what comes before it. -/
theorem test_decode_errors :
    decodeFrame (bs [0xDE, 0xAD, 1, 0, 0, 0, 0, 0, 0, 1, 0x2B, 0x5D, 0x82]) = .error .frameTooShort ∧
    decodeFrame (bs [0xDE, 0xAD, 2, 0, 0, 0, 0, 0, 0, 1, 0x2B, 0x5D, 0x82, 0xF8, 0x41]) = .error .badMagic ∧
    decodeFrame (bs [0xC0, 0xDE, 2, 0, 0, 0, 0, 0, 0, 1, 0x96, 0x97, 0xEE, 0x36, 0x41]) = .error .badVersion ∧
    decodeFrame (bs [0xC0, 0xDE, 1, 0, 0, 0, 0, 0, 3, 0xE9, 0x78, 0x82, 0xE4, 0x6D]) = .error .lengthOutOfRange ∧
    decodeFrame (e2 ++ [0#8]) = .error .lengthMismatch ∧
    decodeFrame (bs [0xC0, 0xDE, 1, 0, 0, 0, 0, 5, 0, 0, 0x40, 0x91, 0xFA, 0x84, 0, 0, 0, 0]) =
      .error .checksumMismatch ∧
    decodeFrame s2 = .error .lengthOutOfRange := by decide +kernel

/-! ### The buffer primitives -/

/-- B3 and B7. -/
theorem test_rbStore : outcome (.rbStore p 1 B) (st [(0, A), (2, C)]) = some ([⟨.ok, []⟩], [(0, A), (1, B), (2, C)]) ∧
    outcome (.rbStore p 0xFFFFFFFF#32 A) (st []) = some ([⟨.ok, []⟩], [(4294967295, A)]) := by decide
/-- B4, and the capacity example of section 4.1. -/
theorem test_rbStore_replace_full : outcome (.rbStore p 0 C) (st [(0, A)]) = some ([⟨.ok, []⟩], [(0, C)]) ∧
    faultOf (exec (.rbStore p 2 C) (stCap2 [(0, A), (1, B)])) = some .bufferFull ∧
    outcome (.rbStore p 1 C) (stCap2 [(0, A), (1, B)]) = some ([⟨.ok, []⟩], [(0, A), (1, C)]) := by decide
/-- B11 and B12: a present empty entry, and unsigned key order. -/
theorem test_rbConcat : outcome (.rbConcat p) (st [(0, A), (1, []), (2, C)]) =
      some ([⟨.bytes (A ++ C), []⟩], [(0, A), (1, []), (2, C)]) ∧
    outcome (.rbConcat p) (st [(0, A), (3, B), (4294967295, C)]) =
      some ([⟨.bytes (A ++ B ++ C), []⟩], [(0, A), (3, B), (4294967295, C)]) := by decide
/-- B13, and the other peer's buffer left alone (R95). -/
theorem test_rbClear : outcome (.rbClear p) (st [(1, B)]) = some ([⟨.ok, []⟩], []) ∧
    outcomeKeyed (.rbClear p) (stKeyed [(7, [(0, A)]), (8, [(0, B)])]) = some ([⟨.ok, []⟩], ⟨[], [(8, [(0, B)])]⟩) := by
  constructor <;> decide
/-- B15 and B16. -/
theorem test_rbFinalize :
    outcome (.rbFinalize p 0xA3830348#32) (st [(0, A), (1, B), (2, C)]) = some ([⟨.okBytes (A ++ B ++ C), []⟩], []) ∧
    outcome (.rbFinalize p 0xA3830348#32) (st [(0, A), (2, C)]) = some ([⟨.err .fileChecksumMismatch, []⟩], []) := by
  decide +kernel

/-! ### The receive datapath -/

/-- V3 and V14. -/
theorem test_recv_terminal :
    outcome (.recv p e4) (st [(0, A), (1, B)]) = some ([⟨.received (.completed (A ++ B ++ C)),
      [.transmit p e7, .sink (A ++ B ++ C), .report .transferVerified]⟩], []) ∧
    outcome (.recv p e12) (st [(5, bs [0x51])]) =
      some ([⟨.received .failed, [.transmit p e5, .report .fileChecksumFailure]⟩], []) := by decide +kernel
/-- V4, V7, and R95 with two peers. -/
theorem test_recv_others :
    outcome (.recv p d23) (st [(0, A)]) =
      some ([⟨.received (.discarded .checksumMismatch), [.report (.frameDiscarded .checksumMismatch)]⟩], [(0, A)]) ∧
    outcome (.recv p d16) (st [(0, A)]) = some ([⟨.received (.ignored 7#8), []⟩], [(0, A)]) ∧
    outcomeKeyed (.recv q e2) (stKeyed [(7, [(0, B)])]) =
      some ([⟨.received (.stored 0), [.transmit q e5]⟩], ⟨[], [(7, [(0, B)]), (8, [(0, A)])]⟩) := by
  refine ⟨?_, ?_, ?_⟩ <;> decide +kernel

/-- V1. -/
theorem test_frameData : outcome (.frameData p 0 0x2B5D82F8#32 A) (st []) =
    some ([⟨.received (.stored 0), [.transmit p e5]⟩], [(0, A)]) := by decide +kernel
/-- V16. -/
theorem test_frameDataTerminal : outcome (.frameDataTerminal p 2 0xB77E8C68#32 0xA3830348#32 C) (st []) =
    some ([⟨.received .failed, [.transmit p e7, .report .fileChecksumFailure]⟩], []) := by decide +kernel
/-- V12. -/
theorem test_frameAck : outcome (.frameAck p 9 0xF82AA06A#32 (.terminal 0x11223344#32) []) (st [(0, A)]) =
    some ([⟨.received (.ignored 1#8), []⟩], [(0, A)]) := by decide +kernel
/-- V6. -/
theorem test_frameError : outcome (.frameError p 0 0x83BE8AAC#32 .normal []) (st [(0, A)]) =
    some ([⟨.received (.ignored 2#8), []⟩], [(0, A)]) := by decide +kernel
/-- V7. -/
theorem test_frameUnassigned : outcome (.frameUnassigned p 7#8 0 0x5FC56B77#32 .normal A) (st [(0, A)]) =
    some ([⟨.received (.ignored 7#8), []⟩], [(0, A)]) := by decide +kernel

/-! ### The single-packet configuration -/

/-- S2 and S4. -/
theorem test_spEncode : outcome (.spEncode 0#8 hello) (st []) = some ([⟨.okBytes s2, []⟩], []) ∧
    spEncodeFrame [] 2#8 = .ok s4 := by decide +kernel
/-- S7 and S12. -/
theorem test_spDecode : outcome (.spDecode s2) (st []) = some ([⟨.okSpFrame 0#8 hello, []⟩], []) ∧
    spDecodeFrame false (bs [0xC0, 0xDE, 1, 0, 0, 0, 5, 0x6C, 0x92, 0x68, 0x65, 0x6C, 0x6C, 0x70]) =
      .error .checksumMismatch := by decide +kernel
/-- S17: the reserved byte, unchecked and checked; S15. -/
theorem test_spDecode_reserved :
    spDecodeFrame false (bs [0xC0, 0xDE, 1, 0, 1, 0, 5, 0x07, 0xAC, 0x68, 0x65, 0x6C, 0x6C, 0x6F]) =
      .ok (0#8, hello) ∧
    spDecodeFrame true (bs [0xC0, 0xDE, 1, 0, 1, 0, 5, 0x07, 0xAC, 0x68, 0x65, 0x6C, 0x6C, 0x6F]) =
      .error .reservedNotZero ∧
    spDecodeFrame false (bs [0xC0, 0xDE, 1, 0, 0, 0x10, 0x01, 0x6C, 0x92, 0x68, 0x65, 0x6C, 0x6C, 0x6F]) =
      .error .lengthOutOfRange := by decide +kernel
/-- S18 and S19. -/
theorem test_spServe :
    outcome (.spServe p s13) (st []) =
      some ([⟨.served (.rejected .badMagic), [.report (.frameDiscarded .badMagic), .transmit p s4]⟩], []) ∧
    outcome (.spServe p s2) (st []) = some ([⟨.served (.accepted 0#8 hello), []⟩], []) := by decide +kernel
/-- S19 as an arrival. -/
theorem test_spFrameData : outcome (.spFrameData p 0 0x6C92#16 hello) (st []) =
    some ([⟨.served (.accepted 0#8 hello), []⟩], []) := by decide +kernel
/-- S3 as an arrival. -/
theorem test_spFrameAck : outcome (.spFrameAck p 0 0xB352#16 hello) (st []) =
    some ([⟨.served (.accepted 1#8 hello), []⟩], []) := by decide +kernel
/-- S4 as an arrival, and with a wrong checksum. -/
theorem test_spFrameError :
    outcome (.spFrameError p 0 0xD977#16 []) (st []) = some ([⟨.served (.accepted 2#8 []), []⟩], []) ∧
    outcome (.spFrameError p 0 0xD978#16 []) (st []) = some ([⟨.served (.rejected .checksumMismatch),
      [.report (.frameDiscarded .checksumMismatch), .transmit p s4]⟩], []) := by decide +kernel

/-! ### Steps, the reset event, the sender, the pseudo-operations and the notation -/

/-- P6: reset in the middle of a transfer, then the terminal frame alone. -/
theorem test_step_reset_then_datagram :
    (nextOf (step { st [(0, A), (1, B)] with inbox := [.reset] })).map (fun t => (t.mem, t.outbox)) =
      some (emptyMemory, []) ∧
    (nextOf (step { st [] with inbox := [.transaction (.datagram p e4)] })).map (fun t => (t.mem.rb, t.outbox)) =
      some ([], [⟨.received .failed, [.transmit p e7, .report .fileChecksumFailure]⟩]) := by decide +kernel

theorem test_step_single_packet :
    (nextOf (step { stSp with inbox := [.transaction (.datagram p s13)] })).map State.outbox =
      some [⟨.served (.rejected .badMagic), [.report (.frameDiscarded .badMagic), .transmit p s4]⟩] := by decide +kernel

/-- T10: one chunk, one datagram, E12. -/
theorem test_sender_one_chunk :
    (nextOf (sendNext { st [] with sender := .sending (transferOf Cfg.default hello q) 0 })).map State.outbox =
      some [⟨.transmitted 0, [.transmit q e12]⟩] ∧
    (waitExpired { st [] with sender := .awaitingAck (transferOf Cfg.default hello q) 0 }).outbox =
      [⟨.err .timeout, [.report (.ackTimeout 0), .report (.transferDone 0x3610A686#32)]⟩] := by decide +kernel

/-- T4 and T9: chunk sizes of 1001 bytes and of none. -/
theorem test_chunks : (chunksOf Cfg.default zeros1001).map List.length = [1000, 1] ∧ chunksOf Cfg.default [] = [[]] ∧
    chunksOf { Cfg.default with emptyPayloadOneChunk := false } [] = [] := by
  decide +kernel

/-- A reply that is not an ACK, under the two settings of `TX_BAD_REPLY` (R113), and a mismatched ACK (R105). -/
theorem test_sender_replies :
    (replyArrives e8 { st [] with sender := .awaitingAck ⟨[A, B], 0, q⟩ 0 }).sender = .sending ⟨[A, B], 0, q⟩ 1 ∧
    (replyArrives e8 { State.resetWith { Cfg.default with badReply := .keepWaitingUntilTimeout } with
      sender := .awaitingAck ⟨[A, B], 0, q⟩ 0 }).sender = .awaitingAck ⟨[A, B], 0, q⟩ 0 ∧
    (replyArrives e7 { st [] with sender := .awaitingAck ⟨[A, B], 0, q⟩ 0 }).outbox =
      [⟨.waitEnded (.mismatchedAck 2), [.report (.ackMismatch 0 2)]⟩] := by decide +kernel

/-- R58: the acknowledgement of sequence 0 is E5; `SEND "hello"` is one LASTFRAME; VERIFY of E2 and D23. -/
theorem test_pseudo : outcome (pseudoAckFrame 0) (st []) = some ([⟨.okBytes e5, []⟩], []) ∧
    pseudoSend Cfg.default hello = [.encode 0 0#8 (some 0x3610A686#32) hello] ∧ pseudoVerify e2 = true ∧
    pseudoVerify d23 = false := by decide +kernel

/-- R57: P5 step 8 and V1 as the spec writes them, byte strings in hexadecimal. -/
theorem test_text : textInstr (.rbFinalize p 0xA3830348#32) = "RB_FINALIZE fc=A3830348" ∧
    textResponse ⟨.okBytes (A ++ B ++ C), []⟩ = "Ok(414243)" ∧
    textResponse ⟨.received (.stored 0), [.transmit p e5]⟩ =
      "Stored(0); actions: [Transmit(p7, c0de01010000000000001a5cecad)]" ∧
    textResponse ⟨.received (.ignored 1#8), []⟩ = "Ignored(1); actions: []" := by decide +kernel

/-- R130: the codes and classes of two kinds. -/
theorem test_errorCodes : errorCode .fileChecksumMismatch = some 8 ∧ errorClass .lengthMismatch = some .malformedFrame ∧
    errorClass .bufferFull = none := by decide

/-! ### Witnesses: for every statement with hypotheses, operands and a state that meet all of them, at a boundary of each
clause -/

/-- The state between the two chunks of P1 and its terminal frame. -/
def ab : State := st [(0, A), (1, B)]

theorem test_ab_wf : ab.mem.wf = true := by decide
theorem test_hasRoom (s : State) (h : s.cfg.rbCapacity = none) (r : Peer) (seq : Word) : HasRoom s r seq := by
  intro c hc; rw [h] at hc; cases hc

theorem test_hyp_Crc32SeparatesOneChangedByte : (0#8 : Byte) ≠ 1#8 := by decide
theorem test_hyp_EncodeAnswersWellformedFrame : (2#8 : Byte).toNat ≤ 2 ∧ zeros1000.length ≤ 1000 := by
  rw [zeros1000_length]; decide
theorem test_hyp_EncodeSizeBoundary :
    (2#8 : Byte).toNat ≤ 2 ∧ zeros1000.length ≤ 1000 ∧ 1000 < zeros1001.length := by
  rw [zeros1000_length, zeros1001_length]; decide
theorem test_hyp_UnassignedTypeRefused : 3 ≤ (3#8 : Byte).toNat ∧ 3 ≤ (255#8 : Byte).toNat := by decide
theorem test_hyp_DecodeInvertsEncode : (2#8 : Byte).toNat ≤ 2 ∧ zeros1000.length ≤ 1000 := by
  rw [zeros1000_length]; decide
/-- D2, D20, D10, the fifth row of section 3.3, D15 and D24: one datagram for each clause. -/
theorem test_hyp_DecodeReportsFirstFailure :
    (e2.take 13).length < 14 ∧ (14 ≤ (zeros 14).length ∧ memRead (zeros 14) 0 2 ≠ 0xC0DE) ∧
    (let D := bs [0xC0, 0xDE, 0, 0, 0, 0, 0, 0, 0, 1, 0x2B, 0x5D, 0x82, 0xF8, 0x41]
     14 ≤ D.length ∧ memRead D 0 2 = 0xC0DE ∧ memRead D 2 1 ≠ 1) ∧
    (let D := bs [0xC0, 0xDE, 1, 0, 0, 0, 0, 0, 3, 0xE9, 0x78, 0x82, 0xE4, 0x6D]
     14 ≤ D.length ∧ memRead D 0 2 = 0xC0DE ∧ memRead D 2 1 = 1 ∧ 1000 < memRead D 8 2) ∧
    (let D := e2.take 14
     14 ≤ D.length ∧ memRead D 0 2 = 0xC0DE ∧ memRead D 2 1 = 1 ∧ memRead D 8 2 ≤ 1000 ∧
       D.length ≠ 14 + memRead D 8 2 ∧ D.length ≠ 18 + memRead D 8 2) ∧
    (let D := bs [0xC0, 0xDE, 1, 0, 0, 0, 0, 0, 0, 1, 0x2B, 0x5D, 0x82, 0xF9, 0x41]
     14 ≤ D.length ∧ memRead D 0 2 = 0xC0DE ∧ memRead D 2 1 = 1 ∧ memRead D 8 2 ≤ 1000 ∧
       D.length = 14 + memRead D 8 2 ∧ (crc32 (D.take 10 ++ zeros 4 ++ D.drop 14)).toNat ≠ memRead D 10 4) := by
  decide +kernel
theorem test_hyp_WellformedFrameIsItsEncoding :
    decodeFrame e4 = .ok ⟨0#8, 2, C, .terminal 0xA3830348#32⟩ := by decide +kernel
/-- Frame E4 of section 3.4, at the first and the last bit of each clause's range. -/
theorem test_hyp_SingleBitFlipRejected :
    decodeFrame e4 = .ok ⟨0#8, 2, C, .terminal 0xA3830348#32⟩ ∧ 151 < 8 * e4.length ∧
    decodeFrame (flipBit e4 0) = .error .badMagic ∧ decodeFrame (flipBit e4 15) = .error .badMagic ∧
    decodeFrame (flipBit e4 16) = .error .badVersion ∧ decodeFrame (flipBit e4 23) = .error .badVersion ∧
    decodeFrame (flipBit e4 24) = .error .checksumMismatch ∧ decodeFrame (flipBit e4 63) = .error .checksumMismatch ∧
    decodeFrame (flipBit e4 69) = .error .lengthOutOfRange ∧ decodeFrame (flipBit e4 70) = .error .lengthMismatch ∧
    decodeFrame (flipBit e4 77) = .error .checksumMismatch ∧ decodeFrame (flipBit e4 79) = .error .lengthMismatch ∧
    decodeFrame (flipBit e4 80) = .error .checksumMismatch ∧
    decodeFrame (flipBit e4 151) = .error .checksumMismatch := by decide +kernel
theorem test_hyp_FirstWordSelectsKind :
    (14 ≤ (zeros 14).length ∧ memRead (zeros 14) 0 4 / 65536 ≠ 0xC0DE) ∧
    (let D := bs [0xC0, 0xDE, 0, 0, 0, 0, 0, 0, 0, 1, 0x2B, 0x5D, 0x82, 0xF8, 0x41]
     14 ≤ D.length ∧ memRead D 0 4 / 65536 = 0xC0DE ∧ memRead D 0 4 / 256 % 256 ≠ 1) ∧
    (14 ≤ d16.length ∧ decodeFrame d16 = .ok ⟨7#8, 0, A, .normal⟩ ∧ memRead d16 0 4 = 0xC0DE0107) := by decide +kernel
/-- Room in a bounded buffer with one place left, and for a present key when none is. -/
theorem test_hyp_RbStoreWritesOneEntry : zeros1000.length ≤ 1000 ∧ 1000 < zeros1001.length ∧
    HasRoom (stCap2 [(0, A)]) p 1 ∧ HasRoom (stCap2 [(0, A), (1, B)]) p 1 ∧ ¬ HasRoom (stCap2 [(0, A), (1, B)]) p 2 := by
  rw [zeros1000_length, zeros1001_length, hasRoom_iff, hasRoom_iff, hasRoom_iff]; decide
theorem test_hyp_FullBufferFaults : A.length ≤ 1000 ∧ decodeFrame e2 = .ok ⟨0#8, 0, A, .normal⟩ ∧
    faultOf (exec (.recv p e2) (stCap2 [(3, A), (4, B)])) = some .bufferFull ∧
    faultOf (exec (.recv p e2) (stCap2 [(0, A), (4, B)])) = none := by decide +kernel
theorem test_hyp_RbStoreLastWins : B.length ≤ 1000 ∧ (nextOf (exec (.rbStore p 0 A) (stCap2 []))).isSome = true := by
  decide
theorem test_hyp_RbStoresCommute : (0 : Word) ≠ 1 ∧ A.length ≤ 1000 ∧ ab.cfg.rbCapacity = none := by decide
theorem test_hyp_RbConcatAscending : (st [(0, A), (4294967295, C)]).mem.wf = true := by decide
theorem test_hyp_RbClearEmptiesBuffer : (stKeyed [(7, [(0, A)])]).mem.wf = true ∧ (st []).mem.wf = true ∧
    (st []).buffer p = [] := by decide
theorem test_hyp_RbFinalizeChecksAndClears : ab.mem.wf = true ∧ (st []).mem.wf = true ∧ (st []).buffer p = [] := by
  decide
theorem test_hyp_RecvDiscardsMalformed : decodeFrame d23 = .error .checksumMismatch := by decide +kernel
theorem test_hyp_RecvIgnoresNonData : decodeFrame d16 = .ok ⟨7#8, 0, A, .normal⟩ ∧ (7#8 : Byte) ≠ 0#8 := by
  decide +kernel
theorem test_hyp_RecvStoresAndAcknowledges :
    decodeFrame e2 = .ok ⟨0#8, 0, A, .normal⟩ ∧ HasRoom (stCap2 [(1, B)]) p 0 := by
  rw [hasRoom_iff]; decide +kernel
theorem test_hyp_RecvTerminalFinalizes : ab.mem.wf = true ∧
    decodeFrame e4 = .ok ⟨0#8, 2, C, .terminal 0xA3830348#32⟩ ∧ HasRoom ab p 2 :=
  ⟨test_ab_wf, by decide +kernel, test_hasRoom _ rfl _ _⟩
theorem test_hyp_RecvAlwaysAnswers : ab.cfg.rbCapacity = none := rfl
theorem test_hyp_FrameDataStored : A.length ≤ 1000 ∧
    0x2B5D82F8#32 = frameChecksum (layFrame 0#8 0 0x2B5D82F8#32 .normal A) ∧ HasRoom (st []) p 0 :=
  ⟨by decide, by decide +kernel, test_hasRoom _ rfl _ _⟩
theorem test_hyp_FrameTerminalFinalized : ab.mem.wf = true ∧ C.length ≤ 1000 ∧
    0xB77E8C68#32 = frameChecksum (layFrame 0#8 2 0xB77E8C68#32 (.terminal 0xA3830348#32) C) ∧ HasRoom ab p 2 :=
  ⟨test_ab_wf, by decide, by decide +kernel, test_hasRoom _ rfl _ _⟩
theorem test_hyp_NonDataFramesIgnored :
    0xF82AA06A#32 = frameChecksum (layFrame 1#8 9 0xF82AA06A#32 (.terminal 0x11223344#32) []) ∧
    0x83BE8AAC#32 = frameChecksum (layFrame 2#8 0 0x83BE8AAC#32 .normal []) ∧ 3 ≤ (7#8 : Byte).toNat ∧
    0x5FC56B77#32 = frameChecksum (layFrame 7#8 0 0x5FC56B77#32 .normal A) := by decide +kernel
theorem test_hyp_WrongChecksumDiscarded : A.length ≤ 1000 ∧
    0x2B5D82F9#32 ≠ frameChecksum (layFrame 0#8 0 0x2B5D82F9#32 .normal A) := by decide +kernel
theorem test_hyp_SpEncodeAnswersFrame : (2#8 : Byte).toNat ≤ 2 ∧ zeros4096.length ≤ 4096 ∧ 4096 < zeros4097.length := by
  rw [zeros4096_length, zeros4097_length]; decide
theorem test_hyp_SpDecodeInvertsSpEncode : (2#8 : Byte).toNat ≤ 2 ∧ zeros4096.length ≤ 4096 := by
  rw [zeros4096_length]; decide
theorem test_hyp_SpServeRejectsOrAccepts : spDecodeFrame stSp.cfg.spReservedCheck s13 = .error .badMagic ∧
    spDecodeFrame stSp.cfg.spReservedCheck s2 = .ok (0#8, hello) := by decide +kernel
theorem test_hyp_SpFramesAccepted : hello.length ≤ 4096 ∧ stSp.cfg.spReservedCheck = false ∧
    0x6C92#16 = spChecksum (laySpFrame 0#8 0#8 0x6C92#16 hello) ∧
    0xB352#16 = spChecksum (laySpFrame 1#8 0#8 0xB352#16 hello) ∧
    0xD977#16 = spChecksum (laySpFrame 2#8 0#8 0xD977#16 []) := by decide +kernel
/-- A wrong checksum; and S17 with the parameter set. -/
theorem test_hyp_SpFramesRejected : 0x6C93#16 ≠ spChecksum (laySpFrame 0#8 0#8 0x6C93#16 hello) ∧
    (State.resetWith { Cfg.default with spReservedCheck := true }).cfg.spReservedCheck = true ∧ (1#8 : Byte) ≠ 0#8 := by
  decide +kernel
theorem test_hyp_PureOperationsWriteNoBuffer : concernedPeer (.crc32 []) = none ∧
    exec (.crc32 []) (st []) = .next ((st []).respond (.word 0) []) := ⟨rfl, rfl⟩
/-- An instruction that concerns a peer's buffer, and one that concerns none. -/
theorem test_hyp_EveryInstructionAnswersOnce :
    concernedPeer (.rbStore p 0 A) = some p ∧ (nextOf (exec (.rbStore p 0 A) ab)).isSome = true ∧
    concernedPeer (.rbConcat p) = none ∧ (nextOf (exec (.rbConcat p) ab)).isSome = true := by decide
/-- Two keyed machines that differ in the other peer's buffer alone. -/
theorem test_hyp_RecvReadsOnlyItsPeer : (stKeyed [(7, [(0, A)]), (8, [(0, B)])]).mem.wf = true ∧
    (stKeyed [(7, [(0, A)])]).mem.wf = true ∧
    (stKeyed [(7, [(0, A)]), (8, [(0, B)])]).buffer p = (stKeyed [(7, [(0, A)])]).buffer p ∧
    (nextOf (exec (.recv p e2) (stKeyed [(7, [(0, A)]), (8, [(0, B)])]))).isSome = true := by decide +kernel
/-- The keyed machine also holds another peer's entry; the events are peer `p`'s. -/
theorem test_hyp_OneSenderCannotTell :
    let s : State := { stKeyed [(7, [(0, A)]), (8, [(0, B)])] with inbox := [.transaction (.datagram p e4), .reset] }
    let t : State := { st [(0, A)] with inbox := [.transaction (.datagram p e4), .reset] }
    s.mem.wf = true ∧ t.mem.wf = true ∧ s.cfg.peerKeyed = true ∧ t.cfg = { s.cfg with peerKeyed := false } ∧
      sameForPeer p s t ∧ ∀ e ∈ s.inbox, eventFromOnly p e = true :=
  ⟨by decide, by decide, rfl, rfl, ⟨by decide, rfl, rfl, rfl⟩, by decide⟩
theorem test_hyp_StepRunsDecoded : decode (st []).cfg.variant (.command p [0x11#8]) = .ok (.rbConcat p) ∧
    decode (st []).cfg.variant (.command p [0x00#8]) = .error .unknownSelector ∧ (st []).inbox = [] := by decide
theorem test_hyp_DatagramIsReceived : (st []).cfg.variant = .chunked ∧ stSp.cfg.variant = .singlePacket ∧
    ({ stSp with inbox := [.transaction (.datagram p s2)] } : State).inbox = .transaction (.datagram p s2) :: [] :=
  ⟨rfl, rfl, rfl⟩
theorem test_hyp_UnknownSelectorRefused :
    (0x00#8 : Byte) ∉ [0x01#8, 0x02#8, 0x03#8, 0x10#8, 0x11#8, 0x12#8, 0x13#8, 0x20#8, 0x42#8, 0x43#8, 0x60#8] := by
  decide
theorem test_hyp_ResetEventEmptiesBuffers : ({ ab with inbox := [.reset] } : State).inbox = .reset :: [] := rfl
/-- An invariant state with a full bounded buffer, a running sender and an event to take. -/
theorem test_hyp_StepKeepsInvariant :
    let s : State := { stCap2 [(0, A), (1, B)] with
      sender := .awaitingAck ⟨[A, B], 0, q⟩ 1, inbox := [.transaction (.datagram p e2)] }
    s.Inv ∧ (nextOf (step s)).isSome = true := ⟨⟨by decide, by decide, ⟨by decide, by decide⟩, by decide⟩, by decide +kernel⟩
theorem test_hyp_StepTakesOneEvent : (nextOf (step { ab with inbox := [.reset, .sendNext] })).isSome = true := by decide
/-- The three ways an entry leaves: reset, RB_CLEAR, and the terminal frame E4. -/
theorem test_hyp_EntriesLeaveOnlyByClearing : (assocGet 0 (ab.buffer p)).isSome = true ∧
    ((nextOf (step { ab with inbox := [.reset] })).map fun t => assocGet 0 (t.buffer p)) = some none ∧
    ((nextOf (step { ab with inbox := [.transaction (.command p [0x12#8])] })).map fun t => assocGet 0 (t.buffer p)) =
      some none ∧
    ((nextOf (step { ab with inbox := [.transaction (.datagram p e4)] })).map fun t => assocGet 0 (t.buffer p)) =
      some none := by decide +kernel
theorem test_hyp_UnboundedRunsNeverFault : ab.Inv ∧ ab.cfg.rbCapacity = none :=
  ⟨⟨by decide, by decide, ⟨by decide, by decide⟩, by decide⟩, rfl⟩
theorem test_hyp_InstructionDecodeInvertsEncode :
    Instr.wf (.frameUnassigned p 255#8 0xFFFFFFFF#32 0 (.terminal 0) zeros1000) = true ∧
    Instr.fitsVariant (.frameUnassigned p 255#8 0xFFFFFFFF#32 0 (.terminal 0) zeros1000) .chunked = true := by
  simp [Instr.wf, Instr.fitsVariant, maxPayload, zeros1000_length, assignedType, typeData, typeAck, typeError]
theorem test_hyp_ChunksPartitionPayload : A ≠ [] ∧ zeros1001 ≠ [] := by decide
theorem test_hyp_TransferFramesCarryChunks :
    0 < (chunksOf Cfg.default hello).length ∧ (chunksOf Cfg.default hello).length ≤ 2 ^ 32 ∧
    1 ≤ hello.length ∧ zeros1000.length ≤ 1000 := by
  rw [zeros1000_length]; decide +kernel
/-- The hypotheses of TransferIsDelivered for a payload of three chunks, the first two arriving in the wrong order. -/
def DeliveredHypotheses (W : Bytes) : Prop :=
  ∃ (frames : Nat → Bytes) (s : State), s.mem.wf = true ∧ s.buffer p = [] ∧ s.cfg.rbCapacity = none ∧
    s.cfg.variant = .chunked ∧ (chunksOf s.cfg W).length = 2 + 1 ∧ 2 + 1 ≤ 2 ^ 32 ∧ [1, 0].Perm (List.range 2) ∧
    (∀ i, i ≤ 2 → (transferOf s.cfg W q).frame i = .ok (frames i)) ∧
    s.inbox = ([1, 0] ++ [2]).map (fun i => Event.transaction (.datagram p (frames i)))

theorem deliveredHypotheses_of_lengths (W : Bytes) (h : (chunksOf Cfg.default W).map List.length = [1000, 1000, 1]) :
    DeliveredHypotheses W := by
  have hl : ∀ i, ((transferOf Cfg.default W q).chunks.getD i []).length ≤ maxPayload := by
    have ht : (transferOf Cfg.default W q).chunks = chunksOf Cfg.default W := rfl
    intro i
    rw [ht]
    by_cases hi : i < (chunksOf Cfg.default W).length
    · have hm : ((chunksOf Cfg.default W).getD i []).length ∈ [1000, 1000, 1] := by
        rw [← h, List.getD_eq_getElem?_getD, List.getElem?_eq_getElem hi]
        exact List.mem_map.2 ⟨_, List.getElem_mem hi, rfl⟩
      have h2 : ∀ n ∈ [1000, 1000, 1], n ≤ maxPayload := by decide
      exact h2 _ hm
    · rw [List.getD_eq_getElem?_getD, List.getElem?_eq_none (by omega)]; simp
  have hlen : (chunksOf Cfg.default W).length = 3 := by
    have := congrArg List.length h
    simpa using this
  let frames : Nat → Bytes := fun i => buildFrame (BitVec.ofNat 32 i) ((transferOf Cfg.default W q).chunks.getD i [])
    typeData ((transferOf Cfg.default W q).fcOperand i)
  exact ⟨frames, { st [] with inbox := ([1, 0] ++ [2]).map fun i => Event.transaction (.datagram p (frames i)) }, rfl, rfl,
    rfl, rfl, hlen, by decide, by decide, fun i _ => encodeFrame_ok (hl i), rfl⟩

def zeros2001 : Bytes := List.replicate 2001 0#8

theorem test_hyp_TransferIsDelivered : DeliveredHypotheses zeros2001 :=
  deliveredHypotheses_of_lengths zeros2001 (by decide +kernel)

/-- The hypotheses of SenderTransmitsEveryFrame for a transfer of two chunks. -/
def TransmitsHypotheses (cfg : Cfg) (waits : List (List Event × Event)) : Prop :=
  let t : Transfer := ⟨[A, B], 0x30694C07#32, q⟩
  let s : State := { State.resetWith cfg with
    sender := .sending t 0, inbox := waits.flatMap fun w => Event.sendNext :: (w.1 ++ [w.2]) }
  t.wf = true ∧ 0 < t.chunks.length ∧ waits.length = t.chunks.length ∧
    (∀ w ∈ waits, (∀ e ∈ w.1, keepsWaiting s.cfg e = true) ∧ endsWait s.cfg w.2 = true) ∧ s.sender = .sending t 0 ∧
    s.inbox = waits.flatMap (fun w => Event.sendNext :: (w.1 ++ [w.2]))

/-- Both settings of `TX_BAD_REPLY`: the ERROR frame E8 ends a wait, or is waited through until the ACK E7 comes. -/
theorem test_hyp_SenderTransmitsEveryFrame :
    TransmitsHypotheses Cfg.default [([], .reply e8), ([], .waitExpired)] ∧
    TransmitsHypotheses { Cfg.default with badReply := .keepWaitingUntilTimeout }
      [([.reply e8, .reply d23], .reply e7), ([.reply e8], .waitExpired)] :=
  ⟨⟨by decide, by decide, rfl, by decide +kernel, rfl, rfl⟩, ⟨by decide, by decide, rfl, by decide +kernel, rfl, rfl⟩⟩
/-- There are byte strings of every length. -/
theorem bytes_of_length (n : Nat) : ∃ W : Bytes, W.length = n := ⟨List.replicate n 0#8, List.length_replicate⟩

/-- The four clauses: one chunk, none, more than 2^32 of them, and a transfer in progress. -/
theorem test_hyp_SendStartsTransfer :
    0 < (chunksOf Cfg.default hello).length ∧ (chunksOf Cfg.default hello).length ≤ 2 ^ 32 ∧
    (chunksOf { Cfg.default with emptyPayloadOneChunk := false } []).length = 0 ∧
    (∃ W : Bytes, 2 ^ 32 < (chunksOf Cfg.default W).length) ∧
    (st []).sender = .idle ∧ (∃ fc, ({ st [] with sender := .done 5 } : State).sender = .done fc) ∧
    ({ st [] with sender := .sending ⟨[A], 0, q⟩ 0 } : State).sender = .sending ⟨[A], 0, q⟩ 0 := by
  refine ⟨by decide +kernel, by decide +kernel, by decide, ?_, rfl, ⟨5, rfl⟩, rfl⟩
  obtain ⟨W, hW⟩ := bytes_of_length (1000 * 2 ^ 32 + 1)
  have hne : W.isEmpty = false := by
    cases W with
    | nil => simp at hW
    | cons b W => rfl
  refine ⟨W, ?_⟩
  simp only [chunksOf, hne, Bool.false_and, Bool.false_eq_true, if_false, List.length_map, List.length_range,
    chunkCount, maxPayload, hW]
  decide
/-- A wait before the last chunk and the wait for the last one; and the replies of the three clauses. -/
theorem test_hyp_WaitEndsAndSenderProceeds :
    0 + 1 < (⟨[A, B], 0, q⟩ : Transfer).chunks.length ∧ 1 + 1 = (⟨[A, B], 0, q⟩ : Transfer).chunks.length ∧ decodeFrame e5 = .ok ⟨1#8, 0, [], .normal⟩ ∧
    decodeFrame e7 = .ok ⟨1#8, 2, [], .normal⟩ ∧ decodeFrame e8 = .ok ⟨2#8, 0, [], .normal⟩ ∧
    decodeFrame d23 = .error .checksumMismatch := by decide +kernel
/-- V8 twice. -/
theorem test_hyp_DuplicateTerminalDeliversTwice : (st []).mem.wf = true ∧ (st []).buffer p = [] ∧
    (st []).cfg.rbCapacity = none ∧ decodeFrame e12 = .ok ⟨0#8, 0, hello, .terminal (crc32 hello)⟩ :=
  ⟨rfl, rfl, rfl, by decide +kernel⟩
/-- V14. -/
theorem test_hyp_StaleChunkIsConcatenated : (st [(5, A)]).mem.wf = true ∧ (st [(5, A)]).buffer p = [(5, A)] ∧
    (0 : Word).toNat < 5 ∧ decodeFrame e12 = .ok ⟨0#8, 0, hello, .terminal 0x3610A686#32⟩ := by
  decide +kernel

end Sys2Proof.Tests
end

section
/-! Proofs of the obligations of 00_scope.md: what one step is, what it takes and returns, and the frame of every
instruction. The step lemmas are one per kind of event; the frame of an instruction is read off `answered_exec`. -/

namespace Sys2Proof.Machine

variable {s t : State} {p : Peer} {i : Instr} {tr : Transaction} {rest : List Event}

/-! ### One step, by what the inbox holds -/

/-- The block is passive: nothing handed over, nothing done (R137). -/
theorem step_nil (he : s.inbox = []) : step s = .next s := by
  simp only [step, he]

/-- A transaction that decodes is its instruction's execution (R8). -/
theorem step_of_decode (he : s.inbox = .transaction tr :: rest) (hd : decode s.cfg.variant tr = .ok i) :
    step s = exec i { s with inbox := rest } := by
  simp only [step, he, performTransaction, hd]

/-- A command that names no operation is refused (R56). -/
theorem step_of_decode_error {e : DecodeError} (he : s.inbox = .transaction tr :: rest)
    (hd : decode s.cfg.variant tr = .error e) : step s = .refused (.undecodable e) := by
  simp only [step, he, performTransaction, hd]

/-- The reset event empties the buffers and does nothing else (R151). -/
theorem step_reset (he : s.inbox = .reset :: rest) :
    step s = .next (State.resetBuffers { s with inbox := rest }) := by
  simp only [step, he, performReset]

/-- Settles O41: the two outcomes of decoding and the empty inbox. -/
theorem stepRunsDecoded : Obligations.StepRunsDecoded :=
  fun _ => ⟨fun _ _ _ he hd => step_of_decode he hd, fun _ _ _ he hd => step_of_decode_error he hd, step_nil⟩

/-! ### What a step takes and returns -/

/-- Settles O48, by the kind of the oldest event: none, a transaction (`answered_exec`), the reset, or an event of the
sender (`senderMoved_step`). -/
theorem stepTakesOneEvent : Obligations.StepTakesOneEvent := by
  intro s t h
  cases he : s.inbox with
  | nil =>
    rw [step_nil he] at h
    cases h
    exact ⟨rfl, he, [], by simp⟩
  | cons e rest =>
    by_cases htr : ∃ tr, e = .transaction tr
    · obtain ⟨tr, rfl⟩ := htr
      obtain ⟨i, -, hx⟩ := step_transaction he h
      obtain ⟨p, -, ha⟩ := answered_exec hx
      obtain ⟨r, hr⟩ := ha.outbox
      exact ⟨ha.cfg, ha.inbox, [r], by simp, hr⟩
    · by_cases hr : e = .reset
      · subst hr
        rw [step_reset he] at h
        cases h
        exact ⟨rfl, rfl, [], by simp⟩
      · have hm := senderMoved_step he (not_exists.mp htr) hr h
        exact ⟨hm.cfg, hm.inbox, hm.outbox⟩

/-! ### The frame of an instruction -/

/-- Every effect on the buffers that `MemEffect` allows is one of a state whose frame is known: the state left as it
was, one buffer written, or a buffer written and cleared. -/
theorem memEffect_respondedWith {m : Memory} (h : MemEffect s p m) (r : Response) :
    ∃ u : State, u.mem = m ∧ RespondedWith s u p r := by
  cases h with
  | unchanged => exact ⟨_, respond_mem _ r.result r.actions, respondedWith_respond s p ..⟩
  | stored => exact ⟨_, respond_mem _ r.result r.actions, respondedWith_setBuffer s p ..⟩
  | cleared => exact ⟨_, respond_mem _ r.result r.actions, respondedWith_setBuffer s p ..⟩
  | finalized => exact ⟨_, respond_mem _ r.result r.actions, respondedWith_finalized s p ..⟩

theorem respondedWith_of_answered (h : Answered s t p) : ∃ r, RespondedWith s t p r := by
  obtain ⟨r, hr⟩ := h.outbox
  obtain ⟨u, hm, hu⟩ := memEffect_respondedWith h.mem r
  refine ⟨r, h.cfg, h.sender, h.inbox, hr, hm ▸ hu.unselected, fun hk q hq => ?_⟩
  calc t.buffer q = u.buffer q := buffer_congr (h.cfg.trans hu.cfg.symm) hm.symm q
    _ = s.buffer q := hu.others hk q hq

/-- An instruction that concerns no peer leaves the whole store as it was (R10). -/
theorem exec_mem_of_concernedPeer_none (hc : concernedPeer i = none) (h : exec i s = .next t) : t.mem = s.mem := by
  obtain ⟨p, hp, -⟩ := answered_exec h
  exact hp.resolve_left (by simp [hc])

/-- An instruction that concerns peer `p` answers within the frame of `p`'s buffer (R95). -/
theorem exec_answered_of_concernedPeer (hc : concernedPeer i = some p) (h : exec i s = .next t) : Answered s t p := by
  obtain ⟨q, hq, ha⟩ := answered_exec h
  rcases hq with hq | hm
  · obtain rfl : p = q := by simpa [hc] using hq
    exact ha
  · exact ⟨ha.cfg, ha.sender, ha.inbox, ha.outbox, hm ▸ .unchanged⟩

/-- Settles O38, by whether the instruction concerns a peer. -/
theorem everyInstructionAnswersOnce : Obligations.EveryInstructionAnswersOnce := by
  intro i s t h
  cases hc : concernedPeer i with
  | none =>
    obtain ⟨p, -, ha⟩ := answered_exec h
    obtain ⟨r, hr⟩ := ha.outbox
    exact ⟨r, exec_mem_of_concernedPeer_none hc h, ha.cfg, ha.sender, ha.inbox, hr⟩
  | some p => exact respondedWith_of_answered (exec_answered_of_concernedPeer hc h)

end Sys2Proof.Machine
end

section
/-! Proofs of the obligations of 10_state.md about the invariant and the entries of the buffers. The invariant is read
as one predicate on the parameters and the store (`StoreInv`) beside the sender's; what an instruction may do to the
store comes from `answered_exec`, and each event of the sender's has one lemma about the phase it leaves. -/

namespace Sys2Proof.Machine

variable {s t : State} {p q : Peer} {i : Instr} {e : Event} {tr : Transfer} {rest : List Event} {b : Buffer}
  {seq : Word} {payload : Bytes} {cfg : Cfg} {m : Memory}

/-! ### What a step takes -/

/-- What a step that answers a next state took: nothing, a transaction that decodes, the reset, or an event of the
sender's. -/
theorem step_cases (h : step s = .next t) :
    (s.inbox = [] ∧ t = s) ∨
    (∃ tr rest i, s.inbox = .transaction tr :: rest ∧ decode s.cfg.variant tr = .ok i ∧
      exec i { s with inbox := rest } = .next t) ∨
    (∃ rest, s.inbox = .reset :: rest ∧ t = State.resetBuffers { s with inbox := rest }) ∨
    ∃ e rest, s.inbox = e :: rest ∧ (∀ tr, e ≠ .transaction tr) ∧ e ≠ .reset := by
  cases he : s.inbox with
  | nil =>
    rw [step_nil he] at h
    cases h
    exact .inl ⟨rfl, rfl⟩
  | cons e rest =>
    cases e with
    | transaction tr =>
      obtain ⟨i, hd, hx⟩ := step_transaction he h
      exact .inr (.inl ⟨tr, rest, i, rfl, hd, hx⟩)
    | reset =>
      rw [step_reset he] at h
      cases h
      exact .inr (.inr (.inl ⟨rest, rfl, rfl⟩))
    | send W dest => exact .inr (.inr (.inr ⟨_, rest, rfl, by simp, by simp⟩))
    | sendNext => exact .inr (.inr (.inr ⟨_, rest, rfl, by simp, by simp⟩))
    | reply d => exact .inr (.inr (.inr ⟨_, rest, rfl, by simp, by simp⟩))
    | waitExpired => exact .inr (.inr (.inr ⟨_, rest, rfl, by simp, by simp⟩))

/-! ### The reset state -/

@[simp] theorem resetWith_buffer (cfg : Cfg) (p : Peer) : (State.resetWith cfg).buffer p = [] := by
  unfold State.buffer
  split <;> rfl

/-- The receiver awaits its first chunk exactly when the buffer is empty (R16). -/
theorem receiverPhase_awaiting_iff : receiverPhase s p = .awaitingFirstChunk ↔ s.buffer p = [] := by
  unfold receiverPhase
  split <;> simp_all

/-- Settles O45: `State.reset` is the reset state under the default parameters, so one lemma serves both halves. -/
theorem resetStateIsEmpty : Obligations.ResetStateIsEmpty := by
  have empty (cfg : Cfg) (p : Peer) : (State.resetWith cfg).buffer p = [] ∧
      receiverPhase (State.resetWith cfg) p = .awaitingFirstChunk :=
    ⟨resetWith_buffer cfg p, receiverPhase_awaiting_iff.2 (resetWith_buffer cfg p)⟩
  exact ⟨empty Cfg.default, empty⟩

/-! ### The invariant of the store -/

/-- The part of `State.Inv` that speaks of the buffers, as a predicate on the parameters and the store. -/
structure StoreInv (cfg : Cfg) (m : Memory) : Prop where
  wf : m.wf = true
  unused : if cfg.peerKeyed then m.rb = [] else m.rbs = []
  roomShared : withinCapacity cfg m.rb = true
  roomKeyed : ∀ e ∈ m.rbs, withinCapacity cfg e.2 = true

theorem inv_iff : s.Inv ↔ StoreInv s.cfg s.mem ∧ s.sender.wf = true := by
  have hone : oneArrangement s = true ↔ if s.cfg.peerKeyed then s.mem.rb = [] else s.mem.rbs = [] := by
    unfold oneArrangement
    split <;> simp
  constructor
  · rintro ⟨hwf, hone', ⟨hrb, hrbs⟩, hsend⟩
    exact ⟨⟨hwf, hone.1 hone', hrb, List.all_eq_true.1 hrbs⟩, hsend⟩
  · rintro ⟨⟨hwf, hunused, hrb, hrbs⟩, hsend⟩
    exact ⟨hwf, hone.2 hunused, ⟨hrb, List.all_eq_true.2 hrbs⟩, hsend⟩

@[simp] theorem withinCapacity_nil : withinCapacity cfg [] = true := by
  unfold withinCapacity
  split <;> simp

theorem withinCapacity_iff : withinCapacity cfg b = true ↔ ∀ c, cfg.rbCapacity = some c → b.length ≤ c := by
  unfold withinCapacity
  cases cfg.rbCapacity <;> simp

/-- With every buffer empty the invariant holds under any parameters (R12, R150). -/
theorem storeInv_empty (cfg : Cfg) : StoreInv cfg emptyMemory :=
  ⟨emptyMemory_wf, by split <;> rfl, withinCapacity_nil, by simp [emptyMemory]⟩

/-- Settles O46: the reset store is empty and the sender idle. -/
theorem resetHoldsInvariant : Obligations.ResetHoldsInvariant := by
  have inv (cfg : Cfg) : (State.resetWith cfg).Inv := inv_iff.2 ⟨storeInv_empty cfg, rfl⟩
  exact ⟨inv Cfg.default, inv⟩

theorem withinCapacity_buffer (h : StoreInv s.cfg s.mem) (p : Peer) : withinCapacity s.cfg (s.buffer p) = true := by
  unfold State.buffer
  split
  · unfold peerBuffer
    cases hg : assocGet p.id s.mem.rbs with
    | none => simp
    | some b => exact h.roomKeyed _ (mem_of_assocGet hg)
  · exact h.roomShared

/-- A store that does not overflow leaves the buffer within its capacity: its key was present, and the length stays, or
there was room for one entry more (R81). -/
theorem withinCapacity_put (h : StoreInv s.cfg s.mem) (ho : s.storeOverflows p seq = false) :
    withinCapacity s.cfg (assocPut seq.toNat payload (s.buffer p)) = true := by
  refine withinCapacity_iff.2 fun c hc => ?_
  rcases hasRoom_iff.2 ho c hc with hpresent | hroom
  · rw [assocPut_length_of_present hpresent (bufferWf_iff.1 (buffer_wf h.wf p)).1]
    exact withinCapacity_iff.1 (withinCapacity_buffer h p) c hc
  · exact assocPut_length_le.trans hroom

/-- Writing a canonical buffer within its capacity keeps the invariant of the store. -/
theorem storeInv_setBuffer (h : StoreInv s.cfg s.mem) (hb : bufferWf b = true) (hc : withinCapacity s.cfg b = true) :
    StoreInv s.cfg (s.setBuffer p b).mem := by
  have hwf := setBuffer_wf (p := p) h.wf hb
  have hu := h.unused
  cases hk : s.cfg.peerKeyed with
  | false =>
    simp only [State.setBuffer, hk, Bool.false_eq_true, if_false] at hwf hu ⊢
    exact ⟨hwf, by simpa [hk] using hu, hc, h.roomKeyed⟩
  | true =>
    simp only [State.setBuffer, hk, if_true] at hwf hu ⊢
    refine ⟨hwf, by simpa [hk] using hu, h.roomShared, fun e he => ?_⟩
    rcases mem_setPeerBuffer he with ⟨rfl, -⟩ | he
    · exact hc
    · exact h.roomKeyed e he

theorem storeInv_putChunk (h : StoreInv s.cfg s.mem) (hl : payload.length ≤ maxPayload)
    (ho : s.storeOverflows p seq = false) : StoreInv s.cfg (s.putChunk p seq payload).mem :=
  storeInv_setBuffer h (bufferWf_put (buffer_wf h.wf p) hl) (withinCapacity_put h ho)

theorem storeInv_clearBuffer (h : StoreInv s.cfg s.mem) : StoreInv s.cfg (s.clearBuffer p).mem :=
  storeInv_setBuffer h bufferWf_nil withinCapacity_nil

/-- Every effect an instruction may have on the buffers keeps the invariant of the store. -/
theorem storeInv_memEffect (h : StoreInv s.cfg s.mem) (hm : MemEffect s p m) : StoreInv s.cfg m := by
  cases hm with
  | unchanged => exact h
  | stored seq payload hl ho => exact storeInv_putChunk h hl ho
  | cleared => exact storeInv_clearBuffer h
  | finalized seq payload hl ho =>
    have hput := storeInv_putChunk h hl ho
    rw [← putChunk_cfg s p seq payload] at hput ⊢
    exact storeInv_clearBuffer hput

/-! ### The invariant of the sender -/

theorem transfer_wf_iff : tr.wf = true ↔
    (∀ c ∈ tr.chunks, c.length ≤ maxPayload) ∧ tr.chunks.length ≤ maxChunks := by
  simp [Transfer.wf]

/-- No chunk of a payload is longer than a frame's payload may be (R100, R109). -/
theorem chunksOf_length_le (cfg : Cfg) (W : Bytes) : ∀ c ∈ chunksOf cfg W, c.length ≤ maxPayload := by
  intro c hc
  unfold chunksOf at hc
  split at hc
  · simp_all
  · obtain ⟨i, -, rfl⟩ := List.mem_map.1 hc
    exact List.length_take_le ..

/-- The wait for a chunk leads to the next chunk of the same transfer or to `Done` (R112). -/
theorem afterWait_wf (i : Nat) (h : tr.wf = true) : (tr.afterWait i).wf = true := by
  unfold Transfer.afterWait
  split
  · next hi => simp [Sender.wf, h, hi]
  · rfl

/-- Whatever ends the wait of a sound sender leaves a sound sender. -/
theorem endWait_sender_wf {j : Nat} (hs : s.sender = .awaitingAck tr j) (hw : s.sender.wf = true) (r : Result)
    (acts : List Action) : (s.endWait tr j r acts).sender.wf = true := by
  rw [hs, Sender.wf, Bool.and_eq_true] at hw
  exact afterWait_wf j hw.1

theorem transferOf_wf {W : Bytes} {dest : Peer} (h : (transferOf cfg W dest).chunks.length ≤ maxChunks) :
    (transferOf cfg W dest).wf = true :=
  transfer_wf_iff.2 ⟨chunksOf_length_le cfg W, h⟩

/-- What SEND does when it is not refused: the transfer is short enough to be numbered, and the sender is at its first
chunk, or done when there is none (R103, R109, R110). -/
theorem startSend_sender {W : Bytes} {dest : Peer} (h : startSend W dest s = .next t) :
    (transferOf s.cfg W dest).chunks.length ≤ maxChunks ∧
      t.sender = if (transferOf s.cfg W dest).chunks.isEmpty then .done (transferOf s.cfg W dest).fc
        else .sending (transferOf s.cfg W dest) 0 := by
  have fits (h : ¬ maxChunks < (transferOf s.cfg W dest).chunks.length) := Nat.not_lt.1 h
  simp only [startSend] at h
  split at h
  · split at h
    · cases h
    · next hn => cases h; exact ⟨fits hn, rfl⟩
  · split at h
    · cases h
    · next hn => cases h; exact ⟨fits hn, rfl⟩
  · cases h
  · cases h

theorem startSend_sender_wf {W : Bytes} {dest : Peer} (h : startSend W dest s = .next t) : t.sender.wf = true := by
  obtain ⟨hl, hs⟩ := startSend_sender h
  rw [hs]
  split
  · rfl
  · next hne => simpa [Sender.wf, transferOf_wf hl, List.length_pos_iff] using hne

/-- A transmission moves a sound sender into the wait for the chunk it transmitted (R112). -/
theorem sendNext_sender_wf (hw : s.sender.wf = true) (h : sendNext s = .next t) : t.sender.wf = true := by
  unfold sendNext at h
  split at h
  · next tr i hs =>
    split at h
    · cases h; rw [hs] at hw; exact hw
    · cases h
  all_goals cases h; exact hw

theorem waitExpired_sender_wf (hw : s.sender.wf = true) : (waitExpired s).sender.wf = true := by
  unfold waitExpired
  split
  · next hs => exact endWait_sender_wf hs hw ..
  all_goals exact hw

theorem badReply_sender_wf {j : Nat} (hs : s.sender = .awaitingAck tr j) (hw : s.sender.wf = true) :
    (badReply s tr j).sender.wf = true := by
  unfold badReply
  split
  · exact endWait_sender_wf hs hw ..
  · exact hw

/-- Every reply ends the wait by `endWait` or leaves the sender where it is (R105, R113). -/
theorem replyArrives_sender_wf {d : Bytes} (hw : s.sender.wf = true) : (replyArrives d s).sender.wf = true := by
  unfold replyArrives
  split
  · next hs =>
    split
    · split
      · exact badReply_sender_wf hs hw
      · split
        · exact endWait_sender_wf hs hw ..
        · exact endWait_sender_wf hs hw ..
    · exact badReply_sender_wf hs hw
  all_goals exact hw

/-- Every event of the sender's leaves a sound sender sound. -/
theorem step_sender_wf (he : s.inbox = e :: rest) (ht : ∀ tr, e ≠ .transaction tr) (hr : e ≠ .reset)
    (hw : s.sender.wf = true) (h : step s = .next t) : t.sender.wf = true := by
  simp only [step, he] at h
  cases e with
  | transaction tr => exact absurd rfl (ht tr)
  | reset => exact absurd rfl hr
  | send W dest => exact startSend_sender_wf h
  | sendNext => exact sendNext_sender_wf (s := { s with inbox := rest }) hw h
  | reply d => cases h; exact replyArrives_sender_wf hw
  | waitExpired => cases h; exact waitExpired_sender_wf hw

/-! ### Every step keeps the invariant -/

/-- An instruction's answer keeps the invariant: the sender is untouched, and so is the store beyond `MemEffect`. -/
theorem inv_of_answered (hs : s.Inv) (h : Answered s t p) : t.Inv := by
  obtain ⟨hstore, hsend⟩ := inv_iff.1 hs
  refine inv_iff.2 ⟨?_, by rw [h.sender]; exact hsend⟩
  rw [h.cfg]
  exact storeInv_memEffect hstore h.mem

theorem inv_resetBuffers (hs : s.Inv) : s.resetBuffers.Inv :=
  inv_iff.2 ⟨storeInv_empty s.cfg, (inv_iff.1 hs).2⟩

/-- The invariant does not look at the events still to come. -/
theorem inv_withInbox (hs : s.Inv) (evs : List Event) : State.Inv { s with inbox := evs } := hs

/-- Settles O47, by what the step took (`step_cases`): an event of the sender leaves the store alone
(`senderMoved_step`) and the sender sound (`step_sender_wf`). -/
theorem stepKeepsInvariant : Obligations.StepKeepsInvariant := by
  intro s t hs h
  rcases step_cases h with ⟨-, rfl⟩ | ⟨tr, rest, i, -, -, hx⟩ | ⟨rest, -, rfl⟩ | ⟨e, rest, he, htr, hr⟩
  · exact hs
  · obtain ⟨p, -, ha⟩ := answered_exec hx
    exact inv_of_answered (inv_withInbox hs rest) ha
  · exact inv_resetBuffers (inv_withInbox hs rest)
  · have hm := senderMoved_step he htr hr h
    obtain ⟨hstore, hsend⟩ := inv_iff.1 hs
    refine inv_iff.2 ⟨?_, step_sender_wf he htr hr hsend h⟩
    rw [hm.cfg, hm.mem]
    exact hstore

/-! ### What removes an entry, and what writes no buffer -/

/-- Settles O37: `answered_exec` gives every field but the store, which an instruction that concerns no peer leaves
alone (`exec_mem_of_concernedPeer_none`). -/
theorem pureOperationsWriteNoBuffer : Obligations.PureOperationsWriteNoBuffer := by
  intro i s t hc h
  obtain ⟨p, -, ha⟩ := answered_exec h
  obtain ⟨r, hr⟩ := ha.outbox
  refine ⟨r, ?_⟩
  calc t = ⟨t.cfg, t.mem, t.sender, t.inbox, t.outbox⟩ := rfl
    _ = { s with outbox := s.outbox ++ [r] } := by
      rw [ha.cfg, exec_mem_of_concernedPeer_none hc h, ha.sender, ha.inbox, hr]

/-- No entry of any buffer of `s` is absent in `t`. -/
def KeepsEntries (s t : State) : Prop :=
  ∀ p k, (assocGet k (s.buffer p)).isSome = true → (assocGet k (t.buffer p)).isSome = true

theorem keepsEntries_of_mem_eq (hc : t.cfg = s.cfg) (hm : t.mem = s.mem) : KeepsEntries s t := by
  intro p k h
  rwa [buffer_congr hc hm]

theorem assocGet_put_isSome {α : Type} {j k : Nat} {v : α} {l : List (Nat × α)} (h : (assocGet j l).isSome = true) :
    (assocGet j (assocPut k v l)).isSome = true := by
  by_cases hj : j = k
  · rw [hj, assocGet_put_same]; rfl
  · rwa [assocGet_put_other hj]

/-- A store creates or replaces an entry and removes none (R80), in whichever buffer a peer sees. -/
theorem keepsEntries_putChunk (s : State) (q : Peer) (seq : Word) (payload : Bytes) :
    KeepsEntries s (s.putChunk q seq payload) := by
  have atOwn (k : Nat) (h : (assocGet k (s.buffer q)).isSome = true) :
      (assocGet k ((s.putChunk q seq payload).buffer q)).isSome = true := by
    rw [putChunk_buffer_same]
    exact assocGet_put_isSome h
  intro p k h
  cases hk : s.cfg.peerKeyed with
  | false =>
    rw [buffer_shared hk p q] at h
    rw [buffer_shared (by simpa using hk) p q]
    exact atOwn k h
  | true =>
    by_cases hp : p = q
    · subst hp; exact atOwn k h
    · rwa [putChunk_buffer_other hk hp]

/-- A datagram that DECODE finds to be a valid DATA frame in the terminal form (R93). -/
def IsTerminalData (d : Bytes) : Prop :=
  ∃ f fc, decodeFrame d = .ok f ∧ f.ty = 0#8 ∧ f.form = .terminal fc

/-- The instructions that may empty a buffer: RB_CLEAR, RB_FINALIZE, and the arrival of a valid terminal DATA frame
(R13). -/
def EmptiesBuffer (i : Instr) : Prop :=
  (∃ q, i = .rbClear q) ∨ (∃ q fc, i = .rbFinalize q fc) ∨
    ∃ q d, receivedDatagram i = some (q, d) ∧ IsTerminalData d

/-- RECV of anything but a valid terminal DATA frame removes no entry. -/
theorem keepsEntries_receive {src : Peer} {d : Bytes} (hd : ¬ IsTerminalData d) (h : receive src d s = .next t) :
    KeepsEntries s t := by
  cases hf : decodeFrame d with
  | error kind =>
    rw [receive_error hf] at h
    cases h
    exact keepsEntries_of_mem_eq rfl rfl
  | ok f =>
    by_cases hty : f.ty = typeData
    · rw [receive_data hf hty] at h
      cases ho : s.storeOverflows src f.seq with
      | true => rw [recvData_full ho] at h; cases h
      | false =>
        cases hform : f.form with
        | normal =>
          rw [recvData_normal ho hform] at h
          cases h
          exact keepsEntries_putChunk s src f.seq f.payload
        | terminal fc => exact absurd ⟨f, fc, hf, hty, hform⟩ hd
    · rw [receive_nonData hf hty] at h
      cases h
      exact keepsEntries_of_mem_eq rfl rfl

theorem keepsEntries_rbStore (h : exec (.rbStore q seq payload) s = .next t) : KeepsEntries s t := by
  simp only [exec, execRbStore] at h
  split at h
  · cases h
  · split at h
    · cases h
    · cases h; exact keepsEntries_putChunk s q seq payload

/-- The store's own instructions, those that hand over a datagram, and those that concern no peer are all there are. -/
theorem concernedPeer_cases (i : Instr) :
    concernedPeer i = none ∨ (∃ src d, receivedDatagram i = some (src, d)) ∨
      (∃ q seq payload, i = .rbStore q seq payload) ∨ (∃ q, i = .rbClear q) ∨ ∃ q fc, i = .rbFinalize q fc := by
  cases i <;> simp [concernedPeer, receivedDatagram]

/-- An instruction that empties no buffer removes no entry: it writes no buffer, or it stores one chunk. -/
theorem keepsEntries_exec (hi : ¬ EmptiesBuffer i) (h : exec i s = .next t) : KeepsEntries s t := by
  rcases concernedPeer_cases i with hc | ⟨src, d, hd⟩ | ⟨q, seq, payload, rfl⟩ | hclear | hfinal
  · obtain ⟨p, -, ha⟩ := answered_exec h
    exact keepsEntries_of_mem_eq ha.cfg (exec_mem_of_concernedPeer_none hc h)
  · rw [exec_receivedDatagram hd] at h
    exact keepsEntries_receive (fun ht => hi (.inr (.inr ⟨src, d, hd, ht⟩))) h
  · exact keepsEntries_rbStore h
  · exact absurd (.inl hclear) hi
  · exact absurd (.inr (.inl hfinal)) hi

/-- Settles O49, by what the step took (`step_cases`): an instruction that is none of the listed ones would keep the
entry (`keepsEntries_exec`), and so would an event of the sender's, which touches nothing of the block. -/
theorem entriesLeaveOnlyByClearing : Obligations.EntriesLeaveOnlyByClearing := by
  intro s t p k h hbefore hafter
  have gone : ¬ KeepsEntries s t := fun hkeep => by simpa [hafter] using hkeep p k hbefore
  rcases step_cases h with ⟨-, rfl⟩ | ⟨tr, rest, i, he, hd, hx⟩ | ⟨rest, he, -⟩ | ⟨e, rest, he, htr, hr⟩
  · exact absurd (keepsEntries_of_mem_eq rfl rfl) gone
  · by_cases hi : EmptiesBuffer i
    · refine ⟨_, rest, he, .inr ⟨tr, i, rfl, hd, hi.imp_right fun hi => hi.imp_right ?_⟩⟩
      rintro ⟨q, d, hq, f, fc, hf⟩
      exact ⟨q, d, f, fc, hq, hf⟩
    · exact absurd (keepsEntries_exec hi hx) gone
  · exact ⟨.reset, rest, he, .inl rfl⟩
  · have hm := senderMoved_step he htr hr h
    exact absurd (keepsEntries_of_mem_eq hm.cfg hm.mem) gone

end Sys2Proof.Machine
end

section
/-! Proof of OneSenderCannotTell (10_state.md R14): a machine with one shared buffer and a machine with a buffer per
peer, fed by one peer only, run alike. The relation is `Twins`; every operation on the state keeps it, so every
instruction of that peer and every event of the sender's answers alike, and so does every run. -/

namespace Sys2Proof.Machine

variable {s t : State} {p q : Peer} {i : Instr} {tr : Transaction} {b : Buffer} {seq : Word} {payload d : Bytes}

/-! ### The peer whose buffer an instruction works on -/

/-- The peer whose buffer an instruction reads or writes: the one it may write (`concernedPeer`), or the one RB_CONCAT
reads (R82, R95). -/
def bufferPeer : Instr → Option Peer
  | .rbConcat q => some q
  | i => concernedPeer i

/-- The instruction works on no buffer but `p`'s. -/
def WorksOnlyOn (p : Peer) (i : Instr) : Prop := ∀ q, bufferPeer i = some q → q = p

theorem worksOnlyOn_of_none (h : bufferPeer i = none) : WorksOnlyOn p i := by
  intro q hq
  rw [h] at hq
  cases hq

theorem worksOnlyOn_of_some (h : bufferPeer i = some p) : WorksOnlyOn p i := by
  intro q hq
  rw [h] at hq
  cases hq
  rfl

/-! The operand readers of the selectors (Decode.lean) give an instruction of the command's peer, or of no peer. -/

theorem bufferPeer_of_decodeEncodeOperands (h : decodeEncodeOperands d = .ok i) : bufferPeer i = none := by
  unfold decodeEncodeOperands at h
  split at h
  · split at h
    · cases h; rfl
    · split at h
      · split at h
        · cases h; rfl
        · cases h
      · cases h
  · cases h

theorem bufferPeer_of_decodeSpEncodeOperands (h : decodeSpEncodeOperands d = .ok i) : bufferPeer i = none := by
  cases d with
  | nil => cases h
  | cons ty payload => cases h; rfl

theorem bufferPeer_of_decodeStoreOperands (h : decodeStoreOperands p d = .ok i) : bufferPeer i = some p := by
  unfold decodeStoreOperands at h
  split at h
  · cases h; rfl
  · cases h

theorem bufferPeer_of_decodeFinalizeOperands (h : decodeFinalizeOperands p d = .ok i) : bufferPeer i = some p := by
  unfold decodeFinalizeOperands at h
  split at h
  · cases h; rfl
  · cases h
  · cases h

theorem eq_of_decodeNoOperands {j : Instr} (h : decodeNoOperands j d = .ok i) : i = j := by
  cases d with
  | nil => cases h; rfl
  | cons b d => cases h

/-- A command of peer `p` is an instruction that works on no other peer's buffer, selector by selector (R56). -/
theorem worksOnlyOn_decodeCommand (h : decodeCommand p d = .ok i) : WorksOnlyOn p i := by
  cases d with
  | nil => cases h
  | cons op operands =>
    simp only [decodeCommand] at h
    split at h
    · cases h; exact worksOnlyOn_of_none rfl
    · exact worksOnlyOn_of_none (bufferPeer_of_decodeEncodeOperands h)
    · cases h; exact worksOnlyOn_of_none rfl
    · exact worksOnlyOn_of_some (bufferPeer_of_decodeStoreOperands h)
    · rw [eq_of_decodeNoOperands h]; exact worksOnlyOn_of_some rfl
    · rw [eq_of_decodeNoOperands h]; exact worksOnlyOn_of_some rfl
    · exact worksOnlyOn_of_some (bufferPeer_of_decodeFinalizeOperands h)
    · cases h; exact worksOnlyOn_of_some rfl
    · exact worksOnlyOn_of_none (bufferPeer_of_decodeSpEncodeOperands h)
    · cases h; exact worksOnlyOn_of_none rfl
    · cases h; exact worksOnlyOn_of_none rfl
    · cases h

/-- A frame kind's instruction works on the buffer of the frame's source (R95). -/
theorem bufferPeer_frameKind (src : Peer) (ty : Byte) (seq ck : Word) (form : Form) (payload : Bytes) :
    bufferPeer (frameKind src ty seq ck form payload) = some src := by
  unfold frameKind
  split
  · cases form <;> rfl
  · split
    · rfl
    · split <;> rfl

theorem bufferPeer_decodeChunkedDatagram (src : Peer) (D : Bytes) :
    bufferPeer (decodeChunkedDatagram src D) = some src := by
  unfold decodeChunkedDatagram
  split
  · rfl
  · split
    · split
      · exact bufferPeer_frameKind ..
      · rfl
    · rfl

/-- The single-packet configuration works on no buffer (R115). -/
theorem bufferPeer_decodeSpDatagram (src : Peer) (D : Bytes) : bufferPeer (decodeSpDatagram src D) = none := by
  unfold decodeSpDatagram
  split
  · rfl
  · split
    · split
      · rfl
      · split
        · rfl
        · split <;> rfl
    · rfl

/-- A transaction of peer `p` decodes to an instruction that works on no other peer's buffer. -/
theorem worksOnlyOn_decode {v : Variant} (he : eventFromOnly p (.transaction tr) = true) (h : decode v tr = .ok i) :
    WorksOnlyOn p i := by
  cases tr with
  | command q bytes =>
    obtain rfl : q = p := by simpa [eventFromOnly] using he
    exact worksOnlyOn_decodeCommand h
  | datagram q D =>
    obtain rfl : q = p := by simpa [eventFromOnly] using he
    cases v with
    | chunked => cases h; exact worksOnlyOn_of_some (bufferPeer_decodeChunkedDatagram q D)
    | singlePacket => cases h; exact worksOnlyOn_of_none (bufferPeer_decodeSpDatagram q D)

/-! ### Machines that one peer cannot tell apart -/

/-- A machine with a buffer per peer and one with a shared buffer, both canonical, that peer `p` cannot tell apart
(`sameForPeer`), with nothing to come from another peer. That `s` is the keyed one (`PEER_KEYED = true`) is not part of
the relation, because no step of the proof needs it. -/
structure Twins (p : Peer) (s t : State) : Prop where
  wfKeyed : s.mem.wf = true
  wfShared : t.mem.wf = true
  cfg : t.cfg = { s.cfg with peerKeyed := false }
  buffer : s.buffer p = t.buffer p
  outbox : s.outbox = t.outbox
  inbox : s.inbox = t.inbox
  sender : s.sender = t.sender
  fromOnly : ∀ e ∈ s.inbox, eventFromOnly p e = true

/-- Two answers that peer `p` cannot tell apart: the machines go on as twins, or stop alike. -/
inductive Alike (p : Peer) : Answer → Answer → Prop where
  | next {a b : State} (h : Twins p a b) : Alike p (.next a) (.next b)
  | fault (f : Fault) : Alike p (.fault f) (.fault f)
  | refused (r : Refusal) : Alike p (.refused r) (.refused r)

namespace Twins

theorem respond (h : Twins p s t) (r : Result) (acts : List Action) : Twins p (s.respond r acts) (t.respond r acts) :=
  ⟨h.wfKeyed, h.wfShared, h.cfg, h.buffer, by simp [h.outbox], h.inbox, h.sender, h.fromOnly⟩

theorem answer (h : Twins p s t) {α : Type} (v : Except ErrorKind α) (ok : α → Result) :
    Twins p (s.answer v ok) (t.answer v ok) := by
  rw [answer_eq, answer_eq]
  exact h.respond ..

theorem setBuffer (h : Twins p s t) (hb : bufferWf b = true) : Twins p (s.setBuffer p b) (t.setBuffer p b) where
  wfKeyed := setBuffer_wf h.wfKeyed hb
  wfShared := setBuffer_wf h.wfShared hb
  cfg := by simp [h.cfg]
  buffer := by rw [setBuffer_buffer_same h.wfKeyed, setBuffer_buffer_same h.wfShared]
  outbox := by simp [h.outbox]
  inbox := by simp [h.inbox]
  sender := by simp [h.sender]
  fromOnly := by simpa using h.fromOnly

theorem putChunk (h : Twins p s t) (seq : Word) (hl : payload.length ≤ maxPayload) :
    Twins p (s.putChunk p seq payload) (t.putChunk p seq payload) := by
  unfold State.putChunk
  rw [← h.buffer]
  exact h.setBuffer (bufferWf_put (buffer_wf h.wfKeyed p) hl)

theorem clearBuffer (h : Twins p s t) : Twins p (s.clearBuffer p) (t.clearBuffer p) := h.setBuffer bufferWf_nil

theorem resetBuffers (h : Twins p s t) : Twins p s.resetBuffers t.resetBuffers :=
  ⟨resetBuffers_wf s, resetBuffers_wf t, h.cfg, by simp, h.outbox, h.inbox, h.sender, h.fromOnly⟩

theorem withSender (h : Twins p s t) (x : Sender) : Twins p { s with sender := x } { t with sender := x } :=
  ⟨h.wfKeyed, h.wfShared, h.cfg, h.buffer, h.outbox, h.inbox, rfl, h.fromOnly⟩

/-- Taking the oldest event. -/
theorem withInbox (h : Twins p s t) {e : Event} {rest : List Event} (he : s.inbox = e :: rest) :
    Twins p { s with inbox := rest } { t with inbox := rest } :=
  ⟨h.wfKeyed, h.wfShared, h.cfg, h.buffer, h.outbox, rfl, h.sender,
    fun e' he' => h.fromOnly e' (he ▸ List.mem_cons_of_mem _ he')⟩

theorem endWait (h : Twins p s t) (x : Transfer) (j : Nat) (r : Result) (acts : List Action) :
    Twins p (s.endWait x j r acts) (t.endWait x j r acts) := (h.withSender (x.afterWait j)).respond ..

theorem sameForPeer (h : Twins p s t) : sameForPeer p s t := ⟨h.buffer, h.outbox, h.inbox, h.sender⟩

/-- A bounded buffer overflows in both or in neither (R81). -/
theorem storeOverflows (h : Twins p s t) (seq : Word) : t.storeOverflows p seq = s.storeOverflows p seq := by
  simp [State.storeOverflows, State.entry, h.buffer, h.cfg]

/-! ### Instructions -/

theorem serve (h : Twins p s t) (src : Peer) (d : Bytes) : Twins p (serve src d s) (serve src d t) := by
  unfold Machine.serve
  rw [h.cfg]
  cases spDecodeFrame s.cfg.spReservedCheck d with
  | error kind => exact h.respond ..
  | ok f => exact h.respond ..

theorem recvData (h : Twins p s t) {f : DecodedFrame} (hl : f.payload.length ≤ maxPayload) :
    Alike p (recvData p f s) (recvData p f t) := by
  cases ho : s.storeOverflows p f.seq with
  | true =>
    rw [recvData_full ho, recvData_full ((h.storeOverflows _).trans ho)]
    exact .fault _
  | false =>
    have ho' := (h.storeOverflows f.seq).trans ho
    have hstored := h.putChunk f.seq hl
    cases hf : f.form with
    | normal =>
      rw [recvData_normal ho hf, recvData_normal ho' hf]
      exact .next (hstored.respond ..)
    | terminal fc =>
      have hcat : finalConcat t p f = finalConcat s p f := by simp [finalConcat, h.buffer]
      rw [recvData_terminal ho hf, recvData_terminal ho' hf, hcat]
      exact .next (hstored.clearBuffer.respond ..)

theorem receive (h : Twins p s t) (d : Bytes) : Alike p (receive p d s) (receive p d t) := by
  cases hd : decodeFrame d with
  | error kind =>
    rw [receive_error hd, receive_error hd]
    exact .next (h.respond ..)
  | ok f =>
    by_cases hty : f.ty = typeData
    · rw [receive_data hd hty, receive_data hd hty]
      exact h.recvData (decodeFrame_payload_length hd)
    · rw [receive_nonData hd hty, receive_nonData hd hty]
      exact .next (h.respond ..)

theorem execRbStore (h : Twins p s t) (seq : Word) (payload : Bytes) :
    Alike p (execRbStore p seq payload s) (execRbStore p seq payload t) := by
  unfold Machine.execRbStore
  rw [h.storeOverflows]
  split
  · exact .refused _
  · next hl =>
    split
    · exact .fault _
    · exact .next ((h.putChunk seq (Nat.not_lt.1 hl)).respond ..)

theorem execRbFinalize (h : Twins p s t) (fc : Word) : Alike p (execRbFinalize p fc s) (execRbFinalize p fc t) := by
  simp only [Machine.execRbFinalize, finalize, h.buffer]
  exact .next (h.clearBuffer.answer ..)

theorem execEncode (h : Twins p s t) (seq : Word) (ty : Byte) (fc : Option Word) (payload : Bytes) :
    Alike p (execEncode seq ty fc payload s) (execEncode seq ty fc payload t) := by
  unfold Machine.execEncode
  split
  · exact .next (h.answer ..)
  · exact .refused _

theorem execSpEncode (h : Twins p s t) (ty : Byte) (payload : Bytes) :
    Alike p (execSpEncode ty payload s) (execSpEncode ty payload t) := by
  unfold Machine.execSpEncode
  split
  · exact .next (h.answer ..)
  · exact .refused _

theorem execSpDecode (h : Twins p s t) (d : Bytes) : Alike p (execSpDecode d s) (execSpDecode d t) := by
  unfold Machine.execSpDecode
  rw [h.cfg]
  exact .next (h.answer ..)

/-- An instruction that hands a datagram of `p`'s to the receiver (R88, R111). -/
theorem exec_received (h : Twins p s t) (hr : receivedDatagram i = some (p, d)) : Alike p (exec i s) (exec i t) := by
  rw [exec_receivedDatagram hr, exec_receivedDatagram hr]
  exact h.receive d

/-- Twins answer every instruction that works on `p`'s buffer or on none alike. -/
theorem exec (h : Twins p s t) (hi : WorksOnlyOn p i) : Alike p (exec i s) (exec i t) := by
  cases i with
  | crc32 b => exact .next (h.respond ..)
  | encode seq ty fc payload => exact h.execEncode ..
  | decode d => exact .next (h.answer ..)
  | rbStore q seq payload => obtain rfl := hi q rfl; exact h.execRbStore ..
  | rbConcat q =>
    obtain rfl := hi q rfl
    simp only [Machine.exec, execRbConcat, h.buffer]
    exact .next (h.respond ..)
  | rbClear q => obtain rfl := hi q rfl; exact .next (h.clearBuffer.respond ..)
  | rbFinalize q fc => obtain rfl := hi q rfl; exact h.execRbFinalize fc
  | recv src d => obtain rfl := hi src rfl; exact h.exec_received rfl
  | spEncode ty payload => exact h.execSpEncode ..
  | spDecode d => exact h.execSpDecode d
  | spServe src d => exact .next (h.serve ..)
  | frameData src seq ck payload => obtain rfl := hi src rfl; exact h.exec_received rfl
  | frameDataTerminal src seq ck fc payload => obtain rfl := hi src rfl; exact h.exec_received rfl
  | frameAck src seq ck form payload => obtain rfl := hi src rfl; exact h.exec_received rfl
  | frameError src seq ck form payload => obtain rfl := hi src rfl; exact h.exec_received rfl
  | frameUnassigned src ty seq ck form payload => obtain rfl := hi src rfl; exact h.exec_received rfl
  | spFrameData src reserved ck payload => exact .next (h.serve ..)
  | spFrameAck src reserved ck payload => exact .next (h.serve ..)
  | spFrameError src reserved ck payload => exact .next (h.serve ..)

theorem performTransaction (h : Twins p s t) (he : eventFromOnly p (.transaction tr) = true) :
    Alike p (performTransaction tr s) (performTransaction tr t) := by
  unfold Machine.performTransaction
  rw [h.cfg]
  cases hd : decode s.cfg.variant tr with
  | ok i => exact h.exec (worksOnlyOn_decode he hd)
  | error e => exact .refused _

/-! ### Events of the sender's -/

theorem startSend (h : Twins p s t) (W : Bytes) (dest : Peer) : Alike p (startSend W dest s) (startSend W dest t) := by
  have ht : transferOf t.cfg W dest = transferOf s.cfg W dest := by rw [h.cfg]; rfl
  simp only [Machine.startSend, ht, ← h.sender]
  cases s.sender
  case idle | done =>
    simp only
    split
    · exact .refused _
    · exact .next ((h.withSender _).respond ..)
  case sending | awaitingAck => exact .refused _

theorem sendNext (h : Twins p s t) : Alike p (sendNext s) (sendNext t) := by
  unfold Machine.sendNext
  rw [← h.sender]
  cases s.sender with
  | idle => exact .next h
  | sending x j =>
    simp only
    cases x.frame j with
    | ok f => exact .next ((h.withSender _).respond ..)
    | error k => exact .fault _
  | awaitingAck x j => exact .next h
  | done fc => exact .next h

theorem waitExpired (h : Twins p s t) : Twins p (waitExpired s) (waitExpired t) := by
  unfold Machine.waitExpired
  rw [← h.sender]
  cases s.sender with
  | idle => exact h
  | sending x j => exact h
  | awaitingAck x j => exact h.endWait ..
  | done fc => exact h

theorem badReply (h : Twins p s t) (x : Transfer) (j : Nat) : Twins p (badReply s x j) (badReply t x j) := by
  unfold Machine.badReply
  rw [h.cfg]
  cases s.cfg.badReply with
  | proceed => exact h.endWait ..
  | keepWaitingUntilTimeout => exact h

theorem replyArrives (h : Twins p s t) (d : Bytes) : Twins p (replyArrives d s) (replyArrives d t) := by
  unfold Machine.replyArrives
  rw [← h.sender]
  cases s.sender with
  | idle => exact h
  | sending x j => exact h
  | awaitingAck x j =>
    simp only
    cases decodeFrame d with
    | error k => exact h.badReply x j
    | ok f =>
      simp only
      split
      · exact h.badReply x j
      · split
        · exact h.endWait ..
        · exact h.endWait ..
  | done fc => exact h

/-! ### Steps and runs -/

/-- Twins answer their next event alike, and are twins after it. -/
theorem step (h : Twins p s t) : Alike p (step s) (step t) := by
  unfold Machine.step
  rw [← h.inbox]
  cases he : s.inbox with
  | nil => exact .next h
  | cons e rest =>
    have hrest := h.withInbox he
    have hfrom : eventFromOnly p e = true := h.fromOnly e (he ▸ List.mem_cons_self)
    cases e with
    | transaction tr => exact hrest.performTransaction hfrom
    | reset => exact .next hrest.resetBuffers
    | send W dest => exact hrest.startSend W dest
    | sendNext => exact hrest.sendNext
    | reply d => exact .next (hrest.replyArrives d)
    | waitExpired => exact .next hrest.waitExpired

/-- Runs of twins are alike, by induction on the number of steps. -/
theorem run (k : Nat) (h : Twins p s t) : Alike p (Sys2Proof.core.run k s) (Sys2Proof.core.run k t) := by
  induction k generalizing s t with
  | zero => exact .next h
  | succ k ih =>
    have hstep := h.step
    generalize hs : Machine.step s = a, ht : Machine.step t = b at hstep
    cases hstep with
    | next h' =>
      rw [run_next k hs, run_next k ht]
      exact ih h'
    | fault f =>
      rw [run_fault k hs, run_fault k ht]
      exact .fault f
    | refused r =>
      rw [run_refused k hs, run_refused k ht]
      exact .refused r

end Twins

theorem Alike.sameAnswerForPeer {a b : Answer} (h : Alike p a b) : sameAnswerForPeer p a b := by
  cases h with
  | next h => exact h.sameForPeer
  | fault f => rfl
  | refused r => rfl

/-- Settles O40: the two states are twins, and runs of twins are alike. -/
theorem oneSenderCannotTell : Obligations.OneSenderCannotTell := by
  intro p k s t hs ht _ hcfg ⟨hbuffer, hout, hin, hsender⟩ hfrom
  exact (Twins.run k ⟨hs, ht, hcfg, hbuffer, hout, hin, hsender, hfrom⟩).sameAnswerForPeer

end Sys2Proof.Machine
end

section
/-! Proofs of the obligations of 20_memory.md: the fields of a header read together and apart, and a second store to one
key. A read of neighbouring fields is one equation (`memRead_add`); what RB_STORE does is one equivalence
(`exec_rbStore_next_iff`), and that the last write to a key wins comes from `assocPut_put_same`. -/

namespace Sys2Proof.Machine

variable {s t : State} {p : Peer} {seq : Word} {payload D : Bytes} {b c : Buffer} {f : DecodedFrame}

/-! ### Neighbouring fields of a datagram -/

/-- Two neighbouring fields read as one number: the earlier one carries the higher weight (R26). -/
theorem memRead_add {off m n : Nat} (h : off + m + n ≤ D.length) :
    memRead D off (m + n) = memRead D off m * 256 ^ n + memRead D (off + m) n := by
  have hlow : (slice D (off + m) (off + m + n)).length = n := by simp [slice]; omega
  calc memRead D off (m + n)
      = beNat (slice D off (off + m) ++ slice D (off + m) (off + m + n)) := by
        rw [slice_append (Nat.le_add_right ..) (Nat.le_add_right ..), Nat.add_assoc]; rfl
    _ = memRead D off m * 256 ^ n + memRead D (off + m) n := by rw [beNat_append, hlow]; rfl

/-- The first word of a datagram is its magic, version and type in a row (R55). -/
theorem firstWord_eq (h : 4 ≤ D.length) :
    memRead D 0 4 = memRead D 0 2 * 65536 + memRead D 2 1 * 256 + memRead D 3 1 := by
  have hmagic : memRead D 0 4 = memRead D 0 2 * 65536 + memRead D 2 2 := memRead_add (m := 2) (n := 2) (by omega)
  have hversion : memRead D 2 2 = memRead D 2 1 * 256 + memRead D 3 1 := memRead_add (m := 1) (n := 1) (by omega)
  rw [hmagic, hversion, Nat.add_assoc]

/-- The first word taken apart again: its upper half is the magic, its third byte the version. -/
theorem firstWord_fields (h : 4 ≤ D.length) :
    memRead D 0 4 / 65536 = memRead D 0 2 ∧ memRead D 0 4 / 256 % 256 = memRead D 2 1 := by
  have hword := firstWord_eq h
  have hversion : memRead D 2 1 < 256 := memRead_lt (by omega)
  have htype : memRead D 3 1 < 256 := memRead_lt (by omega)
  omega

/-- DECODE tests the magic right after the least length (R52). -/
theorem decodeFrame_badMagic (hn : minFrame ≤ D.length) (hm : memRead D 0 2 ≠ magic.toNat) :
    decodeFrame D = .error .badMagic := by
  rw [decodeFrame, if_neg (by omega), if_pos hm]

/-- DECODE tests the version right after the magic (R52). -/
theorem decodeFrame_badVersion (hn : minFrame ≤ D.length) (hm : memRead D 0 2 = magic.toNat)
    (hv : memRead D 2 1 ≠ version.toNat) : decodeFrame D = .error .badVersion := by
  rw [decodeFrame, if_neg (by omega), if_neg (not_not.2 hm), if_pos hv]

/-- An accepted frame's first word is the row's match value of its type code (R55). -/
theorem firstWord_of_decodeFrame (h : decodeFrame D = .ok f) : memRead D 0 4 = 0xC0DE0100 + f.ty.toNat := by
  obtain ⟨hn, hm, hv, -, -, -, hty, -⟩ := decodeFrame_ok h
  have hlen : 4 ≤ D.length := Nat.le_trans (by decide) hn
  rw [firstWord_eq hlen, hm, hv, hty, read8_toNat (by omega)]
  rfl

/-- Settles O14: the first word's upper half and third byte are the fields DECODE tests first and second. -/
theorem firstWordSelectsKind : Obligations.FirstWordSelectsKind := by
  intro D hn
  obtain ⟨hmagic, hversion⟩ := firstWord_fields (D := D) (by omega)
  rw [hmagic, hversion]
  exact ⟨firstWord_eq (by omega), decodeFrame_badMagic hn, decodeFrame_badVersion hn,
    fun f hf => firstWord_of_decodeFrame hf⟩

/-! ### Two stores to one key -/

/-- When RB_STORE answers, and with which state (R80, R81). -/
theorem exec_rbStore_next_iff : exec (.rbStore p seq payload) s = .next t ↔
    payload.length ≤ maxPayload ∧ s.storeOverflows p seq = false ∧
      t = (s.putChunk p seq payload).respond .ok [] := by
  simp only [exec, execRbStore]
  split
  · next hl => simp [Nat.not_le.2 hl]
  · next hl =>
    split
    · next ho => simp [ho]
    · next ho => simp [ho, Nat.not_lt.1 hl, eq_comm]

/-- Right after a store its key is present, so storing to that key again needs no room (R81). -/
theorem storeOverflows_putChunk_same : (s.putChunk p seq payload).storeOverflows p seq = false := by
  refine hasRoom_iff.1 fun _ _ => .inl ?_
  rw [State.entry, putChunk_buffer_same, assocGet_put_same]
  rfl

/-- The store after a buffer is written depends on the parameters and the store before it alone. -/
theorem setBuffer_mem_congr (hc : t.cfg = s.cfg) (hm : t.mem = s.mem) :
    (t.setBuffer p b).mem = (s.setBuffer p b).mem := by
  unfold State.setBuffer
  rw [hc, hm]
  split <;> rfl

/-- Of two buffers written for one peer the later stays. Neither is empty: writing an empty one erases the first entry
listed for the peer, and only in a canonical store is that its only entry. -/
theorem setBuffer_setBuffer_same (hb : b ≠ []) (hc : c ≠ []) : (s.setBuffer p b).setBuffer p c = s.setBuffer p c := by
  cases hk : s.cfg.peerKeyed with
  | false => simp [State.setBuffer, hk]
  | true => simp [State.setBuffer, hk, setPeerBuffer, hb, hc, assocPut_put_same]

/-- Of two chunks stored at one key the later stays (R30). -/
theorem putChunk_putChunk_same (later : Bytes) :
    (s.putChunk p seq payload).putChunk p seq later = s.putChunk p seq later := by
  rw [State.putChunk, putChunk_buffer_same, assocPut_put_same]
  exact setBuffer_setBuffer_same assocPut_ne_nil assocPut_ne_nil

/-- Settles O17: the second store overwrites a present key, so it has room, and what the first store wrote is gone
(`putChunk_putChunk_same`). -/
theorem rbStoreLastWins : Obligations.RbStoreLastWins := by
  intro p seq first later s t hlater hfirst
  obtain ⟨-, hroom, rfl⟩ := exec_rbStore_next_iff.1 hfirst
  refine ⟨_, _, exec_rbStore_next_iff.2 ⟨hlater, storeOverflows_putChunk_same, rfl⟩,
    exec_rbStore_next_iff.2 ⟨hlater, hroom, rfl⟩, ?_⟩
  calc (((s.putChunk p seq first).respond .ok []).putChunk p seq later).mem
      = ((s.putChunk p seq first).putChunk p seq later).mem := setBuffer_mem_congr rfl rfl
    _ = (s.putChunk p seq later).mem := by rw [putChunk_putChunk_same]

end Sys2Proof.Machine
end

section
/-! Proofs of the obligations of 30_encoding.md: an instruction's encoding decodes to it, which also settles the words
written out from the spec; what DECODE tests, one lemma per row of R52; and the selectors that name no operation. -/

namespace Sys2Proof.Machine

variable {s : State} {i : Instr} {v : Variant} {src : Peer} {ty reserved op : Byte} {seq ck : Word} {spCk : Half}
  {form : Form} {payload operands D : Bytes} {f : DecodedFrame} {kind : ErrorKind}

/-! ### Decoding what was encoded -/

/-- A command's ENCODE operands read back, with and without `fc` (log entry 2). -/
theorem decodeEncodeOperands_encode (fc : Option Word) :
    decodeEncodeOperands (be32 seq ++ [ty] ++ fcOperandBytes fc ++ payload) = .ok (.encode seq ty fc payload) := by
  cases fc with
  | none => exact congrArg (fun x => Except.ok (Instr.encode x ty none payload)) (word4_be32 seq)
  | some w =>
    exact congrArg₂ (fun x y => Except.ok (Instr.encode x ty (some y) payload)) (word4_be32 seq) (word4_be32 w)

theorem decodeStoreOperands_encode (p : Peer) :
    decodeStoreOperands p (be32 seq ++ payload) = .ok (.rbStore p seq payload) :=
  congrArg (fun w => Except.ok (Instr.rbStore p w payload)) (word4_be32 seq)

theorem decodeFinalizeOperands_encode (p : Peer) (fc : Word) :
    decodeFinalizeOperands p (be32 fc) = .ok (.rbFinalize p fc) :=
  congrArg (fun w => Except.ok (Instr.rbFinalize p w)) (word4_be32 fc)

/-- A laid-out frame is read as the frame kind of its type and form (R50, R55), whatever its checksum field holds. -/
theorem decodeChunkedDatagram_layFrame (h : payload.length ≤ maxPayload) :
    decodeChunkedDatagram src (layFrame ty seq ck form payload) = frameKind src ty seq ck form payload := by
  have hlen := layFrame_len ty seq ck form payload h
  have hmin : minFrame ≤ (layFrame ty seq ck form payload).length := by
    rw [layFrame_length]; exact Nat.le_add_right_of_le (headerLength_ge form)
  rw [decodeChunkedDatagram, if_neg (Nat.not_lt.2 hmin), hlen, if_pos ⟨layFrame_magic .., layFrame_version .., h⟩,
    layFrame_formAt, layFrame_type, layFrame_seq, layFrame_checksum]

theorem frameKind_unassigned (h : assignedType ty = false) :
    frameKind src ty seq ck form payload = .frameUnassigned src ty seq ck form payload := by
  simp only [assignedType, Bool.or_eq_false_iff, beq_eq_false_iff_ne] at h
  obtain ⟨⟨hdata, hack⟩, herror⟩ := h
  simp only [frameKind, hdata, hack, herror, if_false]

/-- The single-packet frame kind of R117 for a type code; a datagram with an unassigned one is left to SP_SERVE. -/
def spFrameKind (src : Peer) (ty reserved : Byte) (ck : Half) (payload : Bytes) : Instr :=
  if ty = typeData then .spFrameData src reserved ck payload
  else if ty = typeAck then .spFrameAck src reserved ck payload
  else if ty = typeError then .spFrameError src reserved ck payload
  else .spServe src (laySpFrame ty reserved ck payload)

theorem decodeSpDatagram_laySpFrame (h : payload.length ≤ spMaxPayload) :
    decodeSpDatagram src (laySpFrame ty reserved spCk payload) = spFrameKind src ty reserved spCk payload := by
  have hlen := laySpFrame_len ty reserved spCk payload h
  have hmin : spHdr ≤ (laySpFrame ty reserved spCk payload).length := by
    rw [laySpFrame_length]; exact Nat.le_add_right ..
  rw [decodeSpDatagram, if_neg (Nat.not_lt.2 hmin), hlen,
    if_pos ⟨laySpFrame_magic .., laySpFrame_version .., h, laySpFrame_length ..⟩,
    laySpFrame_type, laySpFrame_reserved, laySpFrame_checksum, laySpFrame_payload, spFrameKind]

/-- A laid-out frame decodes to its kind; the hypotheses stand as `Instr.fitsVariant` and `Instr.wf` give them. -/
theorem decode_layFrame (hv : (v == Variant.chunked) = true) (hl : decide (payload.length ≤ maxPayload) = true) :
    decode v (.datagram src (layFrame ty seq ck form payload)) = .ok (frameKind src ty seq ck form payload) := by
  rw [eq_of_beq hv, ← decodeChunkedDatagram_layFrame (of_decide_eq_true hl)]
  rfl

/-- The same for a single-packet frame (R117). -/
theorem decode_laySpFrame (hv : (v == Variant.singlePacket) = true)
    (hl : decide (payload.length ≤ spMaxPayload) = true) :
    decode v (.datagram src (laySpFrame ty reserved spCk payload)) =
      .ok (spFrameKind src ty reserved spCk payload) := by
  rw [eq_of_beq hv, ← decodeSpDatagram_laySpFrame (of_decide_eq_true hl)]
  rfl

/-- Settles O51, by the instruction: a command by its operands, a frame kind by the layout of its datagram. -/
theorem instructionDecodeInvertsEncode : Obligations.InstructionDecodeInvertsEncode := by
  intro i v hw hv
  cases i with
  | crc32 b => rfl
  | encode seq ty fc payload => exact decodeEncodeOperands_encode fc
  | decode d => rfl
  | rbStore p seq payload => exact decodeStoreOperands_encode p
  | rbConcat p => rfl
  | rbClear p => rfl
  | rbFinalize p fc => exact decodeFinalizeOperands_encode p fc
  | recv src d => rfl
  | spEncode ty payload => rfl
  | spDecode d => rfl
  | spServe src d => rfl
  | frameData src seq ck payload => exact decode_layFrame hv hw
  | frameDataTerminal src seq ck fc payload => exact decode_layFrame hv hw
  | frameAck src seq ck form payload => exact decode_layFrame hv hw
  | frameError src seq ck form payload => exact decode_layFrame hv hw
  | frameUnassigned src ty seq ck form payload =>
    obtain ⟨hty, hl⟩ := Bool.and_eq_true_iff.1 hw
    exact (decode_layFrame hv hl).trans (congrArg _ (frameKind_unassigned (by simpa using hty)))
  | spFrameData src reserved ck payload => exact decode_laySpFrame hv hw
  | spFrameAck src reserved ck payload => exact decode_laySpFrame hv hw
  | spFrameError src reserved ck payload => exact decode_laySpFrame hv hw

/-- Bytes that are the encoding of a well-formed instruction decode to it. -/
theorem decode_of_encode_eq {tr : Transaction} (he : encode i = tr) (hw : i.wf = true)
    (hv : i.fitsVariant v = true) : decode v tr = .ok i :=
  he ▸ instructionDecodeInvertsEncode i v hw hv

/-- Settles O52: the written bytes are what the encoder lays out for each instruction. -/
theorem writtenWordsDecode : Obligations.WrittenWordsDecode := by
  refine ⟨?_, ?_, ?_, ?_, ?_⟩ <;> exact decode_of_encode_eq (by decide) rfl rfl

/-! ### The checks of DECODE in their order -/

theorem decodeFrame_tooShort (hn : D.length < minFrame) : decodeFrame D = .error .frameTooShort := if_pos hn

/-- DECODE tests the range of `length` right after the version (R52). -/
theorem decodeFrame_lengthOutOfRange (hn : minFrame ≤ D.length) (hm : memRead D 0 2 = magic.toNat)
    (hv : memRead D 2 1 = version.toNat) (hl : maxPayload < memRead D 8 2) :
    decodeFrame D = .error .lengthOutOfRange := by
  rw [decodeFrame, if_neg (Nat.not_lt.2 hn), if_neg (not_not.2 hm), if_neg (not_not.2 hv), if_pos hl]

/-- A datagram of neither form's length has no form (R50). -/
theorem formAt_eq_none {len : Nat} (hn : D.length ≠ hdrNormal + len) (ht : D.length ≠ hdrTerminal + len) :
    formAt D len = none := by
  rw [formAt, if_neg hn, if_neg ht]

/-- A datagram has a form exactly when its length is one of the two (R50). -/
theorem exists_formAt_iff {len : Nat} : (∃ form payload, formAt D len = some (form, payload)) ↔
    D.length = hdrNormal + len ∨ D.length = hdrTerminal + len := by
  constructor
  · rintro ⟨form, payload, hf⟩
    by_contra hno
    obtain ⟨hn, ht⟩ := not_or.1 hno
    simp [formAt_eq_none hn ht] at hf
  · intro h
    by_cases hn : D.length = hdrNormal + len
    · exact ⟨_, _, if_pos hn⟩
    · exact ⟨_, _, (if_neg hn).trans (if_pos (h.resolve_left hn))⟩

/-- DECODE tests the total length right after the range of `length` (R52). -/
theorem decodeFrame_lengthMismatch (hn : minFrame ≤ D.length) (hm : memRead D 0 2 = magic.toNat)
    (hv : memRead D 2 1 = version.toNat) (hl : memRead D 8 2 ≤ maxPayload)
    (hf : formAt D (memRead D 8 2) = none) : decodeFrame D = .error .lengthMismatch := by
  rw [decodeFrame, if_neg (Nat.not_lt.2 hn), if_neg (not_not.2 hm), if_neg (not_not.2 hv), if_neg (Nat.not_lt.2 hl), hf]

/-- The checksum test as an equation of numbers (R47). -/
theorem frameChecksum_eq_iff (hn : minFrame ≤ D.length) : frameChecksum D = read32 D 10 ↔
    (crc32 (D.take 10 ++ zeros 4 ++ D.drop 14)).toNat = memRead D 10 4 := by
  rw [← read32_toNat (off := 10) hn, BitVec.toNat_inj, frameChecksum, zeroedChecksum]

/-- DECODE tests the checksum last (R52). -/
theorem decodeFrame_checksumMismatch (hn : minFrame ≤ D.length) (hm : memRead D 0 2 = magic.toNat)
    (hv : memRead D 2 1 = version.toNat) (hl : memRead D 8 2 ≤ maxPayload)
    (hf : D.length = hdrNormal + memRead D 8 2 ∨ D.length = hdrTerminal + memRead D 8 2)
    (hc : frameChecksum D ≠ read32 D 10) : decodeFrame D = .error .checksumMismatch := by
  obtain ⟨form, payload, hf⟩ := exists_formAt_iff.2 hf
  rw [decodeFrame_of_checks hn hm hv hl hf, if_pos hc]

/-- DECODE accepts a datagram exactly when it passes every check (R49). -/
theorem exists_decodeFrame_ok_iff : (∃ f, decodeFrame D = .ok f) ↔
    minFrame ≤ D.length ∧ memRead D 0 2 = magic.toNat ∧ memRead D 2 1 = version.toNat ∧
    memRead D 8 2 ≤ maxPayload ∧ (D.length = hdrNormal + memRead D 8 2 ∨ D.length = hdrTerminal + memRead D 8 2) ∧
    frameChecksum D = read32 D 10 := by
  constructor
  · rintro ⟨f, h⟩
    obtain ⟨hn, hm, hv, hl, hf, hc, -⟩ := decodeFrame_ok h
    exact ⟨hn, hm, hv, hl, exists_formAt_iff.1 ⟨_, _, hf⟩, hc⟩
  · rintro ⟨hn, hm, hv, hl, hf, hc⟩
    obtain ⟨form, payload, hf⟩ := exists_formAt_iff.2 hf
    exact ⟨_, (decodeFrame_of_checks hn hm hv hl hf).trans (if_neg (not_not.2 hc))⟩

/-- DECODE answers every datagram with what `decodeFrame` gives and does nothing else (R75). -/
theorem exec_decode : exec (.decode D) s = .next (s.respond (answerResult (decodeFrame D) .okFrame) []) :=
  congrArg _ (answer_eq ..)

theorem exec_decode_okFrame_iff :
    exec (.decode D) s = .next { s with outbox := s.outbox ++ [⟨.okFrame f, []⟩] } ↔ decodeFrame D = .ok f := by
  cases h : decodeFrame D <;> simp [exec_decode, h, answerResult, State.respond]

theorem exec_decode_error (h : decodeFrame D = .error kind) :
    exec (.decode D) s = .next { s with outbox := s.outbox ++ [⟨.err kind, []⟩] } := by
  rw [exec_decode, h]
  rfl

/-- Settles O9: an answered frame is an accepted datagram, and the checks are the clauses of R49. -/
theorem decodeAcceptsExactlyWellformed : Obligations.DecodeAcceptsExactlyWellformed := by
  intro D s
  simp only [exec_decode_okFrame_iff]
  rw [exists_decodeFrame_ok_iff]
  exact and_congr_right fun hn => by rw [frameChecksum_eq_iff hn]; rfl

/-- Settles O10: the error result, then one lemma for each check in the rule's order. -/
theorem decodeReportsFirstFailure : Obligations.DecodeReportsFirstFailure := fun _ =>
  ⟨fun _ _ => exec_decode_error, decodeFrame_tooShort, fun hn =>
    ⟨decodeFrame_badMagic hn, fun hm => ⟨decodeFrame_badVersion hn hm, fun hv =>
      ⟨decodeFrame_lengthOutOfRange hn hm hv, fun hl =>
        ⟨fun hf => decodeFrame_lengthMismatch hn hm hv hl (formAt_eq_none hf.1 hf.2),
          fun hf hc => decodeFrame_checksumMismatch hn hm hv hl hf (mt (frameChecksum_eq_iff hn).1 hc)⟩⟩⟩⟩⟩

/-! ### Selectors that name no operation -/

/-- The eleven selectors of R56. -/
def selectors : List Byte :=
  [0x01#8, 0x02#8, 0x03#8, 0x10#8, 0x11#8, 0x12#8, 0x13#8, 0x20#8, 0x42#8, 0x43#8, 0x60#8]

theorem decodeCommand_unknownSelector {p : Peer} (h : op ∉ selectors) :
    decodeCommand p (op :: operands) = .error .unknownSelector := by
  have hne : op.toNat ∉ selectors.map BitVec.toNat := fun hm => by
    obtain ⟨sel, hsel, he⟩ := List.mem_map.1 hm
    exact h (BitVec.eq_of_toNat_eq he ▸ hsel)
  simp only [decodeCommand]
  split
  case h_12 => rfl
  all_goals next hsel => exact absurd (hsel ▸ by decide) hne

/-- Settles O43: the command does not decode, and a step refuses it by that name. -/
theorem unknownSelectorRefused : Obligations.UnknownSelectorRefused :=
  fun _ _ _ _ _ he hop => step_of_decode_error he (decodeCommand_unknownSelector hop)

end Sys2Proof.Machine
end

section
/-! Proofs of the obligations of 40_codec.md about the checksum generator. -/

namespace Sys2Proof.Machine

/-- Eight turns of the loop take the low byte of `w` in as a byte of input and shift the rest down. -/
theorem crcSteps_eight_xor (c w : Word) : crcSteps 8 (c ^^^ w) = crcByte c (w.setWidth 8) ^^^ w >>> 8 := by
  have hsplit : w = (w.setWidth 8).setWidth 32 ^^^ w >>> 8 <<< 8 := by
    apply BitVec.eq_of_getLsbD_eq
    intro i hi
    by_cases h8 : i < 8
    · simp [h8, hi]
    · simp [h8, hi, Nat.add_sub_cancel' (Nat.le_of_not_lt h8), BitVec.getLsbD_eq_getElem]
  have hhigh : crcSteps 8 (w >>> 8 <<< 8) = w >>> 8 := by
    rw [crcSteps_shift 8 (by intro i hi; simp [hi])]
    apply BitVec.eq_of_toNat_eq
    simp only [BitVec.toNat_ushiftRight, BitVec.toNat_shiftLeft, Nat.shiftRight_eq_div_pow, Nat.shiftLeft_eq]
    omega
  calc crcSteps 8 (c ^^^ w)
      = crcSteps 8 (c ^^^ (w.setWidth 8).setWidth 32 ^^^ w >>> 8 <<< 8) := by rw [BitVec.xor_assoc, ← hsplit]
    _ = crcByte c (w.setWidth 8) ^^^ w >>> 8 := by rw [crcSteps_xor, hhigh]; rfl

/-- A byte of the table form is a byte of the bit-by-bit form (R61). -/
theorem crcTabByte_eq (c : Word) (b : Byte) : crcTabByte c b = crcByte c b := by
  have hb : (c ^^^ b.setWidth 32) >>> 8 = c >>> 8 := by
    apply BitVec.eq_of_getLsbD_eq
    intro i hi
    simp
  calc crcTabByte c b = crcByte 0#32 ((c ^^^ b.setWidth 32).setWidth 8) ^^^ (c ^^^ b.setWidth 32) >>> 8 := by
        rw [crcTabByte, crcTab, hb, crcByte, BitVec.zero_xor]
    _ = crcByte c b := by rw [← crcSteps_eight_xor, BitVec.zero_xor, crcByte]

theorem crc32Tab_eq (B : Bytes) : crc32Tab B = crc32 B := by
  rw [crc32Tab, crc32, crcFold, funext₂ crcTabByte_eq]

/-- Settles O2: byte for byte the same register; the eleven entries are evaluated. -/
theorem crc32TableFormAgrees : Obligations.Crc32TableFormAgrees :=
  ⟨crc32Tab_eq, by decide⟩

/-- Settles O3: a byte enters injectively, and the bytes after it keep the registers apart. -/
theorem crc32SeparatesOneChangedByte : Obligations.Crc32SeparatesOneChangedByte := by
  intro A B x y hne h
  have hfold := crc32_injective_fold h
  rw [crcFold_append, crcFold_append] at hfold
  exact hne (crcByte_injective_byte (crcFold_injective_register hfold))

/-- The register after the `n` low bytes of `w`, the lowest first: what is left of `w` would enter by further turns. -/
theorem crcFold_reverse_beBytes (n : Nat) (c w : Word) :
    crcFold c (beBytes n w.toNat).reverse ^^^ w >>> (8 * n) = crcSteps (8 * n) (c ^^^ w) := by
  induction n with
  | zero => simp [beBytes, crcFold, crcSteps]
  | succ n ih =>
    have hbyte : BitVec.ofNat 8 (w.toNat >>> (8 * n)) = (w >>> (8 * n)).setWidth 8 := by
      apply BitVec.eq_of_toNat_eq; simp
    calc crcFold c (beBytes (n + 1) w.toNat).reverse ^^^ w >>> (8 * (n + 1))
        = crcByte (crcFold c (beBytes n w.toNat).reverse) ((w >>> (8 * n)).setWidth 8) ^^^ w >>> (8 * n) >>> 8 := by
          rw [beBytes, List.reverse_cons, crcFold_append, hbyte, Nat.mul_succ, BitVec.shiftRight_add]
          rfl
      _ = crcSteps 8 (crcSteps (8 * n) (c ^^^ w)) := by rw [← crcSteps_eight_xor, ih]
      _ = crcSteps (8 * (n + 1)) (c ^^^ w) := by rw [Nat.mul_succ, crcSteps_add]

/-- Four bytes in little-endian order enter as one word. -/
theorem crcFold_reverse_be32 (c w : Word) : crcFold c (be32 w).reverse = crcSteps 32 (c ^^^ w) := by
  have h := crcFold_reverse_beBytes 4 c w
  rwa [BitVec.ushiftRight_eq_zero (by decide), BitVec.xor_zero] at h

/-- Settles O4: the checksum's own bytes cancel the register, which leaves 32 turns from the final exclusive-or. -/
theorem crc32ResidueIsConstant : Obligations.Crc32ResidueIsConstant := by
  intro B
  have hcancel : crcFold crcInit B ^^^ crc32 B = crcFinal := by
    rw [crc32, ← BitVec.xor_assoc, BitVec.xor_self, BitVec.zero_xor]
  calc crc32 (B ++ (be32 (crc32 B)).reverse)
      = crcSteps 32 (crcFold crcInit B ^^^ crc32 B) ^^^ crcFinal := by
        rw [crc32, crcFold_append, crcFold_reverse_be32]
    _ = 0x2144DF1C#32 := by rw [hcancel]; decide +kernel

/-- Settles O1: the instruction's meaning, and R63's three values evaluated. -/
theorem crc32AnswersChecksum : Obligations.Crc32AnswersChecksum :=
  ⟨fun _ _ => rfl, by decide +kernel⟩

end Sys2Proof.Machine
end

section
/-! Proofs of the obligations of 40_codec.md about ENCODE and DECODE. -/

namespace Sys2Proof.Machine

variable {s : State} {src : Peer} {ty : Byte} {seq ck : Word} {form : Form} {fc : Option Word} {payload D : Bytes}
  {f : DecodedFrame} {kind : ErrorKind}

/-! ### What ENCODE answers -/

/-- The assigned type codes are 0 to 2 (R44). -/
theorem assignedType_iff : assignedType ty = true ↔ ty.toNat ≤ 2 := by
  simp only [assignedType, typeData, typeAck, typeError, Bool.or_eq_true, beq_iff_eq]
  constructor
  · rintro ((rfl | rfl) | rfl) <;> decide
  · intro h
    bv_omega

/-- ENCODE of an assigned type answers with what `encodeFrame` gives and does nothing else (R64). -/
theorem exec_encode (hty : ty.toNat ≤ 2) : exec (.encode seq ty fc payload) s =
    .next (s.respond (answerResult (encodeFrame seq payload ty fc) .okBytes) []) :=
  (if_pos (assignedType_iff.2 hty)).trans (congrArg _ (answer_eq ..))

theorem exec_encode_ok (hty : ty.toNat ≤ 2) (hl : payload.length ≤ maxPayload) :
    exec (.encode seq ty fc payload) s =
      .next { s with outbox := s.outbox ++ [⟨.okBytes (buildFrame seq payload ty fc), []⟩] } := by
  rw [exec_encode hty, encodeFrame_ok hl]
  rfl

theorem exec_encode_tooLarge (hty : ty.toNat ≤ 2) (hl : maxPayload < payload.length) :
    exec (.encode seq ty fc payload) s = .next { s with outbox := s.outbox ++ [⟨.err .payloadTooLarge, []⟩] } := by
  rw [exec_encode hty, encodeFrame_error hl]
  rfl

/-- Settles O7: both encoders test the type code before anything else. -/
theorem unassignedTypeRefused : Obligations.UnassignedTypeRefused := by
  intro seq ty fc payload s h
  have hty : ¬ assignedType ty = true := fun ha => absurd (assignedType_iff.1 ha) (by omega)
  exact ⟨if_neg hty, if_neg hty⟩

/-! ### DECODE of what ENCODE built -/

/-- A built frame carries the right checksum, so it decodes to the fields it was built from (R76, R77). -/
theorem decodeFrame_buildFrame (h : payload.length ≤ maxPayload) :
    decodeFrame (buildFrame seq payload ty fc) = .ok ⟨ty, seq, payload, formOf fc⟩ := by
  rw [buildFrame_eq, decodeFrame_layFrame h, if_neg (not_not.2 rfl)]

/-- ENCODE answers a frame that DECODE, in any state, takes apart into ENCODE's operands. -/
theorem exec_decode_encode (seq : Word) (fc : Option Word) (s s' : State) (hty : ty.toNat ≤ 2)
    (hl : payload.length ≤ maxPayload) :
    ∃ F : Bytes,
      exec (.encode seq ty fc payload) s = .next { s with outbox := s.outbox ++ [⟨.okBytes F, []⟩] } ∧
      exec (.decode F) s' =
        .next { s' with outbox := s'.outbox ++ [⟨.okFrame ⟨ty, seq, payload, formOf fc⟩, []⟩] } :=
  ⟨_, exec_encode_ok hty hl, exec_decode_okFrame_iff.2 (decodeFrame_buildFrame hl)⟩

/-- Settles O8: one lemma for both forms. -/
theorem decodeInvertsEncode : Obligations.DecodeInvertsEncode :=
  fun seq _ _ s s' hty hl =>
    ⟨exec_decode_encode seq none s s' hty hl, fun fc => exec_decode_encode seq (some fc) s s' hty hl⟩

/-! ### Where the fields of a built frame stand -/

/-- DECODE accepts exactly what the predicate of R49 accepts. -/
theorem wellformed_iff : wellformed D = true ↔ ∃ f, decodeFrame D = .ok f := by
  rw [exists_decodeFrame_ok_iff]
  simp [wellformed, and_assoc]

theorem layFrame_take_three : (layFrame ty seq ck form payload).take 3 = [0xC0#8, 0xDE#8, 0x01#8] := rfl

/-- Settles O5: a built frame is a laid-out one with its own checksum, and decodes. -/
theorem encodeAnswersWellformedFrame : Obligations.EncodeAnswersWellformedFrame := by
  intro seq ty fc payload s hty hl
  refine ⟨_, exec_encode_ok hty hl, wellformed_iff.2 ⟨_, decodeFrame_buildFrame hl⟩, ?_⟩
  rw [buildFrame_eq]
  refine ⟨layFrame_take_three, layFrame_type .., layFrame_seq .., layFrame_len _ _ _ _ _ hl, ?_, ?_⟩
  · rw [layFrame_checksum, frameChecksum_lay]
  · cases fc with
    | none => exact ⟨layFrame_length .., layFrame_payload (form := .normal) ..⟩
    | some v => exact ⟨layFrame_length .., layFrame_fileChecksum .., layFrame_payload (form := .terminal v) ..⟩

/-- Settles O6, on either side of the boundary. -/
theorem encodeSizeBoundary : Obligations.EncodeSizeBoundary := by
  intro seq ty fc payload s hty
  refine ⟨fun hl => ⟨_, exec_encode_ok hty hl, ?_⟩, exec_encode_tooLarge hty⟩
  rw [buildFrame_eq]
  exact layFrame_len _ _ _ _ _ hl

/-! ### What DECODE answers -/

/-- The form of a datagram and where its payload begins, by its total length (R50). -/
theorem formAt_eq_some {len : Nat} (h : formAt D len = some (form, payload)) :
    (D.length = hdrNormal + len ∧ form = .normal ∧ payload = D.drop hdrNormal) ∨
      (D.length = hdrTerminal + len ∧ form = .terminal (read32 D 14) ∧ payload = D.drop hdrTerminal) := by
  unfold formAt at h
  split at h
  · next hn => cases h; exact .inl ⟨hn, rfl, rfl⟩
  · split at h
    · next ht => cases h; exact .inr ⟨ht, rfl, rfl⟩
    · cases h

/-- The kinds DECODE fails with: those of its six checks, and no other (R52). -/
theorem decodeFrame_error_kind (h : decodeFrame D = .error kind) :
    kind = .frameTooShort ∨ kind = .badMagic ∨ kind = .badVersion ∨ kind = .lengthOutOfRange ∨
      kind = .lengthMismatch ∨ kind = .checksumMismatch := by
  unfold decodeFrame at h
  split at h; · cases h; simp
  split at h; · cases h; simp
  split at h; · cases h; simp
  split at h; · cases h; simp
  split at h; · cases h; simp
  split at h
  · cases h; simp
  · cases h

/-- Settles O11, by what `decodeFrame` gives. -/
theorem decodeAnswersEveryDatagram : Obligations.DecodeAnswersEveryDatagram := by
  intro D s
  refine ⟨_, exec_decode, ?_⟩
  cases h : decodeFrame D with
  | ok f =>
    obtain ⟨hn, hm, hv, -, hf, -, hty, hseq⟩ := decodeFrame_ok h
    exact .inl ⟨f, rfl, wellformed_iff.2 ⟨f, h⟩, hty, hseq, (layFrame_repack hn hm hv hf).2, formAt_eq_some hf⟩
  | error kind =>
    have hw : wellformed D = false := Bool.eq_false_iff.2 fun hw => by
      obtain ⟨f, hok⟩ := wellformed_iff.1 hw
      simp [h] at hok
    exact .inr ⟨hw, by simpa [answerResult] using decodeFrame_error_kind h⟩

/-- Every form is asked for by some `fc` operand (R48). -/
theorem exists_formOf_eq (form : Form) : ∃ fc, formOf fc = form :=
  match form with
  | .normal => ⟨none, rfl⟩
  | .terminal fc => ⟨some fc, rfl⟩

/-- Settles O12: the datagram is the layout of its fields, and its checksum field is the one ENCODE computes. -/
theorem wellformedFrameIsItsEncoding : Obligations.WellformedFrameIsItsEncoding := by
  intro D f h
  obtain ⟨hn, hm, hv, -, hf, hc, hty, hseq⟩ := decodeFrame_ok h
  have hD : layFrame f.ty f.seq (read32 D 10) f.form f.payload = D := by
    rw [hty, hseq]
    exact (layFrame_repack hn hm hv hf).1
  have hck : checksumOf f.ty f.seq f.form f.payload = read32 D 10 := by
    rw [← hc, ← frameChecksum_lay (ck := read32 D 10), hD]
  obtain ⟨fc, hfc⟩ := exists_formOf_eq f.form
  refine ⟨fc, hfc, ?_⟩
  rw [encodeFrame_ok (decodeFrame_payload_length h), buildFrame_eq, hfc, hck, hD]

/-! ### A frame that arrives with a wrong checksum -/

/-- A frame kind hands the receiver the frame laid out from its fields (R111). -/
theorem receivedDatagram_frameKind :
    receivedDatagram (frameKind src ty seq ck form payload) = some (src, layFrame ty seq ck form payload) := by
  unfold frameKind
  split
  · next hdata => subst hdata; cases form <;> rfl
  split
  · next hack => subst hack; rfl
  split
  · next herror => subst herror; rfl
  · rfl

/-- Settles O30: the laid-out frame fails DECODE by its checksum alone, and RECV discards it. -/
theorem wrongChecksumDiscarded : Obligations.WrongChecksumDiscarded := by
  intro src ty seq ck form payload s hl hck
  rw [frameChecksum_lay] at hck
  have hd : decodeFrame (layFrame ty seq ck form payload) = .error .checksumMismatch := by
    rw [decodeFrame_layFrame hl, if_pos hck.symm]
  rw [exec_receivedDatagram receivedDatagram_frameKind, receive_error hd]
  rfl

end Sys2Proof.Machine
end

section
/-! Proof of SingleBitFlipRejected (40_codec.md R78). A flip changes the reads that cover its byte and no other, and the
checksum of the frame exactly when its byte lies outside the checksum field (93_implementation_defined.md G2); so the
checksum test fails wherever the flip is, and the kind reported is that of the first test that fails. -/

namespace Sys2Proof.Machine

variable {B D : Bytes} {f : DecodedFrame} {i k off n : Nat}

/-! ### The flipped byte -/

@[simp] theorem flipBit_length (B : Bytes) (k : Nat) : (flipBit B k).length = B.length := List.length_modify ..

/-- A flipped bit is a byte replaced by another. -/
theorem flipBit_split (hk : k < 8 * B.length) : ∃ L x R y, B = L ++ x :: R ∧ L.length = k / 8 ∧ x ≠ y ∧
    flipBit B k = L ++ y :: R := by
  obtain ⟨L, x, R, hB, hL, hflip⟩ :=
    List.exists_of_modify (fun b : Byte => b ^^^ (0x80#8 >>> (k % 8))) (show k / 8 < B.length by omega)
  have hmask : ∀ j < 8, 0x80#8 >>> j ≠ 0#8 := by decide
  refine ⟨L, x, R, _, hB, hL, fun he => hmask (k % 8) (Nat.mod_lt _ (by decide)) ?_, hflip⟩
  have hx := congrArg (x ^^^ ·) he
  simpa [← BitVec.xor_assoc] using hx.symm

/-- The flip changes its own byte and no other. -/
theorem getElem?_flipBit_eq_iff (hk : k < 8 * B.length) : (flipBit B k)[i]? = B[i]? ↔ i ≠ k / 8 := by
  constructor
  · rintro he rfl
    obtain ⟨L, x, R, y, hB, hL, hne, hflip⟩ := flipBit_split hk
    rw [hflip, hB, ← hL] at he
    simp [hne.symm] at he
  · exact fun hi => List.getElem?_modify_ne _ _ hi.symm

/-- The checksum tells the flip of a single bit (G2). -/
theorem crc32_flipBit_ne (hk : k < 8 * B.length) : crc32 (flipBit B k) ≠ crc32 B := by
  obtain ⟨L, x, R, y, hB, -, hne, hflip⟩ := flipBit_split hk
  rw [hflip, hB]
  exact crc32SeparatesOneChangedByte L R y x hne.symm

/-! ### Reads of a flipped datagram -/

theorem getElem?_slice (D : Bytes) (i j m : Nat) : (slice D i j)[m]? = if m < j - i then D[i + m]? else none := by
  simp [slice, List.getElem?_take]

/-- Two datagrams of one length read the same where their bytes are the same, and only there. -/
theorem memRead_eq_iff {D' : Bytes} (hl : D'.length = D.length) : memRead D' off n = memRead D off n ↔
    ∀ i, off ≤ i → i < off + n → D'[i]? = D[i]? := by
  have hsl : (slice D' off (off + n)).length = (slice D off (off + n)).length := by simp [slice, hl]
  have hread : memRead D' off n = memRead D off n ↔ slice D' off (off + n) = slice D off (off + n) := by
    refine ⟨fun h => ?_, congrArg beNat⟩
    rw [← beBytes_beNat (slice D' off (off + n)), ← beBytes_beNat (slice D off (off + n)), hsl]
    exact congrArg _ h
  rw [hread]
  constructor
  · intro h i hlo hhi
    have hi := congrArg (·[i - off]?) h
    simpa [getElem?_slice, Nat.add_sub_cancel' hlo, show i - off < n by omega] using hi
  · intro h
    apply List.ext_getElem?
    intro m
    rw [getElem?_slice, getElem?_slice]
    split
    · exact h _ (by omega) (by omega)
    · rfl

/-- A field of a flipped datagram reads as before exactly when the flip is not in it. -/
theorem memRead_flipBit_eq_iff (hk : k < 8 * D.length) :
    memRead (flipBit D k) off n = memRead D off n ↔ k / 8 < off ∨ off + n ≤ k / 8 := by
  rw [memRead_eq_iff (flipBit_length D k)]
  constructor
  · intro h
    by_contra hno
    exact (getElem?_flipBit_eq_iff hk).1 (h (k / 8) (by omega) (by omega)) rfl
  · exact fun hout i hlo hhi => (getElem?_flipBit_eq_iff hk).2 (by omega)

/-! ### The checksum of a flipped frame -/

theorem getElem?_zeroedChecksum (h : minFrame ≤ D.length) :
    (zeroedChecksum D)[i]? = if 10 ≤ i ∧ i < 14 then some 0#8 else D[i]? := by
  simp only [minFrame, hdrNormal] at h
  have h10 : (D.take 10).length = 10 := List.length_take_of_le (by omega)
  rw [zeroedChecksum, List.append_assoc, zeros]
  by_cases hlo : i < 10
  · rw [List.getElem?_append_left (by omega), List.getElem?_take_of_lt hlo, if_neg (by omega)]
  rw [List.getElem?_append_right (by omega), h10]
  by_cases hhi : i < 14
  · rw [List.getElem?_append_left (by simp; omega), List.getElem?_replicate_of_lt (by omega), if_pos (by omega)]
  · rw [List.getElem?_append_right (by simp; omega), List.getElem?_drop, List.length_replicate, if_neg (by omega),
      show 14 + (i - 10 - 4) = i by omega]

theorem zeroedChecksum_length (h : minFrame ≤ D.length) : (zeroedChecksum D).length = D.length := by
  simp only [minFrame, hdrNormal] at h
  simp [zeroedChecksum, zeros]
  omega

/-- Zeroing the checksum field undoes a flip in it. -/
theorem zeroedChecksum_flipBit_inside (h : minFrame ≤ D.length) (hin : 10 ≤ k / 8 ∧ k / 8 < 14) :
    zeroedChecksum (flipBit D k) = zeroedChecksum D := by
  apply List.ext_getElem?
  intro i
  rw [getElem?_zeroedChecksum (by simpa using h), getElem?_zeroedChecksum h]
  split
  · rfl
  · exact List.getElem?_modify_ne _ _ (by omega)

/-- Zeroing the checksum field keeps a flip elsewhere. -/
theorem zeroedChecksum_flipBit_outside (h : minFrame ≤ D.length) (hout : k / 8 < 10 ∨ 14 ≤ k / 8) :
    zeroedChecksum (flipBit D k) = flipBit (zeroedChecksum D) k := by
  apply List.ext_getElem?
  intro i
  rw [getElem?_zeroedChecksum (by simpa using h)]
  simp only [flipBit, List.getElem?_modify, getElem?_zeroedChecksum h]
  split
  · simp [show k / 8 ≠ i by omega]
  · rfl

/-- The frame's checksum changes exactly when the flip is not in the checksum field, which counts as zero (R47). -/
theorem frameChecksum_flipBit_eq_iff (h : minFrame ≤ D.length) (hk : k < 8 * D.length) :
    frameChecksum (flipBit D k) = frameChecksum D ↔ 10 ≤ k / 8 ∧ k / 8 < 14 := by
  refine ⟨fun hc => ?_, fun hin => congrArg crc32 (zeroedChecksum_flipBit_inside h hin)⟩
  by_contra hout
  have hz : zeroedChecksum (flipBit D k) = flipBit (zeroedChecksum D) k :=
    zeroedChecksum_flipBit_outside h (by omega)
  exact crc32_flipBit_ne (by rwa [zeroedChecksum_length h]) ((congrArg crc32 hz).symm.trans hc)

/-- Wherever the flip is, the checksum and its field no longer agree: one of them changed and the other did not. -/
theorem frameChecksum_flipBit_ne (hn : minFrame ≤ D.length) (hk : k < 8 * D.length)
    (hc : frameChecksum D = read32 D 10) : frameChecksum (flipBit D k) ≠ read32 (flipBit D k) 10 := by
  have hn' : minFrame ≤ (flipBit D k).length := by simpa using hn
  have hfield : read32 (flipBit D k) 10 = read32 D 10 ↔ k / 8 < 10 ∨ 14 ≤ k / 8 := by
    rw [← BitVec.toNat_inj, read32_toNat hn', read32_toNat hn]
    exact memRead_flipBit_eq_iff hk
  have hsum := frameChecksum_flipBit_eq_iff hn hk
  intro he
  by_cases hin : 10 ≤ k / 8 ∧ k / 8 < 14
  · have := hfield.1 (by rw [← he, hsum.2 hin, hc])
    omega
  · exact hin (hsum.1 (by rw [he, hfield.2 (by omega), hc]))

/-! ### The rows of the table -/

/-- Past the version byte a flip leaves magic and version alone, so the tests on `length` and the total length decide,
and where they pass the checksum test fails. -/
theorem decodeFrame_flipBit_cases (h : decodeFrame D = .ok f) (hk : k < 8 * D.length) (hpos : 24 ≤ k) :
    (maxPayload < memRead (flipBit D k) 8 2 → decodeFrame (flipBit D k) = .error .lengthOutOfRange) ∧
    (memRead (flipBit D k) 8 2 ≤ maxPayload →
      (D.length ≠ hdrNormal + memRead (flipBit D k) 8 2 ∧ D.length ≠ hdrTerminal + memRead (flipBit D k) 8 2 →
        decodeFrame (flipBit D k) = .error .lengthMismatch) ∧
      (D.length = hdrNormal + memRead (flipBit D k) 8 2 ∨ D.length = hdrTerminal + memRead (flipBit D k) 8 2 →
        decodeFrame (flipBit D k) = .error .checksumMismatch)) := by
  obtain ⟨hn, hm, hv, -, -, hc, -⟩ := decodeFrame_ok h
  have hn' : minFrame ≤ (flipBit D k).length := by simpa using hn
  have hm' := ((memRead_flipBit_eq_iff (off := 0) (n := 2) hk).2 (by omega)).trans hm
  have hv' := ((memRead_flipBit_eq_iff (off := 2) (n := 1) hk).2 (by omega)).trans hv
  rw [← flipBit_length D k]
  exact ⟨decodeFrame_lengthOutOfRange hn' hm' hv', fun hl =>
    ⟨fun hf => decodeFrame_lengthMismatch hn' hm' hv' hl (formAt_eq_none hf.1 hf.2),
      fun hf => decodeFrame_checksumMismatch hn' hm' hv' hl hf (frameChecksum_flipBit_ne hn hk hc)⟩⟩

/-- A flip in the magic. -/
theorem decodeFrame_flipBit_magic (h : decodeFrame D = .ok f) (hk : k < 8 * D.length) (hpos : k < 16) :
    decodeFrame (flipBit D k) = .error .badMagic := by
  obtain ⟨hn, hm, -⟩ := decodeFrame_ok h
  refine decodeFrame_badMagic (by simpa using hn) fun he => ?_
  have := (memRead_flipBit_eq_iff hk).1 (he.trans hm.symm)
  omega

/-- A flip in the version. -/
theorem decodeFrame_flipBit_version (h : decodeFrame D = .ok f) (hk : k < 8 * D.length)
    (hpos : 16 ≤ k ∧ k < 24) : decodeFrame (flipBit D k) = .error .badVersion := by
  obtain ⟨hn, hm, hv, -⟩ := decodeFrame_ok h
  have hm' := ((memRead_flipBit_eq_iff (off := 0) (n := 2) hk).2 (by omega)).trans hm
  refine decodeFrame_badVersion (by simpa using hn) hm' fun he => ?_
  have := (memRead_flipBit_eq_iff hk).1 (he.trans hv.symm)
  omega

/-- A flip elsewhere than in magic, version and `length`: only the checksum test fails. -/
theorem decodeFrame_flipBit_checksum (h : decodeFrame D = .ok f) (hk : k < 8 * D.length) (hpos : 24 ≤ k)
    (hout : k < 64 ∨ 80 ≤ k) : decodeFrame (flipBit D k) = .error .checksumMismatch := by
  obtain ⟨-, -, -, hl, hf, -⟩ := decodeFrame_ok h
  have hlen := (memRead_flipBit_eq_iff (off := 8) (n := 2) hk).2 (by omega)
  have hrow := (decodeFrame_flipBit_cases h hk hpos).2
  rw [hlen] at hrow
  exact (hrow hl).2 (exists_formAt_iff.1 ⟨_, _, hf⟩)

/-- A flip never leaves a frame that decodes. -/
theorem exists_decodeFrame_flipBit_error (h : decodeFrame D = .ok f) (hk : k < 8 * D.length) :
    ∃ e, decodeFrame (flipBit D k) = .error e := by
  obtain ⟨hn, -, -, -, -, hc, -⟩ := decodeFrame_ok h
  cases hd : decodeFrame (flipBit D k) with
  | error e => exact ⟨e, rfl⟩
  | ok g =>
    obtain ⟨-, -, -, -, -, hc', -⟩ := decodeFrame_ok hd
    exact absurd hc' (frameChecksum_flipBit_ne hn hk hc)

/-- Settles O13: the kind is the one of the row the position stands in. -/
theorem singleBitFlipRejected : Obligations.SingleBitFlipRejected := by
  intro D f k h hk
  obtain ⟨e, he⟩ := exists_decodeFrame_flipBit_error h hk
  have hkind {e'} (h' : decodeFrame (flipBit D k) = .error e') : e = e' := Except.error.inj (he.symm.trans h')
  refine ⟨e, he, fun hpos => hkind (decodeFrame_flipBit_magic h hk hpos),
    fun hpos => hkind (decodeFrame_flipBit_version h hk hpos),
    fun hpos => hkind (decodeFrame_flipBit_checksum h hk hpos.1 (.inl hpos.2)), fun hpos => ?_,
    fun hpos => hkind (decodeFrame_flipBit_checksum h hk (by omega) (.inr hpos))⟩
  obtain ⟨hrange, hfits⟩ := decodeFrame_flipBit_cases h hk (by omega)
  exact ⟨fun hl => hkind (hrange hl),
    fun hl => ⟨fun hf => hkind ((hfits hl).1 hf), fun hf => hkind ((hfits hl).2 hf)⟩⟩

end Sys2Proof.Machine
end

section
/-! Proofs of the obligations of 41_reassembly.md about the buffer primitives. What each primitive answers is one
equation (`exec_rbStore_next_iff`, `exec_rbFinalize`; RB_CONCAT and RB_CLEAR by their definition); the rest is about
the keyed stores. -/

namespace Sys2Proof.Machine

variable {s : State} {p : Peer} {seq j k : Word} {payload a b : Bytes}

/-! ### RB_STORE -/

/-- Settles O15: the write creates or replaces one entry (`assocGet_put_same`, `assocGet_put_other`). -/
theorem rbStoreWritesOneEntry : Obligations.RbStoreWritesOneEntry := by
  intro p seq payload s
  refine ⟨fun hl hroom => ⟨_, exec_rbStore_next_iff.2 ⟨hl, hasRoom_iff.1 hroom, rfl⟩, respondedWith_setBuffer .., ?_⟩,
    fun hl => if_pos hl⟩
  rw [respond_buffer, putChunk_buffer_same]
  exact ⟨assocGet_put_same, fun _ hk => assocGet_put_other hk⟩

/-- A payload in RB_STORE's domain is refused for no other reason than an overflow (R81, R149). -/
theorem exec_rbStore_fault_iff (hl : payload.length ≤ maxPayload) :
    exec (.rbStore p seq payload) s = .fault .bufferFull ↔ s.storeOverflows p seq = true := by
  simp only [exec, execRbStore, if_neg (Nat.not_lt.2 hl)]
  split
  · next ho => simp [ho]
  · next ho => simp [ho]

/-- Two chunks stored one after the other are one write of the buffer with both entries. -/
theorem putChunk_putChunk : (s.putChunk p j a).putChunk p k b =
    s.setBuffer p (assocPut k.toNat b (assocPut j.toNat a (s.buffer p))) := by
  rw [State.putChunk, putChunk_buffer_same]
  exact setBuffer_setBuffer_same assocPut_ne_nil assocPut_ne_nil

/-- Chunks stored at two keys leave the same state in either order (R96). -/
theorem putChunk_putChunk_comm (h : j ≠ k) :
    (s.putChunk p j a).putChunk p k b = (s.putChunk p k b).putChunk p j a := by
  rw [putChunk_putChunk, putChunk_putChunk, assocPut_put_comm (mt BitVec.eq_of_toNat_eq h.symm)]

/-- Settles O18: the response between the two stores does not touch the buffer, and the two writes commute. -/
theorem rbStoresCommute : Obligations.RbStoresCommute := by
  intro p j k a b s hjk ha hb hcap
  have store (seq : Word) (payload : Bytes) (hl : payload.length ≤ maxPayload) (u : State)
      (hu : u.cfg = s.cfg) : exec (.rbStore p seq payload) u = .next ((u.putChunk p seq payload).respond .ok []) :=
    exec_rbStore_next_iff.2 ⟨hl, storeOverflows_unbounded (hu ▸ hcap), rfl⟩
  refine ⟨_, _, _, _, store j a ha s rfl, store k b hb _ (by simp), store k b hb s rfl, store j a ha _ (by simp), ?_⟩
  calc (((s.putChunk p j a).respond .ok []).putChunk p k b).mem
      = ((s.putChunk p j a).putChunk p k b).mem := setBuffer_mem_congr rfl rfl
    _ = ((s.putChunk p k b).putChunk p j a).mem := by rw [putChunk_putChunk_comm hjk]
    _ = (((s.putChunk p k b).respond .ok []).putChunk p j a).mem := setBuffer_mem_congr rfl rfl

/-! ### RB_CONCAT -/

/-- A key reads as present exactly when it is listed. -/
theorem assocGet_isSome_iff {α : Type} {k : Nat} {l : List (Nat × α)} :
    (assocGet k l).isSome = true ↔ k ∈ l.map Prod.fst := by
  induction l with
  | nil => simp
  | cons e l ih =>
    rw [assocGet_cons]
    split
    · next hk => simp [hk]
    · next hk => simp [ih, hk]

/-- In a rising list the concatenation of the payloads is that of what its keys read as (R82). -/
theorem concatBuffer_eq_reads {l : Buffer} (hr : assocRising 0 l = true) :
    concatBuffer l = (l.map Prod.fst).flatMap fun k => (assocGet k l).getD [] := by
  rw [concatBuffer, List.flatMap_map]
  exact List.flatMap_congr fun e he => by rw [assocGet_of_mem hr he]; rfl

/-- Settles O19: the present keys are the listed ones, in the list's order. -/
theorem rbConcatAscending : Obligations.RbConcatAscending := by
  intro p s hm
  have hr := (bufferWf_iff.1 (buffer_wf hm p)).1
  refine ⟨(s.buffer p).map Prod.fst, (assocRising_pairwise hr).1, fun _ => assocGet_isSome_iff.symm, ?_⟩
  rw [← concatBuffer_eq_reads hr]
  rfl

/-! ### RB_CLEAR and RB_FINALIZE -/

theorem assocErase_of_absent {α : Type} {k : Nat} {l : List (Nat × α)} (h : assocGet k l = none) :
    assocErase k l = l := by
  induction l with
  | nil => rfl
  | cons e l ih =>
    rw [assocGet_cons] at h
    split at h
    · cases h
    · next hk => rw [assocErase, if_neg hk, ih h]

/-- A canonical store lists no empty buffer, so a peer whose buffer is empty is not listed (R14). -/
theorem assocGet_eq_none_of_peerBuffer_nil {m : Memory} (hm : m.wf = true) (h : peerBuffer m.rbs p = []) :
    assocGet p.id m.rbs = none := by
  obtain ⟨-, -, hlisted⟩ := memory_wf_iff.1 hm
  cases hg : assocGet p.id m.rbs with
  | none => rfl
  | some b => exact absurd (by simpa [peerBuffer, hg] using h) (hlisted _ (mem_of_assocGet hg)).2

/-- Clearing an empty buffer changes nothing of the store. -/
theorem clearBuffer_mem_of_empty (hm : s.mem.wf = true) (h : s.buffer p = []) : (s.clearBuffer p).mem = s.mem := by
  cases hk : s.cfg.peerKeyed with
  | false =>
    have hrb : s.mem.rb = [] := by simpa [State.buffer, hk] using h
    simp [State.clearBuffer, State.setBuffer, hk, ← hrb]
  | true =>
    have habsent := assocGet_eq_none_of_peerBuffer_nil hm (by simpa [State.buffer, hk] using h)
    simp [State.clearBuffer, State.setBuffer, hk, setPeerBuffer, assocErase_of_absent habsent]

/-- Settles O20. -/
theorem rbClearEmptiesBuffer : Obligations.RbClearEmptiesBuffer := fun p s hm =>
  ⟨_, rfl, respondedWith_setBuffer s p [] .ok [], clearBuffer_buffer_same hm, clearBuffer_mem_of_empty hm⟩

/-- What RB_FINALIZE answers: the concatenation or the error, by the checksum, and the buffer cleared (R84 to R86). -/
theorem exec_rbFinalize (p : Peer) (fc : Word) (s : State) : exec (.rbFinalize p fc) s =
    .next ((s.clearBuffer p).respond (if crc32 (concatBuffer (s.buffer p)) = fc
      then .okBytes (concatBuffer (s.buffer p)) else .err .fileChecksumMismatch) []) := by
  simp only [exec, execRbFinalize, finalize, answer_eq]
  split <;> rfl

theorem crc32_nil : crc32 [] = 0#32 := rfl

/-- Settles O21: RB_CONCAT and RB_FINALIZE take the same concatenation. -/
theorem rbFinalizeChecksAndClears : Obligations.RbFinalizeChecksAndClears := by
  intro p fc s hm
  refine ⟨_, _, rfl, exec_rbFinalize p fc s, clearBuffer_buffer_same hm, respondedWith_setBuffer .., fun hb => ?_⟩
  rw [hb]
  exact ⟨rfl, crc32_nil⟩

end Sys2Proof.Machine
end

section
/-! Proofs of the obligations of 41_reassembly.md about the receive datapath. RECV has four answers beside the overflow
fault, one equation each (`receive_error`, `receive_nonData`, `receive_normal`, `receive_terminal`); a frame kind's
arrival is RECV of the frame laid out from its fields, so its statement is that of RECV at that datagram. -/

namespace Sys2Proof.Machine

variable {s t : State} {src : Peer} {D payload : Bytes} {f : DecodedFrame} {ty : Byte} {seq ck fc : Word} {form : Form}

/-! ### The answers of RECV -/

/-- What RECV returns for a terminal DATA frame whose finalization took the concatenation `out` (R93, R94). -/
def terminalResponse (src : Peer) (seq fc : Word) (out : Bytes) : Response :=
  if crc32 out = fc
    then ⟨.received (.completed out), [.transmit src (ackFrame seq), .sink out, .report .transferVerified]⟩
    else ⟨.received .failed, [.transmit src (ackFrame seq), .report .fileChecksumFailure]⟩

theorem terminalResponse_result (out : Bytes) : (terminalResponse src seq fc out).result =
    if crc32 out = fc then .received (.completed out) else .received .failed := apply_ite ..

/-- RECV of a valid normal DATA frame that fits: stored and acknowledged (R91, R92). -/
theorem receive_normal (hd : decodeFrame D = .ok f) (hty : f.ty = typeData) (hf : f.form = .normal)
    (ho : s.storeOverflows src f.seq = false) : receive src D s =
      .next ((s.putChunk src f.seq f.payload).respond (.received (.stored f.seq)) [.transmit src (ackFrame f.seq)]) :=
  (receive_data hd hty).trans (recvData_normal ho hf)

/-- RECV of a valid terminal DATA frame that fits: stored, acknowledged and finalized (R93, R94). -/
theorem receive_terminal (hd : decodeFrame D = .ok f) (hty : f.ty = typeData) (hf : f.form = .terminal fc)
    (ho : s.storeOverflows src f.seq = false) : receive src D s =
      .next (((s.putChunk src f.seq f.payload).clearBuffer src).respond
        (terminalResponse src f.seq fc (finalConcat s src f)).result
        (terminalResponse src f.seq fc (finalConcat s src f)).actions) := by
  rw [receive_data hd hty, recvData_terminal ho hf, terminalResponse]
  split <;> rfl

/-- What RECV did when it answered a next state. -/
theorem receive_cases (h : receive src D s = .next t) :
    (∃ kind, decodeFrame D = .error kind ∧
      t = s.respond (.received (.discarded kind)) [.report (.frameDiscarded kind)]) ∨
    ∃ f, decodeFrame D = .ok f ∧
      ((f.ty ≠ typeData ∧ t = s.respond (.received (.ignored f.ty)) []) ∨
        (f.ty = typeData ∧ s.storeOverflows src f.seq = false ∧
          ((f.form = .normal ∧ t = (s.putChunk src f.seq f.payload).respond (.received (.stored f.seq))
              [.transmit src (ackFrame f.seq)]) ∨
            ∃ fc, f.form = .terminal fc ∧ t = ((s.putChunk src f.seq f.payload).clearBuffer src).respond
              (terminalResponse src f.seq fc (finalConcat s src f)).result
              (terminalResponse src f.seq fc (finalConcat s src f)).actions))) := by
  cases hd : decodeFrame D with
  | error kind => rw [receive_error hd] at h; cases h; exact .inl ⟨kind, rfl, rfl⟩
  | ok f =>
    refine .inr ⟨f, rfl, ?_⟩
    by_cases hty : f.ty = typeData
    · refine .inr ⟨hty, ?_⟩
      cases ho : s.storeOverflows src f.seq with
      | true => rw [receive_data hd hty, recvData_full ho] at h; cases h
      | false =>
        refine ⟨rfl, ?_⟩
        cases hf : f.form with
        | normal => rw [receive_normal hd hty hf ho] at h; cases h; exact .inl ⟨rfl, rfl⟩
        | terminal fc => rw [receive_terminal hd hty hf ho] at h; cases h; exact .inr ⟨fc, rfl, rfl⟩
    · rw [receive_nonData hd hty] at h; cases h; exact .inl ⟨hty, rfl⟩

/-- RECV of a valid DATA frame faults for no other reason than an overflow (R149). -/
theorem receive_fault_iff (hd : decodeFrame D = .ok f) (hty : f.ty = typeData) :
    receive src D s = .fault .bufferFull ↔ s.storeOverflows src f.seq = true := by
  cases ho : s.storeOverflows src f.seq with
  | true => simp [receive_data hd hty, recvData_full ho]
  | false =>
    cases hf : f.form with
    | normal => simp [receive_normal hd hty hf ho]
    | terminal fc => simp [receive_terminal hd hty hf ho]

/-- Settles O16: both fault exactly when the store overflows. -/
theorem fullBufferFaults : Obligations.FullBufferFaults := fun _ _ =>
  ⟨fun _ _ hl => (exec_rbStore_fault_iff hl).trans storeOverflows_iff,
    fun _ _ hd hty => (receive_fault_iff hd hty).trans storeOverflows_iff⟩

/-- Settles O22. -/
theorem recvDiscardsMalformed : Obligations.RecvDiscardsMalformed := fun _ _ _ _ hd => receive_error hd

/-- Settles O23. -/
theorem recvIgnoresNonData : Obligations.RecvIgnoresNonData := fun _ _ _ _ hd hty => receive_nonData hd hty

/-! ### The acknowledgement -/

/-- The acknowledgement is ENCODE's frame for the sequence number, type ACK and an empty payload (R92). -/
theorem encodeFrame_ack (seq : Word) : encodeFrame seq [] typeAck none = .ok (ackFrame seq) :=
  encodeFrame_ok (Nat.zero_le _)

theorem ackFrame_length (seq : Word) : (ackFrame seq).length = 14 := by
  rw [ackFrame, buildFrame_eq, layFrame_length]
  rfl

theorem decodeFrame_ackFrame (seq : Word) : decodeFrame (ackFrame seq) = .ok ⟨typeAck, seq, [], .normal⟩ :=
  decodeFrame_buildFrame (Nat.zero_le _)

/-! ### RECV of a DATA frame -/

/-- Settles O24: the buffer is the one of RB_STORE, the acknowledgement the one of R92. -/
theorem recvStoresAndAcknowledges : Obligations.RecvStoresAndAcknowledges := by
  intro src D f s hd hty hf hroom
  refine ⟨_, _, receive_normal hd hty hf (hasRoom_iff.1 hroom), respondedWith_setBuffer .., encodeFrame_ack _,
    ackFrame_length _, decodeFrame_ackFrame _, ?_⟩
  rw [respond_buffer, putChunk_buffer_same]
  exact ⟨assocGet_put_same, fun _ hk => assocGet_put_other hk⟩

/-- The buffer of the source is empty after a terminal frame (R93). -/
theorem finalized_buffer_nil (hm : s.mem.wf = true) (hl : payload.length ≤ maxPayload) :
    ((s.putChunk src seq payload).clearBuffer src).buffer src = [] :=
  clearBuffer_buffer_same (putChunk_wf hm hl)

/-- Settles O25: RECV stores by the write of RB_STORE and clears by that of RB_FINALIZE, and what it takes the checksum
of is RB_CONCAT's answer after the store. -/
theorem recvTerminalFinalizes : Obligations.RecvTerminalFinalizes := by
  intro src D f fc s hm hd hty hf hroom
  have ho := hasRoom_iff.1 hroom
  have hl := decodeFrame_payload_length hd
  have hcat : concatBuffer ((s.putChunk src f.seq f.payload).buffer src) = finalConcat s src f := by
    rw [putChunk_buffer_same]; rfl
  refine ⟨_, _, _, _, finalConcat s src f, exec_rbStore_next_iff.2 ⟨hl, ho, rfl⟩, ?_, exec_rbFinalize ..,
    receive_terminal hd hty hf ho, setBuffer_mem_congr rfl rfl, finalized_buffer_nil hm hl, encodeFrame_ack _,
    respondedWith_finalized ..⟩
  rw [← hcat]
  rfl

/-- Settles O26, by what DECODE gives; the store of a DATA frame always fits. -/
theorem recvAlwaysAnswers : Obligations.RecvAlwaysAnswers := by
  intro src D s hcap
  cases hd : decodeFrame D with
  | error kind => exact ⟨_, _, _, receive_error hd, respondedWith_respond .., rfl, rfl⟩
  | ok f =>
    dsimp only
    by_cases hty : f.ty = typeData
    · have ho : s.storeOverflows src f.seq = false := storeOverflows_unbounded hcap
      cases hf : f.form with
      | normal => exact ⟨_, _, _, receive_normal hd hty hf ho, respondedWith_setBuffer .., absurd hty,
          fun _ => ⟨_, encodeFrame_ack _, rfl, rfl⟩⟩
      | terminal fc =>
        have hrecv := receive_terminal hd hty hf ho
        by_cases hc : crc32 (finalConcat s src f) = fc
        · rw [terminalResponse, if_pos hc] at hrecv
          exact ⟨_, _, _, hrecv, respondedWith_finalized .., absurd hty,
            fun _ => ⟨_, encodeFrame_ack _, .inl ⟨_, hc, rfl, rfl⟩⟩⟩
        · rw [terminalResponse, if_neg hc] at hrecv
          exact ⟨_, _, _, hrecv, respondedWith_finalized .., absurd hty,
            fun _ => ⟨_, encodeFrame_ack _, .inr ⟨rfl, rfl⟩⟩⟩
    · exact ⟨_, _, _, receive_nonData hd hty, respondedWith_respond .., fun _ => ⟨rfl, rfl⟩, fun h => absurd h hty⟩

/-- Settles O39: every answer of RECV looks at the parameters and the source's buffer alone. -/
theorem recvReadsOnlyItsPeer : Obligations.RecvReadsOnlyItsPeer := by
  intro src D s s' t hcfg hm hm' hb h
  have hroom (seq : Word) : s'.storeOverflows src seq = s.storeOverflows src seq := by
    simp only [State.storeOverflows, State.entry, hcfg, hb]
  rcases receive_cases h with ⟨kind, hd, rfl⟩ | ⟨f, hd, ⟨hty, rfl⟩ | ⟨hty, ho, ⟨hf, rfl⟩ | ⟨fc, hf, rfl⟩⟩⟩
  · exact ⟨_, _, receive_error hd, rfl, rfl, hb⟩
  · exact ⟨_, _, receive_nonData hd hty, rfl, rfl, hb⟩
  · refine ⟨_, _, receive_normal hd hty hf ((hroom _).trans ho), (respondedWith_setBuffer ..).outbox,
      (respondedWith_setBuffer ..).outbox, ?_⟩
    rw [respond_buffer, respond_buffer, putChunk_buffer_same, putChunk_buffer_same, hb]
  · have hl := decodeFrame_payload_length hd
    have hcat : finalConcat s' src f = finalConcat s src f := by rw [finalConcat, finalConcat, hb]
    refine ⟨_, _, receive_terminal hd hty hf ((hroom _).trans ho), (respondedWith_finalized ..).outbox,
      hcat ▸ (respondedWith_finalized ..).outbox, ?_⟩
    exact (finalized_buffer_nil hm hl).trans (finalized_buffer_nil hm' hl).symm

/-- Settles O60: the terminal chunk goes before the one listed, which is the key order. -/
theorem staleChunkIsConcatenated : Obligations.StaleChunkIsConcatenated := by
  intro src D stale key f fc s hm hb hlt hcap hd hty hf
  have hcat : finalConcat s src f = f.payload ++ stale := by
    simp [finalConcat, concatBuffer, hb, assocPut, hlt]
  refine ⟨_, _, receive_terminal hd hty hf (storeOverflows_unbounded hcap), respondedWith_finalized ..,
    finalized_buffer_nil hm (decodeFrame_payload_length hd), ?_⟩
  rw [hcat]
  exact terminalResponse_result _

/-! ### Frames arriving -/

/-- A laid-out frame with the right checksum field decodes to its fields (R47, R68). -/
theorem decodeFrame_of_checksum (hl : payload.length ≤ maxPayload)
    (hck : ck = frameChecksum (layFrame ty seq ck form payload)) :
    decodeFrame (layFrame ty seq ck form payload) = .ok ⟨ty, seq, payload, form⟩ := by
  rw [frameChecksum_lay] at hck
  rw [decodeFrame_layFrame hl, if_neg (not_not.2 hck.symm)]

/-- Settles O27: what RECV does with the laid-out frame (O24). -/
theorem frameDataStored : Obligations.FrameDataStored := by
  intro src seq ck payload s hl hck hroom
  obtain ⟨t, ack, hrecv, hframe, hack, -, -, hentry, hothers⟩ :=
    recvStoresAndAcknowledges src _ _ s (decodeFrame_of_checksum hl hck) rfl rfl hroom
  exact ⟨t, ack, hrecv, hframe, hack, hentry, hothers⟩

/-- Settles O28: what RECV does with the laid-out frame (O25). -/
theorem frameTerminalFinalized : Obligations.FrameTerminalFinalized := by
  intro src seq ck fc payload s hm hl hck hroom
  obtain ⟨s₁, -, t, ack, out, hstore, hconcat, -, hrecv, -, hempty, hack, hframe⟩ :=
    recvTerminalFinalizes src _ _ fc s hm (decodeFrame_of_checksum hl hck) rfl rfl hroom
  exact ⟨s₁, t, ack, out, hstore, hconcat, hrecv, hempty, hack, hframe⟩

/-- Settles O29: what RECV does with the laid-out frame (O23). -/
theorem nonDataFramesIgnored : Obligations.NonDataFramesIgnored := by
  intro src seq ck form payload s hl
  have ignored (ty : Byte) (hty : ty ≠ 0#8) (hck : ck = frameChecksum (layFrame ty seq ck form payload)) :
      exec (.recv src (layFrame ty seq ck form payload)) s =
        .next { s with outbox := s.outbox ++ [⟨.received (.ignored ty), []⟩] } :=
    recvIgnoresNonData src _ _ s (decodeFrame_of_checksum hl hck) hty
  exact ⟨ignored 1#8 (by decide), ignored 2#8 (by decide),
    fun ty h => ignored ty (by rintro rfl; exact absurd h (by decide))⟩

end Sys2Proof.Machine
end

section
/-! Proof of TransferIsDelivered (41_reassembly.md R96, R93; 95_test_vectors.md L1-6). `Accumulated` says what holds
after some chunks of a transfer have arrived, whatever their order: the buffer reads as exactly those chunks and each
was acknowledged. Every arrival of a further chunk keeps it, and the terminal frame's arrival then concatenates the
chunks in key order, which gives the payload back. -/

namespace Sys2Proof.Machine

variable {s u : State} {src : Peer} {D F : Bytes} {tr : Transfer} {i m n : Nat} {stored todo : List Nat}
  {frames : Nat → Bytes} {rest : List Event}

/-! ### A datagram arriving -/

/-- Whatever a datagram decodes to hands the datagram itself to the receiver (R111). -/
theorem receivedDatagram_decodeChunkedDatagram (src : Peer) (D : Bytes) :
    receivedDatagram (decodeChunkedDatagram src D) = some (src, D) := by
  unfold decodeChunkedDatagram
  split
  · rfl
  · next hn =>
    split
    · next hc =>
      obtain ⟨hm, hv, -⟩ := hc
      split
      · next form payload hf => rw [receivedDatagram_frameKind, (layFrame_repack (Nat.not_lt.1 hn) hm hv hf).1]
      · rfl
    · rfl

/-- The receive loop performs RECV on every datagram it takes (R111). -/
theorem step_datagram (he : s.inbox = .transaction (.datagram src D) :: rest) (hv : s.cfg.variant = .chunked) :
    step s = receive src D { s with inbox := rest } := by
  have hdec : decode s.cfg.variant (.datagram src D) = .ok (decodeChunkedDatagram src D) := by rw [hv]; rfl
  rw [step_of_decode he hdec]
  exact exec_receivedDatagram (receivedDatagram_decodeChunkedDatagram src D)

/-! ### The chunks of a payload and their frames -/

/-- The first `m` chunks are the first `1000 * m` bytes (R100). -/
theorem flatten_map_chunkAt (W : Bytes) (m : Nat) :
    ((List.range m).map (chunkAt W)).flatten = W.take (maxPayload * m) := by
  induction m with
  | zero => simp
  | succ m ih =>
    rw [List.range_succ, List.map_append, List.flatten_append, ih, Nat.mul_succ, List.take_add]
    simp [chunkAt]

/-- The chunks of a payload in order are the payload (R100, R109). -/
theorem chunksOf_flatten (cfg : Cfg) (W : Bytes) : (chunksOf cfg W).flatten = W := by
  unfold chunksOf
  split
  · next h =>
    have hW : W = [] := by simp_all
    simp [hW]
  · have hlen : W.length ≤ maxPayload * chunkCount W.length := by
      simp only [chunkCount, maxPayload]
      omega
    rw [flatten_map_chunkAt, List.take_of_length_le hlen]

/-- A transfer's frame decodes to its chunk at its index (R101, R102). -/
theorem decodeFrame_transferFrame (h : tr.frame i = .ok F) :
    decodeFrame F = .ok ⟨typeData, BitVec.ofNat 32 i, tr.chunks.getD i [], formOf (tr.fcOperand i)⟩ := by
  rw [Transfer.frame] at h
  by_cases hl : (tr.chunks.getD i []).length ≤ maxPayload
  · rw [encodeFrame_ok hl] at h
    cases h
    exact decodeFrame_buildFrame hl
  · rw [encodeFrame_error (Nat.not_le.1 hl)] at h
    cases h

/-! ### Reads and concatenation -/

theorem assocGet_put {α : Type} {j k : Nat} {v : α} {l : List (Nat × α)} :
    assocGet j (assocPut k v l) = if j = k then some v else assocGet j l := by
  split
  · next h => rw [h, assocGet_put_same]
  · next h => exact assocGet_put_other h

/-- The concatenation of a canonical buffer whose present keys are those below `m`. -/
theorem concatBuffer_of_reads {l : Buffer} {c : Nat → Bytes} (hr : assocRising 0 l = true)
    (hg : ∀ k, assocGet k l = if k < m then some (c k) else none) : concatBuffer l = (List.range m).flatMap c := by
  have hkeys : l.map Prod.fst = List.range m :=
    (assocRising_pairwise hr).1.eq_of_mem_iff List.pairwise_lt_range fun k => by
      rw [← assocGet_isSome_iff, hg, List.mem_range]
      split <;> simp [*]
  rw [concatBuffer_eq_reads hr, hkeys]
  exact List.flatMap_congr fun k hk => by rw [hg, if_pos (List.mem_range.1 hk)]; rfl

theorem flatMap_range_getD (chunks : List Bytes) :
    (List.range chunks.length).flatMap (fun k => chunks.getD k []) = chunks.flatten := by
  have hmap : (List.range chunks.length).map (fun k => chunks.getD k []) = chunks :=
    List.ext_getElem (by simp) fun k _ hk => by simp [hk]
  rw [List.flatMap_def, hmap]

/-! ### The chunks that have arrived -/

/-- The response to the arrival of chunk `i` in the normal form (R91). -/
def storedResponse (src : Peer) (i : Nat) : Response :=
  ⟨.received (.stored (BitVec.ofNat 32 i)), [.transmit src (ackFrame (BitVec.ofNat 32 i))]⟩

theorem transmissions_storedResponses (src : Peer) (stored : List Nat) :
    transmissions (stored.map (storedResponse src)) = stored.map fun i => (src, ackFrame (BitVec.ofNat 32 i)) := by
  induction stored with
  | nil => rfl
  | cons i stored ih => exact congrArg ((src, ackFrame (BitVec.ofNat 32 i)) :: ·) ih

theorem sinkDeliveries_storedResponses (src : Peer) (stored : List Nat) :
    sinkDeliveries (stored.map (storedResponse src)) = [] := by
  induction stored with
  | nil => rfl
  | cons i stored ih => exact ih

/-- `u` is `s` after the chunks `stored` of the transfer have arrived in the normal form, in that order, at an empty
buffer. -/
structure Accumulated (tr : Transfer) (src : Peer) (s : State) (stored : List Nat) (u : State) : Prop where
  wf : u.mem.wf = true
  cfg : u.cfg = s.cfg
  reads : ∀ k, assocGet k (u.buffer src) = if k ∈ stored then some (tr.chunks.getD k []) else none
  outbox : u.outbox = s.outbox ++ stored.map (storedResponse src)

namespace Accumulated

theorem refl (hm : s.mem.wf = true) (hb : s.buffer src = []) : Accumulated tr src s [] s :=
  ⟨hm, rfl, by simp [hb], by simp⟩

/-- What the buffer reads as when chunk `i` is stored too. -/
theorem reads_put (h : Accumulated tr src s stored u) (hi : i < 2 ^ 32) (k : Nat) :
    assocGet k (assocPut (BitVec.ofNat 32 i).toNat (tr.chunks.getD i []) (u.buffer src)) =
      if k ∈ stored ++ [i] then some (tr.chunks.getD k []) else none := by
  rw [BitVec.toNat_ofNat, Nat.mod_eq_of_lt hi, assocGet_put, h.reads]
  by_cases hk : k = i <;> simp [hk]

/-- One more chunk arrives: its frame in the normal form is stored and acknowledged. -/
theorem step (h : Accumulated tr src s stored u) (hcap : s.cfg.rbCapacity = none) (hv : s.cfg.variant = .chunked)
    (hi : i < 2 ^ 32) (hlast : i + 1 ≠ tr.chunks.length) (hF : tr.frame i = .ok F)
    (he : u.inbox = .transaction (.datagram src F) :: rest) :
    ∃ v, Machine.step u = .next v ∧ v.inbox = rest ∧ Accumulated tr src s (stored ++ [i]) v := by
  have hd := decodeFrame_transferFrame hF
  rw [Transfer.fcOperand, if_neg hlast] at hd
  have hroom : State.storeOverflows { u with inbox := rest } src (BitVec.ofNat 32 i) = false :=
    storeOverflows_unbounded (h.cfg ▸ hcap)
  refine ⟨_, (step_datagram he (h.cfg ▸ hv)).trans (receive_normal hd rfl rfl hroom), by simp,
    putChunk_wf (s := { u with inbox := rest }) h.wf (decodeFrame_payload_length hd), by simp [h.cfg], fun k => ?_,
    by simp [h.outbox, storedResponse]⟩
  rw [respond_buffer, putChunk_buffer_same]
  exact h.reads_put hi k

/-- Any number of further chunks arrive, by induction on their list. -/
theorem run (hcap : s.cfg.rbCapacity = none) (hv : s.cfg.variant = .chunked)
    (htodo : ∀ i ∈ todo, i < 2 ^ 32 ∧ i + 1 ≠ tr.chunks.length ∧ tr.frame i = .ok (frames i))
    (h : Accumulated tr src s stored u)
    (he : u.inbox = todo.map (fun i => Event.transaction (.datagram src (frames i))) ++ rest) :
    ∃ v, Sys2Proof.core.run todo.length u = .next v ∧ v.inbox = rest ∧ Accumulated tr src s (stored ++ todo) v := by
  induction todo generalizing stored u with
  | nil => exact ⟨u, run_zero u, he, by simpa using h⟩
  | cons i todo ih =>
    obtain ⟨hi, hlast, hF⟩ := htodo i List.mem_cons_self
    obtain ⟨v, hstep, hin, hacc⟩ := h.step hcap hv hi hlast hF he
    obtain ⟨w, hrun, hrest, hall⟩ := ih (fun j hj => htodo j (List.mem_cons_of_mem i hj)) hacc hin
    exact ⟨w, (run_next _ hstep).trans hrun, hrest, by simpa using hall⟩

/-- With every chunk but the last stored, in whatever order, the last one's frame finalizes over the whole payload. -/
theorem concat_eq (h : Accumulated tr src s stored u) (hstored : stored.Perm (List.range n))
    (hn : tr.chunks.length = n + 1) (hlt : n + 1 ≤ 2 ^ 32) :
    concatBuffer (assocPut (BitVec.ofNat 32 n).toNat (tr.chunks.getD n []) (u.buffer src)) = tr.chunks.flatten := by
  have hr := assocRising_put (k := (BitVec.ofNat 32 n).toNat) (v := tr.chunks.getD n [])
    (bufferWf_iff.1 (buffer_wf h.wf src)).1 (Nat.zero_le _)
  rw [← flatMap_range_getD, hn]
  refine concatBuffer_of_reads hr fun k => ?_
  have hmem : k ∈ stored ++ [n] ↔ k < n + 1 := by
    rw [List.mem_append, hstored.mem_iff, List.mem_range, List.mem_singleton, Nat.lt_succ_iff_lt_or_eq]
  simp only [h.reads_put hlt k, hmem]

/-- The last chunk arrives: its terminal frame is finalized over the whole payload (R93). -/
theorem finish (h : Accumulated tr src s stored u) (hcap : s.cfg.rbCapacity = none) (hv : s.cfg.variant = .chunked)
    (hstored : stored.Perm (List.range n)) (hn : tr.chunks.length = n + 1) (hlt : n + 1 ≤ 2 ^ 32)
    (hF : tr.frame n = .ok F) (he : u.inbox = .transaction (.datagram src F) :: rest) :
    ∃ v, Machine.step u = .next v ∧ v.inbox = rest ∧ v.buffer src = [] ∧
      v.outbox = u.outbox ++ [terminalResponse src (BitVec.ofNat 32 n) tr.fc tr.chunks.flatten] := by
  have hd := decodeFrame_transferFrame hF
  rw [Transfer.fcOperand, if_pos hn.symm] at hd
  have hroom : State.storeOverflows { u with inbox := rest } src (BitVec.ofNat 32 n) = false :=
    storeOverflows_unbounded (h.cfg ▸ hcap)
  refine ⟨_, (step_datagram he (h.cfg ▸ hv)).trans (receive_terminal hd rfl rfl hroom), by simp,
    finalized_buffer_nil (s := { u with inbox := rest }) h.wf (decodeFrame_payload_length hd), ?_⟩
  rw [← h.concat_eq hstored hn hlt]
  exact (respondedWith_finalized ..).outbox

end Accumulated

/-- Settles O55: the run stores the chunks before the last (`Accumulated.run`), and the last step finalizes over the
payload (`Accumulated.finish`), whose checksum is the one the terminal frame carries. -/
theorem transferIsDelivered : Obligations.TransferIsDelivered := by
  intro W src dest s order frames n hm hb hcap hv hn hlt horder hframes hinbox
  have hfirst (i : Nat) (hi : i ∈ order) :
      i < 2 ^ 32 ∧ i + 1 ≠ (chunksOf s.cfg W).length ∧ (transferOf s.cfg W dest).frame i = .ok (frames i) := by
    have hin : i < n := List.mem_range.1 (horder.mem_iff.1 hi)
    exact ⟨by omega, by omega, hframes i hin.le⟩
  rw [List.map_append] at hinbox
  obtain ⟨u, hrun, hin, hacc⟩ := Accumulated.run (tr := transferOf s.cfg W dest) hcap hv hfirst (.refl hm hb) hinbox
  obtain ⟨t, hstep, hrest, hempty, hout⟩ := hacc.finish hcap hv horder hn hlt (hframes n le_rfl) hin
  have hlen : order.length = n := by simpa using horder.length_eq
  have hall : t.outbox = s.outbox ++ order.map (storedResponse src) ++ [⟨.received (.completed W),
      [.transmit src (ackFrame (BitVec.ofNat 32 n)), .sink W, .report .transferVerified]⟩] := by
    rw [hout, hacc.outbox, transferOf, chunksOf_flatten, terminalResponse, if_pos rfl, List.nil_append]
  refine ⟨t, ?_, hempty, hrest, ?_, ?_, ?_⟩
  · rw [← hlen, run_add _ 1 _ _ hrun, run_next 0 hstep, run_zero]
  · simp [hall, hlen]
  · rw [hall, sinkDeliveries_append, sinkDeliveries_append, sinkDeliveries_storedResponses, List.append_nil]
    rfl
  · rw [hall, transmissions_append, transmissions_append, transmissions_storedResponses, List.append_assoc,
      List.map_append]
    rfl

end Sys2Proof.Machine
end

section
/-! Proofs of the obligations of 42_transfer_procedures.md about the receiver loop and the frames of a transfer: every
datagram is the operand of the loop's operation (R111), and a payload is cut greedily into chunks, one frame each (R100
to R102). -/

namespace Sys2Proof.Machine

variable {s : State} {src dest : Peer} {D W : Bytes} {ty reserved : Byte} {ck : Half} {payload : Bytes} {tr : Transfer}
  {cfg : Cfg} {i : Nat} {rest : List Event}

/-! ### A datagram arriving -/

/-- The arrival of a single-packet frame is SP_SERVE of the frame laid out from its fields (R122). -/
theorem exec_spFrameKind : exec (spFrameKind src ty reserved ck payload) s =
    .next (serve src (laySpFrame ty reserved ck payload) s) := by
  unfold spFrameKind
  split
  · next hdata => subst hdata; rfl
  split
  · next hack => subst hack; rfl
  split
  · next herror => subst herror; rfl
  · rfl

/-- Whatever a datagram decodes to in the single-packet configuration serves the datagram itself (R122). -/
theorem exec_decodeSpDatagram : exec (decodeSpDatagram src D) s = .next (serve src D s) := by
  unfold decodeSpDatagram
  split
  · rfl
  split
  · next hc =>
    obtain ⟨hm, hv, -, hn⟩ := hc
    have hrepack := laySpFrame_repack hm hv hn
    have hkind := exec_spFrameKind (src := src) (ty := read8 D 3) (reserved := read8 D 4) (ck := read16 D 7)
      (payload := D.drop spHdr) (s := s)
    rwa [spFrameKind, hrepack] at hkind
  · rfl

/-- Settles O42: the decoder's choice of a frame kind rests on the re-packed frame being the datagram, in either
configuration. -/
theorem datagramIsReceived : Obligations.DatagramIsReceived := by
  intro src D rest s he
  refine ⟨step_datagram he, fun hv => ?_⟩
  have hdec : decode s.cfg.variant (.datagram src D) = .ok (decodeSpDatagram src D) := by rw [hv]; rfl
  rw [step_of_decode he hdec]
  exact exec_decodeSpDatagram

/-! ### The chunks of a payload -/

/-- `ceil(n / 1000)` by its two inequalities (R100). -/
theorem chunkCount_bounds {n : Nat} (hn : 0 < n) : 1000 * (chunkCount n - 1) < n ∧ n ≤ 1000 * chunkCount n := by
  simp only [chunkCount, maxPayload]
  omega

theorem chunkAt_length (W : Bytes) (i : Nat) : (chunkAt W i).length = min 1000 (W.length - 1000 * i) := by
  simp [chunkAt, maxPayload]

/-- The bound of R100's slice cuts nothing off: both read up to 1000 bytes from `1000 * i` to the payload's end. -/
theorem chunkAt_eq_slice (W : Bytes) (i : Nat) :
    chunkAt W i = slice W (1000 * i) (min (1000 * (i + 1)) W.length) := by
  rw [chunkAt, slice, maxPayload, List.take_eq_take_iff, List.length_drop]
  omega

/-- A non-empty payload is cut the same way whatever the parameters say of the empty one (R100, R109). -/
theorem chunksOf_eq_map (cfg : Cfg) (hW : W ≠ []) :
    chunksOf cfg W = (List.range (chunkCount W.length)).map (chunkAt W) :=
  if_neg (by simp [hW])

theorem chunksOf_length (cfg : Cfg) (hW : W ≠ []) : (chunksOf cfg W).length = chunkCount W.length := by
  simp [chunksOf_eq_map cfg hW]

theorem chunksOf_getD (hW : W ≠ []) (hi : i < (chunksOf cfg W).length) : (chunksOf cfg W).getD i [] = chunkAt W i := by
  rw [chunksOf_length cfg hW] at hi
  simp [chunksOf_eq_map cfg hW, hi]

/-- Settles O53: the number of chunks is `chunkCount`, and chunk `i` is `chunkAt W i`, of `min 1000 (N - 1000 * i)`
bytes. -/
theorem chunksPartitionPayload : Obligations.ChunksPartitionPayload := by
  intro cfg W hW
  obtain ⟨hlo, hhi⟩ := chunkCount_bounds (List.length_pos_iff.2 hW)
  rw [← chunksOf_length cfg hW] at hlo hhi
  refine ⟨chunksOf_flatten cfg W, hlo, hhi, fun i hi => ?_⟩
  rw [chunksOf_getD hW hi, chunkAt_length]
  exact ⟨chunkAt_eq_slice W i, by omega, by omega⟩

/-- A payload of 1 to 1000 bytes is its own only chunk (R102). -/
theorem chunksOf_single (cfg : Cfg) (hW : W ≠ []) (hl : W.length ≤ maxPayload) : chunksOf cfg W = [W] := by
  have hcount : chunkCount W.length = 1 := by
    have hpos := List.length_pos_iff.2 hW
    simp only [chunkCount, maxPayload] at hl ⊢
    omega
  rw [chunksOf_eq_map cfg hW, hcount]
  simp [chunkAt, List.take_of_length_le hl]

/-! ### The frames of a transfer -/

/-- ENCODE fails on no chunk of a transfer whose chunks fit a frame (R107). -/
theorem exists_transferFrame (h : ∀ c ∈ tr.chunks, c.length ≤ maxPayload) (i : Nat) : ∃ F, tr.frame i = .ok F := by
  refine ⟨_, encodeFrame_ok ?_⟩
  by_cases hi : i < tr.chunks.length
  · rw [List.getD_eq_getElem _ _ hi]
    exact h _ (List.getElem_mem hi)
  · rw [List.getD_eq_default _ _ (Nat.not_lt.1 hi)]
    exact Nat.zero_le _

/-- Settles O54: the frame of chunk `i` is what ENCODE builds by the transfer's definition, and DECODE inverts it. -/
theorem transferFramesCarryChunks : Obligations.TransferFramesCarryChunks := by
  intro cfg W dest
  have hframe := exists_transferFrame (tr := transferOf cfg W dest) (chunksOf_length_le cfg W)
  constructor
  · intro i hi hcount
    obtain ⟨F, hF⟩ := hframe i
    refine ⟨F, _, hF, hF, decodeFrame_transferFrame hF, rfl, Nat.mod_eq_of_lt (hi.trans_le hcount), rfl, ?_⟩
    exact apply_ite formOf ..
  · intro hpos hl
    have hW := chunksOf_single cfg (List.length_pos_iff.1 hpos) hl
    obtain ⟨F, hF⟩ := hframe 0
    have hd := decodeFrame_transferFrame hF
    simp only [transferOf, Transfer.fcOperand, hW] at hd
    exact ⟨F, by rw [hW]; rfl, hF, hd⟩

end Sys2Proof.Machine
end

section
/-! Proofs of the obligations of 42_transfer_procedures.md about the sender SEND: how it starts, how each of its waits
ends, and what it transmits in all (R103 to R113). A chunk's turn is its transmission, the replies that are waited
through, and what ends the wait (`turn_run`); the whole transfer is the induction over the turns (`turns_run`). -/

namespace Sys2Proof.Machine

variable {s u v : State} {dest : Peer} {D F W : Bytes} {f : DecodedFrame} {tr : Transfer} {i : Nat} {e : Event}
  {rest evs : List Event} {sent sent' : List Bytes} {fcs fcs' : List Word}

/-! ### SEND -/

/-- The phase in which SEND leaves the sender: the first chunk, or `Done` when there is none (R109, R112). -/
def Transfer.firstPhase (t : Transfer) : Sender := if t.chunks.isEmpty then .done t.fc else .sending t 0

theorem firstPhase_of_pos (h : 0 < tr.chunks.length) : tr.firstPhase = .sending tr 0 :=
  if_neg (by simpa [List.length_pos_iff] using h)

theorem firstPhase_of_length_zero (h : tr.chunks.length = 0) : tr.firstPhase = .done tr.fc := if_pos (by simpa using h)

/-- SEND while no transfer is in progress and the chunks can be numbered (R103). -/
theorem step_send_starts (he : s.inbox = .send W dest :: rest) (hs : s.sender = .idle ∨ ∃ fc, s.sender = .done fc)
    (hl : (transferOf s.cfg W dest).chunks.length ≤ maxChunks) : step s = .next
      (State.respond { s with inbox := rest, sender := (transferOf s.cfg W dest).firstPhase } .sendStarted
        (completionReport (transferOf s.cfg W dest).firstPhase)) := by
  rcases hs with hs | ⟨fc, hs⟩
  · simp only [step, he, startSend, hs, if_neg (Nat.not_lt.2 hl), Transfer.firstPhase]
  · simp only [step, he, startSend, hs, if_neg (Nat.not_lt.2 hl), Transfer.firstPhase]

/-- SEND of more chunks than can be numbered (R110). -/
theorem step_send_tooLong (he : s.inbox = .send W dest :: rest) (hs : s.sender = .idle ∨ ∃ fc, s.sender = .done fc)
    (hl : maxChunks < (transferOf s.cfg W dest).chunks.length) : step s = .refused .transferTooLong := by
  rcases hs with hs | ⟨fc, hs⟩
  · simp only [step, he, startSend, hs, if_pos hl]
  · simp only [step, he, startSend, hs, if_pos hl]

/-- SEND while a transfer is in progress (R114; log entry 12). -/
theorem step_send_busy (he : s.inbox = .send W dest :: rest)
    (hs : s.sender = .sending tr i ∨ s.sender = .awaitingAck tr i) : step s = .refused .senderBusy := by
  rcases hs with hs | hs
  · simp only [step, he, startSend, hs]
  · simp only [step, he, startSend, hs]

/-- Settles O57: a free sender by the number of chunks, which decides the first phase. -/
theorem sendStartsTransfer : Obligations.SendStartsTransfer := by
  intro W dest rest s he
  refine ⟨fun hs => ⟨fun hpos hle => ?_, fun hzero => ?_, step_send_tooLong he hs⟩, fun tr i => step_send_busy he⟩
  · rw [step_send_starts (dest := dest) he hs hle, firstPhase_of_pos hpos]
    rfl
  · rw [step_send_starts (dest := dest) he hs (hzero.trans_le (Nat.zero_le _)), firstPhase_of_length_zero hzero]
    rfl

/-! ### The end of a wait -/

theorem afterWait_next (h : i + 1 < tr.chunks.length) : tr.afterWait i = .sending tr (i + 1) := if_pos h

theorem afterWait_last (h : i + 1 = tr.chunks.length) : tr.afterWait i = .done tr.fc := if_neg h.not_lt

theorem step_waitExpired (hs : s.sender = .awaitingAck tr i) (he : s.inbox = .waitExpired :: rest) :
    step s = .next (State.endWait { s with inbox := rest } tr i (.err .timeout) [.report (.ackTimeout i)]) := by
  simp only [step, he, waitExpired, hs]

/-- An ACK ends the wait, and one of another sequence number is reported (R105). -/
theorem step_reply_ack (hs : s.sender = .awaitingAck tr i) (he : s.inbox = .reply D :: rest)
    (hd : decodeFrame D = .ok f) (hty : f.ty = typeAck) : step s = .next (
      if f.seq = BitVec.ofNat 32 i then State.endWait { s with inbox := rest } tr i (.waitEnded .acknowledged) []
      else State.endWait { s with inbox := rest } tr i (.waitEnded (.mismatchedAck f.seq))
        [.report (.ackMismatch i f.seq)]) := by
  simp only [step, he, replyArrives, hs, hd, hty, ne_eq, not_true_eq_false, if_false]

/-- A reply that does not decode or is no ACK is left to `TX_BAD_REPLY` (R113). -/
theorem step_reply_notAck (hs : s.sender = .awaitingAck tr i) (he : s.inbox = .reply D :: rest)
    (hbad : ∀ f, decodeFrame D = .ok f → f.ty ≠ typeAck) :
    step s = .next (badReply { s with inbox := rest } tr i) := by
  cases hd : decodeFrame D with
  | error kind => simp only [step, he, replyArrives, hs, hd]
  | ok f => simp only [step, he, replyArrives, hs, hd, if_pos (hbad f hd)]

/-- Settles O58: whatever ends the wait ends it by `endWait`, which goes where `afterWait` says. -/
theorem waitEndsAndSenderProceeds : Obligations.WaitEndsAndSenderProceeds := by
  intro tr i rest s next completion hs hproceed
  have hnext : tr.afterWait i = next ∧ completionReport (tr.afterWait i) = completion := by
    rcases hproceed with ⟨hi, rfl, rfl⟩ | ⟨hi, rfl, rfl⟩
    · rw [afterWait_next hi]; exact ⟨rfl, rfl⟩
    · rw [afterWait_last hi]; exact ⟨rfl, rfl⟩
  obtain ⟨rfl, rfl⟩ := hnext
  refine ⟨step_waitExpired hs, fun D f he hd hty => ?_, fun D he hbad => ?_⟩
  · rw [step_reply_ack hs he hd hty]
    split <;> rfl
  · rw [step_reply_notAck hs he hbad]
    simp only [badReply]
    cases s.cfg.badReply with
    | proceed => rfl
    | keepWaitingUntilTimeout => rfl

/-! ### What a chunk's turn transmits and reports -/

/-- `u` is `s` after the sender has transmitted the frames `sent` to the destination of `tr` and reported the
completions `fcs`; the parameters and the store are as they were. -/
structure Dispatched (tr : Transfer) (s : State) (sent : List Bytes) (fcs : List Word) (u : State) : Prop where
  cfg : u.cfg = s.cfg
  mem : u.mem = s.mem
  transmissions : transmissions u.outbox = transmissions s.outbox ++ sent.map fun F => (tr.dest, F)
  completions : completions u.outbox = completions s.outbox ++ fcs

theorem Dispatched.trans (h : Dispatched tr s sent fcs u) (h' : Dispatched tr u sent' fcs' v) :
    Dispatched tr s (sent ++ sent') (fcs ++ fcs') v where
  cfg := h'.cfg.trans h.cfg
  mem := h'.mem.trans h.mem
  transmissions := by rw [h'.transmissions, h.transmissions, List.map_append, List.append_assoc]
  completions := by rw [h'.completions, h.completions, List.append_assoc]

/-- The checksum with which a sender that enters a phase reports completion, if it does (R106). -/
def completedChecksum : Sender → List Word
  | .done fc => [fc]
  | .idle => []
  | .sending _ _ => []
  | .awaitingAck _ _ => []

theorem transmissions_completionReport (r : Result) (acts : List Action) (x : Sender) :
    transmissions [⟨r, acts ++ completionReport x⟩] = transmissions [⟨r, acts⟩] := by
  cases x <;> simp [transmissions, completionReport]

theorem completions_completionReport (r : Result) (acts : List Action) (x : Sender) :
    completions [⟨r, acts ++ completionReport x⟩] = completions [⟨r, acts⟩] ++ completedChecksum x := by
  cases x <;> simp [completions, completionReport, completedChecksum]

/-- `Sending(i)` transmits chunk `i`'s frame and begins its wait (R103, R112). -/
theorem step_sendNext (hs : s.sender = .sending tr i) (hF : tr.frame i = .ok F) (he : s.inbox = .sendNext :: rest) :
    ∃ u, step s = .next u ∧ u.sender = .awaitingAck tr i ∧ u.inbox = rest ∧ Dispatched tr s [F] [] u := by
  have hstep : step s = .next (State.respond { s with inbox := rest, sender := .awaitingAck tr i } (.transmitted i)
      [.transmit tr.dest F]) := by simp only [step, he, sendNext, hs, hF]
  refine ⟨_, hstep, rfl, rfl, rfl, rfl, ?_, ?_⟩
  · simp [transmissions]
  · simp [completions]

/-- The replies that the sender waits through are taken one by one and change nothing else (R113). -/
theorem run_keepsWaiting (hs : s.sender = .awaitingAck tr i) (hk : ∀ e ∈ evs, keepsWaiting s.cfg e = true)
    (he : s.inbox = evs ++ rest) : Sys2Proof.core.run evs.length s = .next { s with inbox := rest } := by
  induction evs generalizing s with
  | nil => cases he; rfl
  | cons e evs ih =>
    have hstep := step_keepsWaiting hs he (hk e List.mem_cons_self)
    exact (run_next _ hstep).trans (ih hs (fun x hx => hk x (List.mem_cons_of_mem e hx)) rfl)

/-- What ends a wait transmits nothing, and reports completion exactly when the sender is then done (R104 to R106). -/
theorem step_endsWait_dispatched (hs : s.sender = .awaitingAck tr i) (he : s.inbox = e :: rest)
    (hw : endsWait s.cfg e = true) : ∃ u, step s = .next u ∧ u.sender = tr.afterWait i ∧ u.inbox = rest ∧
      Dispatched tr s [] (completedChecksum (tr.afterWait i)) u := by
  obtain ⟨r, acts, htrans, hcomp, hstep⟩ := step_endsWait hs he hw
  refine ⟨_, hstep, rfl, rfl, rfl, rfl, ?_, ?_⟩
  · simp [transmissions_completionReport, htrans]
  · simp [completions_completionReport, hcomp]

/-- The events of one chunk's turn: the transmission, what is waited through, and what ends the wait. -/
def turnEvents (w : List Event × Event) : List Event := .sendNext :: (w.1 ++ [w.2])

/-- One chunk's turn transmits its frame and nothing else, and the sender proceeds (R103 to R106). -/
theorem turn_run {w : List Event × Event} (hs : s.sender = .sending tr i) (hF : tr.frame i = .ok F)
    (hk : ∀ e ∈ w.1, keepsWaiting s.cfg e = true) (hw : endsWait s.cfg w.2 = true)
    (he : s.inbox = turnEvents w ++ rest) :
    ∃ u, Sys2Proof.core.run (turnEvents w).length s = .next u ∧ u.sender = tr.afterWait i ∧ u.inbox = rest ∧
      Dispatched tr s [F] (completedChecksum (tr.afterWait i)) u := by
  obtain ⟨a, hsend, ha, hin, hsent⟩ := step_sendNext hs hF he
  have hwait := run_keepsWaiting (rest := w.2 :: rest) ha (by rwa [hsent.cfg]) (by simpa using hin)
  obtain ⟨u, hend, hu, hrest, hdone⟩ := step_endsWait_dispatched (s := { a with inbox := w.2 :: rest }) ha rfl
    (by rwa [← hsent.cfg] at hw)
  refine ⟨u, ?_, hu, hrest, hsent.trans ⟨hdone.cfg, hdone.mem, hdone.transmissions, hdone.completions⟩⟩
  rw [turnEvents, List.length_cons, List.length_append, run_next _ hsend, run_add _ _ _ _ hwait]
  exact run_next 0 hend

/-- The turns of the chunks from `i` to the last transmit their frames in order and report completion once, by induction
on the turns (R103, R106, R108). -/
theorem turns_run {waits : List (List Event × Event)} {frames : Nat → Bytes} (hF : ∀ j, tr.frame j = .ok (frames j))
    (hi : i < tr.chunks.length) (hlen : i + waits.length = tr.chunks.length) (hs : s.sender = .sending tr i)
    (hwaits : ∀ w ∈ waits, (∀ e ∈ w.1, keepsWaiting s.cfg e = true) ∧ endsWait s.cfg w.2 = true)
    (he : s.inbox = waits.flatMap turnEvents) :
    ∃ u, Sys2Proof.core.run (waits.flatMap turnEvents).length s = .next u ∧ u.sender = .done tr.fc ∧ u.inbox = [] ∧
      Dispatched tr s ((List.range' i waits.length).map frames) [tr.fc] u := by
  induction waits generalizing i s with
  | nil => exact absurd hlen hi.ne
  | cons w waits ih =>
    obtain ⟨hk, hw⟩ := hwaits w List.mem_cons_self
    obtain ⟨u, hrun, hu, hin, hturn⟩ := turn_run hs (hF i) hk hw he
    rw [List.length_cons] at hlen
    rcases Nat.lt_or_eq_of_le (Nat.succ_le_of_lt hi) with hnext | hlast
    · rw [afterWait_next hnext] at hu hturn
      obtain ⟨v, hrunv, hv, hrest, hturns⟩ := ih hnext (by omega) hu
        (fun x hx => by rw [hturn.cfg]; exact hwaits x (List.mem_cons_of_mem w hx)) hin
      refine ⟨v, ?_, hv, hrest, hturn.trans hturns⟩
      rw [List.flatMap_cons, List.length_append, run_add _ _ _ _ hrun, hrunv]
    · rw [afterWait_last hlast] at hu hturn
      obtain rfl : waits = [] := List.length_eq_zero_iff.1 (by omega)
      exact ⟨u, by simpa using hrun, hu, hin, hturn⟩

/-- Settles O56: the turns of all chunks from the first, whose frames no ENCODE fails to build (R107). -/
theorem senderTransmitsEveryFrame : Obligations.SenderTransmitsEveryFrame := by
  intro tr waits s hwf hpos hlen hwaits hs he
  choose frames hF using exists_transferFrame (transfer_wf_iff.1 hwf).1
  obtain ⟨u, hrun, hu, hin, hall⟩ := turns_run hF hpos (by omega) hs hwaits he
  rw [hlen, ← List.range_eq_range'] at hall
  refine ⟨u, (List.range tr.chunks.length).map frames, he ▸ hrun, hu, hall.mem, hin, by simp, fun i hi => ?_,
    hall.transmissions, hall.completions⟩
  rw [hF i]
  simp [hi]

end Sys2Proof.Machine
end

section
/-! Proofs of the obligations of 43_single_packet_variant.md: SP_ENCODE and SP_DECODE answer what `spEncodeFrame` and
`spDecodeFrame` give, and SP_SERVE, to which the arrival of a frame comes down, is read off `spDecodeFrame`. -/

namespace Sys2Proof.Machine

variable {s : State} {src : Peer} {ty reserved : Byte} {ck : Half} {payload D : Bytes} {kind : ErrorKind}

/-! ### What SP_ENCODE and SP_DECODE answer -/

/-- SP_ENCODE of an assigned type answers with what `spEncodeFrame` gives and does nothing else (R119). -/
theorem exec_spEncode (hty : ty.toNat ≤ 2) : exec (.spEncode ty payload) s =
    .next (s.respond (answerResult (spEncodeFrame payload ty) .okBytes) []) :=
  (if_pos (assignedType_iff.2 hty)).trans (congrArg _ (answer_eq ..))

theorem exec_spEncode_ok (hty : ty.toNat ≤ 2) (hl : payload.length ≤ spMaxPayload) :
    exec (.spEncode ty payload) s =
      .next { s with outbox := s.outbox ++ [⟨.okBytes (spBuildFrame payload ty), []⟩] } := by
  rw [exec_spEncode hty, spEncodeFrame_ok hl]
  rfl

theorem exec_spEncode_tooLarge (hty : ty.toNat ≤ 2) (hl : spMaxPayload < payload.length) :
    exec (.spEncode ty payload) s = .next { s with outbox := s.outbox ++ [⟨.err .payloadTooLarge, []⟩] } := by
  rw [exec_spEncode hty, spEncodeFrame_error hl]
  rfl

/-- What SP_DECODE returns for a datagram: the error, or the type and the payload (R120, R121). -/
def spDecodeResult (checked : Bool) (D : Bytes) : Result :=
  answerResult (spDecodeFrame checked D) fun f => .okSpFrame f.1 f.2

/-- SP_DECODE answers every datagram with what `spDecodeFrame` gives and does nothing else (R120). -/
theorem exec_spDecode : exec (.spDecode D) s =
    .next { s with outbox := s.outbox ++ [⟨spDecodeResult s.cfg.spReservedCheck D, []⟩] } :=
  congrArg _ (answer_eq ..)

/-! ### The frame SP_ENCODE builds -/

/-- A built frame has a zero reserved byte and the right checksum, so it decodes under either setting of
`SP_RESERVED_CHECK` (R123, R125). -/
theorem spDecodeFrame_spBuildFrame (checked : Bool) (hl : payload.length ≤ spMaxPayload) :
    spDecodeFrame checked (spBuildFrame payload ty) = .ok (ty, payload) := by
  rw [spBuildFrame_eq, spDecodeFrame_laySpFrame hl, if_neg (by simp), if_neg (not_not.2 rfl)]

theorem laySpFrame_take_three : (laySpFrame ty reserved ck payload).take 3 = [0xC0#8, 0xDE#8, 0x01#8] := rfl

/-- A built frame is a laid-out one whose checksum field is its checksum (R118). -/
theorem spBuildFrame_checksum : read16 (spBuildFrame payload ty) 7 = spChecksum (spBuildFrame payload ty) := by
  rw [spBuildFrame_eq, laySpFrame_checksum, spChecksum_laySpFrame, spChecksumOf]

/-- Settles O31, on either side of the boundary; the fields are those of the laid-out frame. -/
theorem spEncodeAnswersFrame : Obligations.SpEncodeAnswersFrame := by
  intro ty payload s hty
  refine ⟨fun hl => ⟨_, exec_spEncode_ok hty hl, ?_⟩, exec_spEncode_tooLarge hty⟩
  have hck := spBuildFrame_checksum (payload := payload) (ty := ty)
  rw [spBuildFrame_eq] at hck ⊢
  exact ⟨laySpFrame_length .., laySpFrame_take_three, laySpFrame_type .., laySpFrame_reserved ..,
    laySpFrame_len _ _ _ _ hl, laySpFrame_payload .., hck⟩

/-- Settles O32. -/
theorem spDecodeInvertsSpEncode : Obligations.SpDecodeInvertsSpEncode := by
  intro ty payload s s' hty hl
  refine ⟨_, exec_spEncode_ok hty hl, ?_⟩
  rw [exec_spDecode, spDecodeResult, spDecodeFrame_spBuildFrame _ hl]
  rfl

/-! ### The checks of SP_DECODE in their order -/

/-- One check of a decoder: the error it fails with, or else whatever follows from the checks after it. -/
theorem answerResult_check {α : Type} {c d P : Prop} [Decidable c] [Decidable d] {v : Except ErrorKind α}
    {ok : α → Result} {r : Result} (hr : r = answerResult (if c then .error kind else v) ok) (hcd : d ↔ c)
    (hrest : ¬ c → r = answerResult v ok → P) : if d then r = .err kind else P := by
  by_cases hc : c
  · rw [if_pos (hcd.2 hc), hr, if_pos hc]
    rfl
  · rw [if_neg (mt hcd.1 hc)]
    exact hrest hc (by rw [hr, if_neg hc])

/-- The checksum test as an equation of numbers (R118). -/
theorem spChecksum_eq_iff (hn : spHdr ≤ D.length) : spChecksum D = read16 D 7 ↔
    ((crc32 (D.take 7 ++ zeros 2 ++ D.drop 9)).setWidth 16 : Half).toNat = memRead D 7 2 := by
  rw [← read16_toNat (off := 7) hn, BitVec.toNat_inj, spChecksum, spZeroedChecksum]

/-- Settles O33, check by check in R120's order, the reserved byte's between the version's and the length's (R123). -/
theorem spDecodeAnswersEveryDatagram : Obligations.SpDecodeAnswersEveryDatagram := by
  intro D s
  obtain ⟨r, hr⟩ : ∃ r, r = spDecodeResult s.cfg.spReservedCheck D := ⟨_, rfl⟩
  refine ⟨r, hr ▸ exec_spDecode, ?_⟩
  rw [spDecodeResult, spDecodeFrame] at hr
  exact answerResult_check hr Iff.rfl fun hn hr => answerResult_check hr Iff.rfl fun _ hr =>
    answerResult_check hr Iff.rfl fun _ hr => answerResult_check hr (by simp) fun _ hr =>
    answerResult_check hr Iff.rfl fun _ hr => answerResult_check hr Iff.rfl fun _ hr =>
    answerResult_check hr (spChecksum_eq_iff (Nat.not_lt.1 hn)).not.symm fun _ hr => hr

/-! ### What SP_SERVE answers -/

/-- The reply to a malformed frame, written out (R122). -/
theorem spErrorFrame_eq :
    spErrorFrame = [0xC0#8, 0xDE#8, 0x01#8, 0x02#8, 0x00#8, 0x00#8, 0x00#8, 0xD9#8, 0x77#8] := by decide +kernel

/-- A datagram that SP_DECODE rejects is reported and answered with the ERROR frame (R122). -/
theorem serve_error (h : spDecodeFrame s.cfg.spReservedCheck D = .error kind) : serve src D s =
    { s with outbox := s.outbox ++ [⟨.served (.rejected kind), [.report (.frameDiscarded kind),
      .transmit src [0xC0#8, 0xDE#8, 0x01#8, 0x02#8, 0x00#8, 0x00#8, 0x00#8, 0xD9#8, 0x77#8]]⟩] } := by
  rw [serve, h, ← spErrorFrame_eq]
  rfl

/-- A datagram that SP_DECODE takes apart is accepted with no action (R122). -/
theorem serve_ok (h : spDecodeFrame s.cfg.spReservedCheck D = .ok (ty, payload)) : serve src D s =
    { s with outbox := s.outbox ++ [⟨.served (.accepted ty payload), []⟩] } := by
  rw [serve, h]
  rfl

/-- Settles O34: the two outcomes of SP_DECODE. -/
theorem spServeRejectsOrAccepts : Obligations.SpServeRejectsOrAccepts :=
  fun _ _ _ => ⟨fun _ h => congrArg _ (serve_error h), fun _ _ h => congrArg _ (serve_ok h)⟩

/-! ### A single-packet frame arriving -/

/-- A frame with a right checksum and a reserved byte the parameter admits is accepted, whatever its type. -/
theorem exec_spFrameKind_accepted (hl : payload.length ≤ spMaxPayload)
    (hres : s.cfg.spReservedCheck = true → reserved = 0#8)
    (hck : ck = spChecksum (laySpFrame ty reserved ck payload)) : exec (spFrameKind src ty reserved ck payload) s =
      .next { s with outbox := s.outbox ++ [⟨.served (.accepted ty payload), []⟩] } := by
  have hd : spDecodeFrame s.cfg.spReservedCheck (laySpFrame ty reserved ck payload) = .ok (ty, payload) := by
    rw [spDecodeFrame_laySpFrame hl, if_neg (by simpa using hres), spChecksumOf, ← spChecksum_laySpFrame,
      if_neg (not_not.2 hck.symm)]
  rw [exec_spFrameKind, serve_ok hd]

/-- Settles O35: the three kinds are `spFrameKind` of the three type codes. -/
theorem spFramesAccepted : Obligations.SpFramesAccepted := fun _ _ _ _ _ hl hres =>
  ⟨exec_spFrameKind_accepted (ty := typeData) hl hres, exec_spFrameKind_accepted (ty := typeAck) hl hres,
    exec_spFrameKind_accepted (ty := typeError) hl hres⟩

/-- A frame laid out with a refused reserved byte or a wrong checksum fails SP_DECODE, by the former first (R123). -/
theorem spDecodeFrame_laySpFrame_error {checked : Bool} (hl : payload.length ≤ spMaxPayload)
    (hbad : (checked = true ∧ reserved ≠ 0#8) ∨ ck ≠ spChecksum (laySpFrame ty reserved ck payload)) :
    spDecodeFrame checked (laySpFrame ty reserved ck payload) =
      .error (if checked = true ∧ reserved ≠ 0#8 then .reservedNotZero else .checksumMismatch) := by
  rw [spDecodeFrame_laySpFrame hl]
  by_cases hres : checked = true ∧ reserved ≠ 0#8
  · rw [if_pos (by simpa using hres), if_pos hres]
  · rw [if_neg (by simpa using hres), if_neg hres, spChecksumOf, ← spChecksum_laySpFrame,
      if_pos (hbad.resolve_left hres).symm]

/-- Settles O36: each of the three kinds is `spFrameKind` of its type code, and its frame fails SP_DECODE. -/
theorem spFramesRejected : Obligations.SpFramesRejected := by
  intro src reserved ty ck payload i s hl hi hbad
  have hkind : i = spFrameKind src ty reserved ck payload := by
    rcases hi with ⟨rfl, rfl⟩ | ⟨rfl, rfl⟩ | ⟨rfl, rfl⟩ <;> rfl
  refine ⟨_, ?_, rfl⟩
  rw [hkind, exec_spFrameKind, serve_error (spDecodeFrame_laySpFrame_error hl hbad)]

end Sys2Proof.Machine
end

section
/-! Proof of the obligation of 60_exceptions.md: no run with unbounded buffers ends in a fault. An instruction has one
reason to fault, a store that overflows (R81, R149), and the sender has one, an ENCODE that fails (R107), which the
invariant excludes. -/

namespace Sys2Proof.Machine

variable {s : State} {src dest : Peer} {D W : Bytes} {f : DecodedFrame} {i : Instr} {tr : Transaction} {e : Fault}

/-! ### Why an instruction faults -/

/-- The fault `e` is the one an exhausted `RB_CAPACITY` raises, and in `s` a store exhausts it (R149). -/
def OverflowFault (s : State) (e : Fault) : Prop := e = .bufferFull ∧ ∃ p seq, s.storeOverflows p seq = true

theorem not_overflowFault_of_unbounded (hcap : s.cfg.rbCapacity = none) : ¬ OverflowFault s e := by
  rintro ⟨-, p, seq, ho⟩
  rw [storeOverflows_unbounded hcap] at ho
  cases ho

theorem receive_fault (h : receive src D s = .fault e) : OverflowFault s e := by
  cases hd : decodeFrame D with
  | error kind => rw [receive_error hd] at h; cases h
  | ok f =>
    by_cases hty : f.ty = typeData
    · cases ho : s.storeOverflows src f.seq with
      | true => rw [receive_data hd hty, recvData_full ho] at h; cases h; exact ⟨rfl, src, f.seq, ho⟩
      | false =>
        cases hf : f.form with
        | normal => rw [receive_normal hd hty hf ho] at h; cases h
        | terminal fc => rw [receive_terminal hd hty hf ho] at h; cases h
    · rw [receive_nonData hd hty] at h; cases h

/-- Only what stores a chunk can fault: RB_STORE, and whatever hands a datagram to the receiver (R149). -/
theorem exec_fault (h : exec i s = .fault e) : OverflowFault s e := by
  cases i with
  | rbStore p seq payload =>
    simp only [exec, execRbStore] at h
    split at h
    · cases h
    · split at h
      · next ho => cases h; exact ⟨rfl, p, seq, ho⟩
      · cases h
  | recv | frameData | frameDataTerminal | frameAck | frameError | frameUnassigned =>
    rw [exec_receivedDatagram rfl] at h
    exact receive_fault h
  | encode seq ty fc payload =>
    simp only [exec, execEncode] at h
    split at h <;> cases h
  | spEncode ty payload =>
    simp only [exec, execSpEncode] at h
    split at h <;> cases h
  | crc32 | decode | rbConcat | rbClear | rbFinalize | spDecode | spServe | spFrameData | spFrameAck
  | spFrameError => cases h

theorem performTransaction_fault (h : performTransaction tr s = .fault e) : OverflowFault s e := by
  unfold performTransaction at h
  split at h
  · exact exec_fault h
  · cases h

/-! ### Why the sender does not fault -/

/-- SEND starts or is refused (R103, R110, R114). -/
theorem startSend_ne_fault : startSend W dest s ≠ .fault e := by
  intro h
  simp only [startSend] at h
  split at h
  · split at h <;> cases h
  · split at h <;> cases h
  · cases h
  · cases h

/-- ENCODE fails on no chunk of a sound sender (R107). -/
theorem sendNext_ne_fault (hw : s.sender.wf = true) : sendNext s ≠ .fault e := by
  intro h
  unfold sendNext at h
  split at h
  · next tr i hs =>
    rw [hs, Sender.wf, Bool.and_eq_true, transfer_wf_iff] at hw
    obtain ⟨⟨hchunks, -⟩, -⟩ := hw
    obtain ⟨F, hF⟩ := exists_transferFrame hchunks i
    rw [hF] at h
    cases h
  all_goals cases h

/-! ### Steps and runs -/

/-- A step with a sound sender faults only by an overflow. -/
theorem step_fault (hw : s.sender.wf = true) (h : step s = .fault e) : OverflowFault s e := by
  cases he : s.inbox with
  | nil => rw [step_nil he] at h; cases h
  | cons ev rest =>
    simp only [step, he] at h
    cases ev with
    | transaction tr => exact performTransaction_fault (s := { s with inbox := rest }) h
    | reset => cases h
    | send W dest => exact absurd h startSend_ne_fault
    | sendNext => exact absurd h (sendNext_ne_fault hw)
    | reply d => cases h
    | waitExpired => cases h

/-- Settles O50, by induction on the number of steps: no step from an invariant state with unbounded buffers faults
(`step_fault`), and the next state is again one (`stepKeepsInvariant`, `stepTakesOneEvent`). -/
theorem unboundedRunsNeverFault : Obligations.UnboundedRunsNeverFault := by
  intro k
  induction k with
  | zero => exact fun _ _ _ => rfl
  | succ k ih =>
    intro s hinv hcap
    cases hs : step s with
    | next t =>
      obtain ⟨hcfg, -⟩ := stepTakesOneEvent s t hs
      have hsafe : safeRun k t = true := ih t (stepKeepsInvariant s t hinv hs) (hcfg ▸ hcap)
      rwa [safeRun, run_next k hs]
    | fault e =>
      obtain ⟨-, hsender⟩ := inv_iff.1 hinv
      exact absurd (step_fault hsender hs) (not_overflowFault_of_unbounded hcap)
    | refused r => rw [safeRun, run_refused k hs]

end Sys2Proof.Machine
end

section
/-! Proofs of the obligations of 70_reset_and_hazards.md. The reset step leaves `State.resetBuffers`, whose fields are
known. A single-chunk terminal frame that completes leaves the buffer as empty as it found it, so a second copy meets the
first one's premises and completes again (R158). -/

namespace Sys2Proof.Machine

variable {s : State} {src : Peer} {D : Bytes} {f : DecodedFrame}

/-- Settles O44: the step is the clearing of the buffers (`step_reset`), and an empty buffer is the phase (R16). -/
theorem resetEventEmptiesBuffers : Obligations.ResetEventEmptiesBuffers := by
  intro s rest he
  have hempty (p : Peer) : (State.resetBuffers { s with inbox := rest }).buffer p = [] := resetBuffers_buffer _ p
  exact ⟨_, step_reset he, fun p => ⟨hempty p, receiverPhase_awaiting_iff.2 (hempty p)⟩, rfl, rfl, rfl, rfl, rfl, rfl⟩

/-- With nothing buffered, a terminal frame finalizes over its own payload alone (R93). -/
theorem finalConcat_of_buffer_nil (hb : s.buffer src = []) : finalConcat s src f = f.payload := by
  simp [finalConcat, concatBuffer, hb, assocPut]

theorem sinkDeliveries_terminalResponse (src : Peer) (seq : Word) (out : Bytes) :
    sinkDeliveries [terminalResponse src seq (crc32 out) out] = [out] := by
  rw [terminalResponse, if_pos rfl]
  rfl

/-- One copy of a single-chunk terminal frame at an empty unbounded buffer hands its payload to the sink once and leaves
an empty unbounded buffer in a canonical store, where the next copy finds the same. -/
theorem exec_recv_singleChunk (hm : s.mem.wf = true) (hb : s.buffer src = []) (hcap : s.cfg.rbCapacity = none)
    (hd : decodeFrame D = .ok f) (hty : f.ty = typeData) (hf : f.form = .terminal (crc32 f.payload)) :
    ∃ t, exec (.recv src D) s = .next t ∧ t.mem.wf = true ∧ t.buffer src = [] ∧ t.cfg.rbCapacity = none ∧
      sinkDeliveries t.outbox = sinkDeliveries s.outbox ++ [f.payload] := by
  have hl := decodeFrame_payload_length hd
  have hrecv := receive_terminal hd hty hf (storeOverflows_unbounded (p := src) (seq := f.seq) hcap)
  rw [finalConcat_of_buffer_nil hb] at hrecv
  have hframe := respondedWith_finalized s src f.seq f.payload
    (terminalResponse src f.seq (crc32 f.payload) f.payload).result
    (terminalResponse src f.seq (crc32 f.payload) f.payload).actions
  refine ⟨_, hrecv, clearBuffer_wf (putChunk_wf hm hl), finalized_buffer_nil hm hl, hframe.cfg ▸ hcap, ?_⟩
  rw [hframe.outbox, sinkDeliveries_append]
  exact congrArg _ (sinkDeliveries_terminalResponse src f.seq f.payload)

/-- Settles O59: each copy is one reception at an empty buffer (`exec_recv_singleChunk`), the second at the state the
first left. -/
theorem duplicateTerminalDeliversTwice : Obligations.DuplicateTerminalDeliversTwice := by
  intro src D f s hm hb hcap hd hty hf
  obtain ⟨t, hrecv, hm', hb', hcap', hsink⟩ := exec_recv_singleChunk hm hb hcap hd hty hf
  obtain ⟨u, hagain, -, hempty, -, hsink'⟩ := exec_recv_singleChunk hm' hb' hcap' hd hty hf
  exact ⟨t, u, hrecv, hagain, hempty, by rw [hsink', hsink, List.append_assoc]; rfl⟩

end Sys2Proof.Machine
end
